-- ==== Sys2Proof/Word.lean ====
section
/-! DEFINITION. The word types of the bit-io block (00_scope.md R4, 30_encoding.md R52, R54) and the
names of its two units (00_scope.md R1). -/

namespace Sys2Proof

/-- A byte of either stream: 8 bits with values 0 to 255 (20_memory.md R30). -/
abbrev Byte := BitVec 8

/-- A command word, `CMD_W` = 128 bits (30_encoding.md R52). -/
abbrev CommandWord := BitVec 128

/-- The `VALUE` operand and a `RESULT`, `VALUE_W` = 64 bits (00_scope.md R4). -/
abbrev Value := BitVec 64

/-- The two units of the block: the writer `BW` and the reader `BR` (00_scope.md R1). -/
inductive UnitId where
  /-- the BitWriter unit -/
  | bw
  /-- the BitReader unit -/
  | br
  deriving DecidableEq, Repr

end Sys2Proof
end

