-- ==== Sys2Proof/Config.lean ====
section
/-! DEFINITION. What the spec leaves open as a value: 93_implementation_defined.md U1 and U2, "any value
(each register within its type)". Each is an opaque function of the unit and of a plain counter in
State, with no body, so nothing can be proved of a value of it (log entries 2, 9, 11). The parameter
`PORT_BINDING` (00_scope.md R4, U11) has no value here because no rule depends on it. -/

namespace Sys2Proof

/-- The cells of a unit's `pendingBits` where the spec leaves them unspecified (U1, U2, R220). -/
opaque Config.freeCells : UnitId → Nat → Vector Bool 8

/-- A unit's `bitIndex` where the spec leaves it unspecified (U1, 60_exceptions.md R203). -/
opaque Config.freeIndex : UnitId → Nat → BitVec 3

/-- A unit's `byteCount` where the spec leaves it unspecified (U1, 60_exceptions.md R203). -/
opaque Config.freeCount : UnitId → Nat → BitVec 64

end Sys2Proof
end

