-- ==== Sys2Proof/Machine/Bits.lean ====
section
/-! DEFINITION. Bits, cells and bytes: most significant bit first inside a byte (20_memory.md R33), cell
`i` of `pendingBits` against bit `7-i` of a byte (10_state.md R11, R16), and the extensions of
00_scope.md R6. -/

namespace Sys2Proof.Machine

/-- `AssembleByte()`: cell 0 is bit 7 of the byte, cell 7 is bit 0 (41_writer_primitives.md R82). -/
def assembleByte (cells : Vector Bool 8) : Byte :=
  BitVec.ofBool cells[0] ++ BitVec.ofBool cells[1] ++ BitVec.ofBool cells[2]
    ++ BitVec.ofBool cells[3] ++ BitVec.ofBool cells[4] ++ BitVec.ofBool cells[5]
    ++ BitVec.ofBool cells[6] ++ BitVec.ofBool cells[7]

/-- The cells a fetched byte is loaded into: `pendingBits[i] <- b[7-i]` (10_state.md R16). -/
def cellsOfByte (b : Byte) : Vector Bool 8 :=
  #v[b.getLsbD 7, b.getLsbD 6, b.getLsbD 5, b.getLsbD 4,
     b.getLsbD 3, b.getLsbD 2, b.getLsbD 1, b.getLsbD 0]

/-- Register read of cell `i` (00_scope.md R7). -/
def cellAt (cells : Vector Bool 8) (i : BitVec 3) : Bool := cells[i.toNat]'i.isLt

/-- Register write of cell `i` (00_scope.md R7). -/
def setCell (cells : Vector Bool 8) (i : BitVec 3) (b : Bool) : Vector Bool 8 :=
  cells.set i.toNat b i.isLt

/-- One bit as a 64-bit number. -/
def bitValue (b : Bool) : Value := if b then 1 else 0

/-- Bits `n-1` to 0 of a value, zero-extended (00_scope.md R6: `v[n-1:0]`). -/
def lowField (n : Nat) (v : Value) : Value := (v.setWidth n).setWidth 64

/-- `sext_64` of the low `n` bits of `v` (00_scope.md R6). -/
def signExtendFrom (n : Nat) (v : Value) : Value := (v.setWidth n).signExtend 64

end Sys2Proof.Machine
end

