-- ==== Sys2Proof/Machine/State.lean ====
section
/-! DEFINITION. The state of the machine: the registers of the two units (10_state.md), the response
words each has delivered (30_encoding.md R54), the two byte streams and the replies of their far ends
(20_memory.md R30, R31, R35), and what the hosts have still to present (00_scope.md R5). Everything is
plain data. Also the reasons a step can stop, and the state right after reset. -/

namespace Sys2Proof.Machine

/-- A response word: `STATUS` in bits 71:64, `RESULT` in bits 63:0 (30_encoding.md R54). -/
structure Response where
  status : BitVec 8
  result : Value
  deriving DecidableEq, Repr

/-- A reply of the byte sink to one `SinkPut` (20_memory.md R31, D27, U3). -/
inductive SinkReply where
  /-- the byte is now the last element of `OUT` -/
  | ok
  /-- the byte is not in `OUT` -/
  | ioFail
  /-- the sink never answers this transaction -/
  | noReply
  deriving DecidableEq, Repr

/-- A reply of the byte source to one `SrcNext` (20_memory.md R35, D27, U3). -/
inductive SourceReply where
  /-- the next byte of `IN`, now consumed -/
  | byte (b : Byte)
  /-- `IN` has no further byte -/
  | endOfData
  /-- an I/O failure -/
  | ioFail
  /-- the source never answers this transaction -/
  | noReply
  deriving DecidableEq, Repr

/-- What each unit owns (10_state.md R10): its four registers, and with them its channels. -/
structure UnitState where
  /-- the 8 one-bit cells, cell `i` holding bit `7-i` of a byte (10_state.md R11, R16) -/
  pendingBits : Vector Bool 8
  /-- 0 to 7 (10_state.md R12, R17) -/
  bitIndex : BitVec 3
  /-- `COUNT_W` = 64 bits (10_state.md R14, R17) -/
  byteCount : BitVec 64
  /-- 0 or the cause code of the first fault since reset (10_state.md R15) -/
  fault : BitVec 8
  /-- a command is in progress that waits for a reply which never comes, so the channel takes no
  word (30_encoding.md R51, 20_memory.md R31, R35, U3; DEDUCED, log entry 3) -/
  busy : Bool
  /-- the model's own counter: which free value comes next (DESIGN CHOICE, log entry 9) -/
  draws : Nat
  /-- the response words delivered, oldest first (30_encoding.md R51, R54; log entry 4) -/
  responses : List Response
  deriving DecidableEq, Repr

/-- The writer unit `BW` and the stream behind its byte port. -/
structure Writer extends UnitState where
  /-- `OUT`: the bytes the sink has accepted since reset, byte number `k` at position `k`
  (20_memory.md R30, R32) -/
  out : List Byte
  /-- the sink's replies still to come, first first (20_memory.md R31; log entry 6) -/
  sink : List SinkReply
  deriving DecidableEq, Repr

/-- The reader unit `BR` and the stream behind its byte port. -/
structure Reader extends UnitState where
  /-- the bytes of `IN` taken since reset, byte number `k` at position `k` (20_memory.md R30, R36) -/
  taken : List Byte
  /-- the source's replies still to come, first first (20_memory.md R35; log entry 7) -/
  source : List SourceReply
  deriving DecidableEq, Repr

/-- What a host does to a unit between commands: present a command word on its channel
(30_encoding.md R51, R62) or reset it (70_reset_and_hazards.md R220). -/
inductive HostEvent where
  | command (unit : UnitId) (word : CommandWord)
  | reset (unit : UnitId)
  deriving DecidableEq, Repr

/-- The whole machine: the two units and the events the hosts have still to present, first first. -/
structure State where
  w : Writer
  r : Reader
  host : List HostEvent
  deriving DecidableEq, Repr

/-- Reasons for the machine to stop with a fault: none. Every fault of the spec is an answer of a unit
and a latch, so a next state (60_exceptions.md R200, R204), and a far end that never answers leaves
its unit busy while the other goes on (U3). -/
inductive Fault where
  deriving DecidableEq, Repr

/-- Reasons for the machine to refuse a step. -/
inductive Refusal where
  /-- raised by `exec` for an instruction that has no meaning yet; safe -/
  | notModelled (mnemonic : String)
  /-- raised by a byte-counting micro-operation that would increment `byteCount` from `2^64 - 1`: outside
  the spec (10_state.md R14, 93_implementation_defined.md U6); safe -/
  | byteCountOverflow
  /-- raised by a reset event of a unit whose command is still in progress: outside the spec
  (70_reset_and_hazards.md R222, 93_implementation_defined.md U4); safe -/
  | resetDuringCommand
  deriving DecidableEq, Repr

/-- A unit right after reset (10_state.md R25). The cells are unspecified there, and unobservable; the
model names 0 (DESIGN CHOICE, log entry 1). -/
def UnitState.reset : UnitState where
  pendingBits := #v[false, false, false, false, false, false, false, false]
  bitIndex := 0
  byteCount := 0
  fault := 0
  busy := false
  draws := 0
  responses := []

/-- The machine right after reset: both units reset (10_state.md R25), nothing accepted, nothing taken,
no reply scripted (log entries 6, 7), and nothing presented yet (log entry 8). -/
def State.reset : State where
  w := { UnitState.reset with out := [], sink := [] }
  r := { UnitState.reset with taken := [], source := [] }
  host := []

end Sys2Proof.Machine
end

