-- ==== Sys2Proof/Machine/Flags.lean ====
section
/-! DEFINITION. The one status a unit keeps is its `fault` register (10_state.md R20): the cause codes
(60_exceptions.md R191), what the response of each outcome is (30_encoding.md R54). There are no condition codes (R20);
taking a fault is in Machine/Ops.lean. -/

namespace Sys2Proof.Machine

/-- The conditions of 60_exceptions.md R190 and R191. `nullValue` and `nullEncoder` belong to the host
layer and no command raises them (R196). -/
inductive Cause where
  | invalidWidth
  | invalidArgument
  | nullValue
  | nullEncoder
  | unexpectedEndOfInput
  | ioFailure
  | illegalCommand
  deriving DecidableEq, Repr

/-- The cause code (60_exceptions.md R191). -/
def Cause.code : Cause → BitVec 8
  | .invalidWidth => 1
  | .invalidArgument => 2
  | .nullValue => 3
  | .nullEncoder => 4
  | .unexpectedEndOfInput => 5
  | .ioFailure => 6
  | .illegalCommand => 7

/-- The causes after which `pendingBits`, `bitIndex` and `byteCount` are unspecified (60_exceptions.md
R203, R205). -/
def Cause.imprecise : Cause → Bool
  | .unexpectedEndOfInput => true
  | .ioFailure => true
  | .invalidWidth | .invalidArgument | .nullValue | .nullEncoder | .illegalCommand => false

/-- `STATUS` of a command refused because the unit is faulted (60_exceptions.md R191, R201). -/
def statusFaulted : BitVec 8 := 8

/-- The 72-bit response word (30_encoding.md R54). -/
def Response.word (x : Response) : BitVec 72 := x.status ++ x.result

/-- The unit delivers one response word (30_encoding.md R51). -/
def UnitState.answer (status : BitVec 8) (result : Value) (u : UnitState) : UnitState :=
  { u with responses := u.responses ++ [⟨status, result⟩] }

/-- `respond(v)`: the command ends with status `OK` and result `v` (00_scope.md R7). -/
def UnitState.respond (v : Value) (u : UnitState) : UnitState := u.answer 0 v

/-- A faulted unit refuses a command: `STATUS` = 8, `RESULT` = 0, nothing else (60_exceptions.md R201). -/
def UnitState.refuse (u : UnitState) : UnitState := u.answer statusFaulted 0

end Sys2Proof.Machine
end

