-- ==== Sys2Proof/Machine/Operands.lean ====
section
/-! DEFINITION. The operands of a command: WidthPolicy, the gate every `size` passes (40_width_policy.md),
the gate of `byteBoundary` (43_writer_align_status.md R120), and the bits of `VALUE` each command
takes (30_encoding.md R53). -/

namespace Sys2Proof.Machine

/-- `MaxSize(unsigned, e)` (40_width_policy.md R71). -/
def maxSize (unsigned : Bool) (exponent : Nat) : Int := 2 ^ exponent - (if unsigned then 0 else 1)

/-- `requireValidSize(unsigned, exponent, size)`: the size unchanged, or `InvalidWidth` (40_width_policy.md R70). -/
def requireValidSize (unsigned : Bool) (exponent : Nat) (size : Int) : Except Cause Int :=
  if size < 1 then .error .invalidWidth
  else if maxSize unsigned exponent < size then .error .invalidWidth
  else .ok size

/-- The exponent of the byte category (40_width_policy.md R72). -/
def exponentByte : Nat := 3

/-- The exponent of the short and char categories (40_width_policy.md R72). -/
def exponentShort : Nat := 4

/-- The exponent of the int category (40_width_policy.md R72). -/
def exponentInt : Nat := 5

/-- The exponent of the long category (40_width_policy.md R72). -/
def exponentLong : Nat := 6

/-- `require byteBoundary > 0 else raise InvalidArgument` (43_writer_align_status.md R120, 60_exceptions.md R193). -/
def requirePositive (byteBoundary : Int) : Except Cause Int :=
  if byteBoundary ≤ 0 then .error .invalidArgument else .ok byteBoundary

/-- A command without operands to validate (40_width_policy.md R73). -/
def noGate : Except Cause Unit := .ok ()

/-- `VALUE[0]` of `WBOOL` (30_encoding.md R53). -/
def operandBit (v : Value) : Value := lowField 1 v

/-- `VALUE[7:0]` of `W8` (30_encoding.md R53). -/
def operand8 (v : Value) : Value := lowField 8 v

/-- `VALUE[15:0]` of `W16` and `WCHAR` (30_encoding.md R53). -/
def operand16 (v : Value) : Value := lowField 16 v

/-- `VALUE[31:0]` of `WINT` and `WFLOAT` (30_encoding.md R53). -/
def operand32 (v : Value) : Value := lowField 32 v

end Sys2Proof.Machine
end

