-- ==== Sys2Proof/Machine/Ops.lean ====
section
/-! DEFINITION. Taking a fault (60_exceptions.md R200) and the reset that alone leaves it (R204); the
micro-operations a command is made of (00_scope.md R7): the sink and source transactions, `PushBit` and `PullBit`, the decompositions shared by the commands (41, 42, 44, 45), and
how a unit treats a command (30_encoding.md R61) and a reset (70_reset_and_hazards.md R220). -/

namespace Sys2Proof.Machine

/-- How a procedure of a unit with state `σ` ends. -/
inductive Micro (σ α : Type) where
  /-- it ran to its end with a result -/
  | done (a : α) (u : σ)
  /-- it raised a fault at some micro-operation; the state is that of this point -/
  | raised (c : Cause) (u : σ)
  /-- it waits for a reply that never comes (93_implementation_defined.md U3) -/
  | hung (u : σ)
  /-- it reached an increment of `byteCount` from `2^64 - 1`, outside the spec (U6) -/
  | overflow

/-- One procedure after another, the second only if the first ran to its end (00_scope.md R7: `raise` stops
the command at this point). -/
def Micro.bind {σ α β : Type} (m : Micro σ α) (f : α → σ → Micro σ β) : Micro σ β :=
  match m with
  | .done a u => f a u
  | .raised c u => .raised c u
  | .hung u => .hung u
  | .overflow => .overflow

/-- The same procedure with its result changed. -/
def Micro.map {σ α β : Type} (f : α → β) (m : Micro σ α) : Micro σ β :=
  m.bind fun a u => .done (f a) u

/-! ### Taking a fault, and the way out of it -/

/-- The registers R203 leaves unspecified take free values (93_implementation_defined.md U1; log entry 11). -/
def UnitState.scramble (id : UnitId) (u : UnitState) : UnitState :=
  { u with
    pendingBits := Config.freeCells id u.draws
    bitIndex := Config.freeIndex id u.draws
    byteCount := Config.freeCount id u.draws
    draws := u.draws + 1 }

/-- `raise F` (60_exceptions.md R200): the cause is latched, the response carries it with `RESULT` = 0, and
after an imprecise cause the accumulator is unspecified (R203). -/
def UnitState.raise (id : UnitId) (c : Cause) (u : UnitState) : UnitState :=
  let v := if c.imprecise then u.scramble id else u
  { v with fault := c.code }.answer c.code 0

/-- `Reset(BW)` or `Reset(BR)` (70_reset_and_hazards.md R220): the cells are left unspecified (log entry 2),
no response and no transaction. -/
def UnitState.resetEvent (id : UnitId) (u : UnitState) : UnitState :=
  { u with
    pendingBits := Config.freeCells id u.draws
    bitIndex := 0
    byteCount := 0
    fault := 0
    draws := u.draws + 1 }

/-! ### The byte streams -/

/-- `SinkPut(b)` (20_memory.md R31): on `ok` the byte is the last element of `OUT`; on `io_fail` it is not
and `IOFailure` is raised. A reply not scripted is `ok` (log entry 6). -/
def sinkPut (b : Byte) (w : Writer) : Micro Writer Unit :=
  match w.sink with
  | [] => .done () { w with out := w.out ++ [b] }
  | .ok :: rest => .done () { w with out := w.out ++ [b], sink := rest }
  | .ioFail :: rest => .raised .ioFailure { w with sink := rest }
  | .noReply :: _ => .hung w

/-- `SrcNext()` (20_memory.md R35): a byte is consumed, or `UnexpectedEndOfInput` or `IOFailure` is raised.
A reply not scripted is `end_of_data` (log entry 7). -/
def srcNext (r : Reader) : Micro Reader Byte :=
  match r.source with
  | [] => .raised .unexpectedEndOfInput r
  | .byte b :: rest => .done b { r with taken := r.taken ++ [b], source := rest }
  | .endOfData :: rest => .raised .unexpectedEndOfInput { r with source := rest }
  | .ioFail :: rest => .raised .ioFailure { r with source := rest }
  | .noReply :: _ => .hung r

/-- `OUT` or `IN` as bytes at addresses, byte number `k` at address `k` (20_memory.md R32, R36). -/
def streamCells (bytes : List Byte) : List Host.Cell := bytes.zipIdx.map fun p => (p.2, p.1)

/-- Addresses strictly rise: the canonical form of bytes at addresses. No byte is at an unlisted address,
so no entry can be a default. -/
def Memory.wf (cells : List Host.Cell) : Bool := decide (cells.Pairwise fun a b => a.1 < b.1)

/-! ### The writer's procedures -/

/-- `W.byteCount <- W.byteCount + 1`, defined below `2^64 - 1` only (10_state.md R14, U6; log entry 13). -/
def countWritten (w : Writer) : Micro Writer Unit :=
  if w.byteCount = BitVec.allOnes 64 then .overflow
  else .done () { w with byteCount := w.byteCount + 1 }

/-- `PushBit(b)` (41_writer_primitives.md R81): the eighth bit hands the byte over, then resets `bitIndex`,
then counts. -/
def pushBit (b : Bool) (w : Writer) : Micro Writer Unit :=
  let placed : Writer := { w with pendingBits := setCell w.pendingBits w.bitIndex b }
  if w.bitIndex.toNat < 7 then .done () { placed with bitIndex := w.bitIndex + 1 }
  else
    (sinkPut (assembleByte placed.pendingBits) placed).bind fun _ x =>
      countWritten { x with bitIndex := 0 }

/-- `for k = size-1 downto 0: PushBit(value[k])`: the last branch of `Write8`, and the flat form of every
write (41_writer_primitives.md R83, R90). -/
def pushDown : Nat → Value → Writer → Micro Writer Unit
  | 0, _, w => .done () w
  | k + 1, value, w => (pushBit (value.getLsbD k) w).bind fun _ x => pushDown k value x

/-- The fast path: a whole byte handed to the sink, the cells untouched (41_writer_primitives.md R84). -/
def emitWhole (value : Value) (w : Writer) : Micro Writer Unit :=
  (sinkPut (value.setWidth 8) w).bind fun _ x => countWritten x

/-- `Write8` where its chunk stays inside the current byte (41_writer_primitives.md R83): the fast path or the
bit-by-bit branch. Both inner calls of the split are of this kind (R85). -/
def write8Fits (size : Nat) (value : Value) (w : Writer) : Micro Writer Unit :=
  if size = 8 ∧ w.bitIndex = 0 then emitWhole value w else pushDown size value w

/-- `Write8(size, value)`, for sizes 1 to 8 (41_writer_primitives.md R83): the high-order `remaining` bits
complete the current byte and the low-order rest starts the next (R85). -/
def write8 (size : Nat) (value : Value) (w : Writer) : Micro Writer Unit :=
  let remaining := 8 - w.bitIndex.toNat
  if remaining < size then
    (write8Fits remaining (value >>> (size - remaining)) w).bind fun _ x =>
      write8Fits (size - remaining) value x
  else write8Fits size value w

/-- `for j = q-1 downto 0: prim(width, value >> (width * j))`: the full chunks, most significant first
(41_writer_primitives.md R88, 42_writer_values.md R102, R105). -/
def fullChunks (width : Nat) (prim : Nat → Value → Writer → Micro Writer Unit) :
    Nat → Value → Writer → Micro Writer Unit
  | 0, _, w => .done () w
  | j + 1, value, w =>
    (prim width (value >>> (width * j)) w).bind fun _ x => fullChunks width prim j value x

/-- The decomposition of `Write16`, `WriteIntUnsigned` and `WriteLongUnsigned`: the remainder chunk of
`size mod width` bits, absent when 0, then the full chunks (41_writer_primitives.md R88, 42_writer_values.md
R102, R105). -/
def decompose (width : Nat) (prim : Nat → Value → Writer → Micro Writer Unit)
    (size : Nat) (value : Value) (w : Writer) : Micro Writer Unit :=
  let q := size / width
  let rem := size % width
  if 0 < rem then
    (prim rem (value >>> (width * q)) w).bind fun _ x => fullChunks width prim q value x
  else fullChunks width prim q value w

/-- `Write16(size, value)`, for sizes 1 to 16 (41_writer_primitives.md R88). -/
def write16 (size : Nat) (value : Value) (w : Writer) : Micro Writer Unit :=
  decompose 8 write8 size value w

/-- `WriteIntUnsigned(size, value)`, for sizes 1 to 32 (42_writer_values.md R102). -/
def writeIntUnsigned (size : Nat) (value : Value) (w : Writer) : Micro Writer Unit :=
  decompose 16 write16 size value w

/-- `WriteLongUnsigned(size, value)`, for sizes 1 to 64: each chunk is the 31-bit slice `(value >> …)[30:0]`
(42_writer_values.md R105). -/
def writeLongUnsigned (size : Nat) (value : Value) (w : Writer) : Micro Writer Unit :=
  decompose 31 (fun n v => writeIntUnsigned n (lowField 31 v)) size value w

/-- The sign split: the bit `size-1` of the value, then the rest as unsigned (42_writer_values.md R101, R104). -/
def writeSigned (magnitude : Nat → Value → Writer → Micro Writer Unit)
    (size : Nat) (value : Value) (w : Writer) : Micro Writer Unit :=
  (write8 1 (value >>> (size - 1)) w).bind fun _ x =>
    if 1 < size then magnitude (size - 1) value x else .done () x

/-- `WriteIntSigned(size, value)` (42_writer_values.md R101). -/
def writeIntSigned (size : Nat) (value : Value) (w : Writer) : Micro Writer Unit :=
  writeSigned writeIntUnsigned size value w

/-- `WriteLongSigned(size, value)` (42_writer_values.md R104). -/
def writeLongSigned (size : Nat) (value : Value) (w : Writer) : Micro Writer Unit :=
  writeSigned writeLongUnsigned size value w

/-- The whole zero bytes of `WALIGN` (43_writer_align_status.md R120): until `byteCount mod n = 0`, which `n`
rounds reach at the latest. -/
def padBytes (n : Nat) : Nat → Value → Writer → Micro Writer Value
  | 0, bits, w => .done bits w
  | rounds + 1, bits, w =>
    if w.byteCount.toNat % n = 0 then .done bits w
    else (write8 8 0 w).bind fun _ x => padBytes n rounds (bits + 8) x

/-- `WALIGN(n)` for `n > 0`: the zero bits that complete a partial byte, then whole zero bytes; the result is
the number of bits padded (43_writer_align_status.md R120). -/
def alignWriter (n : Nat) (w : Writer) : Micro Writer Value :=
  if 0 < w.bitIndex.toNat then
    let k := 8 - w.bitIndex.toNat
    (write8 k 0 w).bind fun _ x => padBytes n n (BitVec.ofNat 64 k) x
  else padBytes n n 0 w

/-! ### The reader's procedures -/

/-- `R.byteCount <- R.byteCount + 1`, defined below `2^64 - 1` only (10_state.md R14, R17, U6; log entry 13). -/
def countRead (r : Reader) : Micro Reader Unit :=
  if r.byteCount = BitVec.allOnes 64 then .overflow
  else .done () { r with byteCount := r.byteCount + 1 }

/-- The fetch inside `PullBit`: on a byte boundary, and only there, a byte is taken and loaded
(44_reader_primitives.md R131). -/
def fetchByte (r : Reader) : Micro Reader Unit :=
  if r.bitIndex = 0 then
    (srcNext r).bind fun b x => .done () { x with pendingBits := cellsOfByte b }
  else .done () r

/-- `PullBit()` (44_reader_primitives.md R131): the byte is counted when its eighth bit is consumed. -/
def pullBit (r : Reader) : Micro Reader Bool :=
  (fetchByte r).bind fun _ x =>
    let bit := cellAt x.pendingBits x.bitIndex
    if x.bitIndex.toNat < 7 then .done bit { x with bitIndex := x.bitIndex + 1 }
    else (countRead { x with bitIndex := 0 }).map fun _ => bit

/-- `repeat size times: v = (v << 1) | PullBit()`: the last branch of `Read8`, and with `v = 0` the flat form
of every read (44_reader_primitives.md R132, R138). -/
def pullBits : Nat → Value → Reader → Micro Reader Value
  | 0, v, r => .done v r
  | k + 1, v, r => (pullBit r).bind fun b x => pullBits k ((v <<< 1) ||| bitValue b) x

/-- The reader's fast path: a whole byte taken, the cells untouched (44_reader_primitives.md R133). -/
def takeWhole (r : Reader) : Micro Reader Value :=
  (srcNext r).bind fun b x => (countRead x).map fun _ => b.setWidth 64

/-- `Read8` where its chunk stays inside the current byte (44_reader_primitives.md R132). -/
def read8Fits (size : Nat) (r : Reader) : Micro Reader Value :=
  if size = 8 ∧ r.bitIndex = 0 then takeWhole r else pullBits size 0 r

/-- `Read8(size)`, for sizes 1 to 8 (44_reader_primitives.md R132, the split R134). -/
def read8 (size : Nat) (r : Reader) : Micro Reader Value :=
  let remaining := 8 - r.bitIndex.toNat
  if remaining < size then
    (read8Fits remaining r).bind fun hi x =>
      (read8Fits (size - remaining) x).map fun lo => (hi <<< (size - remaining)) ||| lo
  else read8Fits size r

/-- `repeat q times: v = (v << width) | prim(width)` (44_reader_primitives.md R136, 45_reader_values.md R152,
R155). -/
def joinChunks (width : Nat) (prim : Nat → Reader → Micro Reader Value) :
    Nat → Value → Reader → Micro Reader Value
  | 0, v, r => .done v r
  | q + 1, v, r => (prim width r).bind fun c x => joinChunks width prim q ((v <<< width) ||| c) x

/-- The recomposition of `Read16`, `ReadIntUnsigned` and `ReadLongUnsigned`: the remainder chunk, absent when
0 bits wide, then the full chunks (44_reader_primitives.md R136, 45_reader_values.md R152, R155). -/
def recompose (width : Nat) (prim : Nat → Reader → Micro Reader Value)
    (size : Nat) (r : Reader) : Micro Reader Value :=
  let q := size / width
  let rem := size % width
  if 0 < rem then (prim rem r).bind fun v x => joinChunks width prim q v x
  else joinChunks width prim q 0 r

/-- `Read16(size)`, for sizes 1 to 16 (44_reader_primitives.md R136). -/
def read16 (size : Nat) (r : Reader) : Micro Reader Value := recompose 8 read8 size r

/-- `ReadIntUnsigned(size)`, for sizes 1 to 32 (45_reader_values.md R152). -/
def readIntUnsigned (size : Nat) (r : Reader) : Micro Reader Value := recompose 16 read16 size r

/-- `ReadLongUnsigned(size)`, for sizes 1 to 64 (45_reader_values.md R155). -/
def readLongUnsigned (size : Nat) (r : Reader) : Micro Reader Value :=
  recompose 31 readIntUnsigned size r

/-- The sign bit, then the remaining bits: a `size`-bit pattern (45_reader_values.md R151, R154). -/
def readSigned (magnitude : Nat → Reader → Micro Reader Value) (size : Nat) (r : Reader) :
    Micro Reader Value :=
  (read8 1 r).bind fun s x =>
    if 1 < size then (magnitude (size - 1) x).map fun m => (s <<< (size - 1)) ||| m
    else .done s x

/-- `ReadIntSigned(size)` (45_reader_values.md R151). -/
def readIntSigned (size : Nat) (r : Reader) : Micro Reader Value := readSigned readIntUnsigned size r

/-- `ReadLongSigned(size)` (45_reader_values.md R154). -/
def readLongSigned (size : Nat) (r : Reader) : Micro Reader Value := readSigned readLongUnsigned size r

/-- The whole bytes `RALIGN` fetches and discards unchecked, until `byteCount mod n = 0`
(46_reader_align_status.md R170). -/
def skipBytes (n : Nat) : Nat → Value → Reader → Micro Reader Value
  | 0, bits, r => .done bits r
  | rounds + 1, bits, r =>
    if r.byteCount.toNat % n = 0 then .done bits r
    else (read8 8 r).bind fun _ x => skipBytes n rounds (bits + 8) x

/-- `RALIGN(n)` for `n > 0`: the result is the number of bits consumed (46_reader_align_status.md R170). -/
def alignReader (n : Nat) (r : Reader) : Micro Reader Value :=
  if 0 < r.bitIndex.toNat then
    let k := 8 - r.bitIndex.toNat
    (read8 k r).bind fun _ x => skipBytes n n (BitVec.ofNat 64 k) x
  else skipBytes n n 0 r

/-! ### How a unit treats a command, an illegal word and a reset -/

/-- The unit `BW` with its registers changed. -/
def State.onWriter (f : UnitState → UnitState) (s : State) : State :=
  { s with w := { s.w with toUnitState := f s.w.toUnitState } }

/-- The unit `BR` with its registers changed. -/
def State.onReader (f : UnitState → UnitState) (s : State) : State :=
  { s with r := { s.r with toUnitState := f s.r.toUnitState } }

/-- How a procedure of `BW` ends the command: respond, raise (60_exceptions.md R200), stay inside it (U3), or
leave the spec (U6). -/
def finishWriter (s : State) : Micro Writer Value → Host.Outcome State Fault Refusal
  | .done v w => .next (State.onWriter (UnitState.respond v) { s with w := w })
  | .raised c w => .next (State.onWriter (UnitState.raise .bw c) { s with w := w })
  | .hung w => .next { s with w := { w with busy := true } }
  | .overflow => .refused .byteCountOverflow

/-- How a procedure of `BR` ends the command. -/
def finishReader (s : State) : Micro Reader Value → Host.Outcome State Fault Refusal
  | .done v r => .next (State.onReader (UnitState.respond v) { s with r := r })
  | .raised c r => .next (State.onReader (UnitState.raise .br c) { s with r := r })
  | .hung r => .next { s with r := { r with busy := true } }
  | .overflow => .refused .byteCountOverflow

/-- A command of `BW` other than a status read, in the order of 30_encoding.md R61: a unit inside a command
does not accept the word (R51); a faulted one refuses it; then the operands are validated; then the
procedure runs. -/
def serveWriter {α : Type} (gate : Except Cause α) (body : α → Writer → Micro Writer Value)
    (s : State) : Host.Outcome State Fault Refusal :=
  if s.w.busy then .next s
  else if s.w.fault ≠ 0 then .next (State.onWriter UnitState.refuse s)
  else
    match gate with
    | .error c => .next (State.onWriter (UnitState.raise .bw c) s)
    | .ok a => finishWriter s (body a s.w)

/-- A command of `BR` other than a status read (30_encoding.md R61). -/
def serveReader {α : Type} (gate : Except Cause α) (body : α → Reader → Micro Reader Value)
    (s : State) : Host.Outcome State Fault Refusal :=
  if s.r.busy then .next s
  else if s.r.fault ≠ 0 then .next (State.onReader UnitState.refuse s)
  else
    match gate with
    | .error c => .next (State.onReader (UnitState.raise .br c) s)
    | .ok a => finishReader s (body a s.r)

/-- A status read of `BW`: answered whether faulted or not (30_encoding.md R61 step 1), state unchanged. -/
def readWriter (register : UnitState → Value) (s : State) : Host.Outcome State Fault Refusal :=
  if s.w.busy then .next s
  else .next (State.onWriter (fun u => u.respond (register u)) s)

/-- A status read of `BR` (30_encoding.md R61 step 1). -/
def readReader (register : UnitState → Value) (s : State) : Host.Outcome State Fault Refusal :=
  if s.r.busy then .next s
  else .next (State.onReader (fun u => u.respond (register u)) s)

/-- `byteCount` as a result (30_encoding.md R54). -/
def countValue (u : UnitState) : Value := u.byteCount

/-- `zext_64(bitIndex)` (30_encoding.md R54). -/
def indexValue (u : UnitState) : Value := u.bitIndex.setWidth 64

/-- `zext_64(fault)` (30_encoding.md R54). -/
def faultValue (u : UnitState) : Value := u.fault.setWidth 64

/-- What a unit does with a word that is illegal for it: the refusal of a faulted unit comes first, then
`IllegalCommand` (30_encoding.md R61 steps 1 and 2, 60_exceptions.md R199, R202). -/
def UnitState.reject (id : UnitId) (u : UnitState) : UnitState :=
  if u.busy then u else if u.fault ≠ 0 then u.refuse else u.raise id .illegalCommand

/-- An illegal word presented to a unit. -/
def rejectWord (id : UnitId) (s : State) : Host.Outcome State Fault Refusal :=
  match id with
  | .bw => .next (State.onWriter (UnitState.reject .bw) s)
  | .br => .next (State.onReader (UnitState.reject .br) s)

/-- `Reset(BW)`: the registers of R220, and `OUT` counted anew (20_memory.md R30). -/
def Writer.resetEvent (w : Writer) : Writer :=
  { w with toUnitState := w.toUnitState.resetEvent .bw, out := [] }

/-- `Reset(BR)`: the registers of R220, and `IN` counted anew (20_memory.md R30, R36). -/
def Reader.resetEvent (r : Reader) : Reader :=
  { r with toUnitState := r.toUnitState.resetEvent .br, taken := [] }

/-- A reset event of one unit (70_reset_and_hazards.md R220, R221); while a command is in progress it is
outside the spec (R222, U4; log entry 12). -/
def resetUnit (id : UnitId) (s : State) : Host.Outcome State Fault Refusal :=
  match id with
  | .bw => if s.w.busy then .refused .resetDuringCommand else .next { s with w := s.w.resetEvent }
  | .br => if s.r.busy then .refused .resetDuringCommand else .next { s with r := s.r.resetEvent }

end Sys2Proof.Machine
end

