-- ==== Sys2Proof/Machine/ReaderPrimitives.lean ====
section
/-! DEFINITION. The meanings of the reader primitives `R8` and `R16` (44_reader_primitives.md). -/

namespace Sys2Proof.Machine

/-- `R8 size` (44_reader_primitives.md R135). -/
def execR8 (size : Int) (s : State) : Host.Outcome State Fault Refusal :=
  serveReader (requireValidSize true exponentByte size) (fun n r => read8 n.toNat r) s

/-- `R16 size` (44_reader_primitives.md R137). -/
def execR16 (size : Int) (s : State) : Host.Outcome State Fault Refusal :=
  serveReader (requireValidSize true exponentShort size) (fun n r => read16 n.toNat r) s

end Sys2Proof.Machine
end

