-- ==== Sys2Proof/Machine/ReaderStatus.lean ====
section
/-! DEFINITION. The meanings of `RALIGN`, `RCOUNT`, `RINDEX`, `RSTATUS` (46_reader_align_status.md). -/

namespace Sys2Proof.Machine

/-- `RALIGN byteBoundary` (46_reader_align_status.md R170). -/
def execRalign (byteBoundary : Int) (s : State) : Host.Outcome State Fault Refusal :=
  serveReader (requirePositive byteBoundary) (fun n r => alignReader n.toNat r) s

/-- `RCOUNT` (46_reader_align_status.md R172). -/
def execRcount (s : State) : Host.Outcome State Fault Refusal := readReader countValue s

/-- `RINDEX` (46_reader_align_status.md R173). -/
def execRindex (s : State) : Host.Outcome State Fault Refusal := readReader indexValue s

/-- `RSTATUS` (46_reader_align_status.md R174). -/
def execRstatus (s : State) : Host.Outcome State Fault Refusal := readReader faultValue s

end Sys2Proof.Machine
end

