-- ==== Sys2Proof/Machine/ReaderValues.lean ====
section
/-! DEFINITION. The meanings of the reader value commands `RINT`, `RLONG`, `RBOOL`, `RCHAR`, `RFLOAT`, `RDOUBLE`
(45_reader_values.md). -/

namespace Sys2Proof.Machine

/-- `RINT` with a legal size: zero- or sign-extended to 64 bits (45_reader_values.md R150, R160). -/
def readInt (unsigned : Bool) (size : Nat) (r : Reader) : Micro Reader Value :=
  if unsigned then readIntUnsigned size r else (readIntSigned size r).map (signExtendFrom size)

/-- `RLONG` with a legal size: zero- or sign-extended to 64 bits (45_reader_values.md R153, R160). -/
def readLong (unsigned : Bool) (size : Nat) (r : Reader) : Micro Reader Value :=
  if unsigned then readLongUnsigned size r else (readLongSigned size r).map (signExtendFrom size)

/-- `RINT.U size` and `RINT.S size` (45_reader_values.md R150). -/
def execRint (unsigned : Bool) (size : Int) (s : State) : Host.Outcome State Fault Refusal :=
  serveReader (requireValidSize unsigned exponentInt size) (fun n r => readInt unsigned n.toNat r) s

/-- `RLONG.U size` and `RLONG.S size` (45_reader_values.md R153). -/
def execRlong (unsigned : Bool) (size : Int) (s : State) : Host.Outcome State Fault Refusal :=
  serveReader (requireValidSize unsigned exponentLong size) (fun n r => readLong unsigned n.toNat r) s

/-- `RBOOL` (45_reader_values.md R156). -/
def execRbool (s : State) : Host.Outcome State Fault Refusal := serveReader noGate (fun _ r => read8 1 r) s

/-- `RCHAR size` (45_reader_values.md R157). -/
def execRchar (size : Int) (s : State) : Host.Outcome State Fault Refusal :=
  serveReader (requireValidSize true exponentShort size) (fun n r => read16 n.toNat r) s

/-- `RFLOAT`: the 32-bit pattern, zero-extended (45_reader_values.md R158). -/
def execRfloat (s : State) : Host.Outcome State Fault Refusal :=
  serveReader noGate (fun _ r => readIntSigned 32 r) s

/-- `RDOUBLE`: the 64-bit pattern (45_reader_values.md R159). -/
def execRdouble (s : State) : Host.Outcome State Fault Refusal :=
  serveReader noGate (fun _ r => readLongSigned 64 r) s

end Sys2Proof.Machine
end

