-- ==== Sys2Proof/Machine/WriterPrimitives.lean ====
section
/-! DEFINITION. The meanings of the writer primitives `W8` and `W16` (41_writer_primitives.md). -/

namespace Sys2Proof.Machine

/-- `W8 size, value` (41_writer_primitives.md R87). -/
def execW8 (size : Int) (value : Value) (s : State) : Host.Outcome State Fault Refusal :=
  serveWriter (requireValidSize true exponentByte size)
    (fun n w => (write8 n.toNat (operand8 value) w).map fun _ => 0) s

/-- `W16 size, value` (41_writer_primitives.md R89). -/
def execW16 (size : Int) (value : Value) (s : State) : Host.Outcome State Fault Refusal :=
  serveWriter (requireValidSize true exponentShort size)
    (fun n w => (write16 n.toNat (operand16 value) w).map fun _ => 0) s

end Sys2Proof.Machine
end

