-- ==== Sys2Proof/Machine/WriterStatus.lean ====
section
/-! DEFINITION. The meanings of `WALIGN`, `WCOUNT`, `WINDEX`, `WSTATUS` (43_writer_align_status.md). -/

namespace Sys2Proof.Machine

/-- `WALIGN byteBoundary` (43_writer_align_status.md R120). -/
def execWalign (byteBoundary : Int) (s : State) : Host.Outcome State Fault Refusal :=
  serveWriter (requirePositive byteBoundary) (fun n w => alignWriter n.toNat w) s

/-- `WCOUNT` (43_writer_align_status.md R122). -/
def execWcount (s : State) : Host.Outcome State Fault Refusal := readWriter countValue s

/-- `WINDEX` (43_writer_align_status.md R123). -/
def execWindex (s : State) : Host.Outcome State Fault Refusal := readWriter indexValue s

/-- `WSTATUS` (43_writer_align_status.md R124). -/
def execWstatus (s : State) : Host.Outcome State Fault Refusal := readWriter faultValue s

end Sys2Proof.Machine
end

