-- ==== Sys2Proof/Machine/WriterValues.lean ====
section
/-! DEFINITION. The meanings of the writer value commands `WINT`, `WLONG`, `WBOOL`, `WCHAR`, `WFLOAT`, `WDOUBLE`
(42_writer_values.md). -/

namespace Sys2Proof.Machine

/-- `WriteInt(unsigned, size, value)` (42_writer_values.md R100). -/
def writeInt (unsigned : Bool) (size : Nat) (value : Value) (w : Writer) : Micro Writer Unit :=
  if unsigned then writeIntUnsigned size value w else writeIntSigned size value w

/-- The two forms of `WLONG` (42_writer_values.md R103). -/
def writeLong (unsigned : Bool) (size : Nat) (value : Value) (w : Writer) : Micro Writer Unit :=
  if unsigned then writeLongUnsigned size value w else writeLongSigned size value w

/-- `WINT.U size, value` and `WINT.S size, value` (42_writer_values.md R100). -/
def execWint (unsigned : Bool) (size : Int) (value : Value) (s : State) :
    Host.Outcome State Fault Refusal :=
  serveWriter (requireValidSize unsigned exponentInt size)
    (fun n w => (writeInt unsigned n.toNat (operand32 value) w).map fun _ => 0) s

/-- `WLONG.U size, value` and `WLONG.S size, value` (42_writer_values.md R103). -/
def execWlong (unsigned : Bool) (size : Int) (value : Value) (s : State) :
    Host.Outcome State Fault Refusal :=
  serveWriter (requireValidSize unsigned exponentLong size)
    (fun n w => (writeLong unsigned n.toNat value w).map fun _ => 0) s

/-- `WBOOL value` (42_writer_values.md R106). -/
def execWbool (value : Value) (s : State) : Host.Outcome State Fault Refusal :=
  serveWriter noGate (fun _ w => (write8 1 (operandBit value) w).map fun _ => 0) s

/-- `WCHAR size, value`: always unsigned (42_writer_values.md R107). -/
def execWchar (size : Int) (value : Value) (s : State) : Host.Outcome State Fault Refusal :=
  serveWriter (requireValidSize true exponentShort size)
    (fun n w => (write16 n.toNat (operand16 value) w).map fun _ => 0) s

/-- `WFLOAT value`: the 32-bit pattern by the signed decomposition, no gate (42_writer_values.md R108, C3). -/
def execWfloat (value : Value) (s : State) : Host.Outcome State Fault Refusal :=
  serveWriter noGate (fun _ w => (writeIntSigned 32 (operand32 value) w).map fun _ => 0) s

/-- `WDOUBLE value`: the 64-bit pattern by the signed decomposition, no gate (42_writer_values.md R109, C3). -/
def execWdouble (value : Value) (s : State) : Host.Outcome State Fault Refusal :=
  serveWriter noGate (fun _ w => (writeLongSigned 64 value w).map fun _ => 0) s

end Sys2Proof.Machine
end

