-- ==== Sys2Proof/Syntax.lean ====
section
/-! DEFINITION. The abstract commands of 30_encoding.md R50: one constructor per row of
spec/opcode_table.json, with the operands R53 gives it. -/

namespace Sys2Proof

/-- A command. `size` and `byteBoundary` are the integers `signed_32(ARG)` (30_encoding.md R57), `value`
is the raw 64-bit `VALUE` field, its ignored high bits included (R53, D8), and `unsigned` is the
field `U` (1 = unsigned). -/
inductive Instr where
  | w8 (size : Int) (value : Value)
  | w16 (size : Int) (value : Value)
  | wint (unsigned : Bool) (size : Int) (value : Value)
  | wlong (unsigned : Bool) (size : Int) (value : Value)
  | wbool (value : Value)
  | wchar (size : Int) (value : Value)
  | wfloat (value : Value)
  | wdouble (value : Value)
  | walign (byteBoundary : Int)
  | wcount
  | windex
  | wstatus
  | r8 (size : Int)
  | r16 (size : Int)
  | rint (unsigned : Bool) (size : Int)
  | rlong (unsigned : Bool) (size : Int)
  | rbool
  | rchar (size : Int)
  | rfloat
  | rdouble
  | ralign (byteBoundary : Int)
  | rcount
  | rindex
  | rstatus
  deriving DecidableEq, Repr

end Sys2Proof
end

