-- ==== Sys2Proof/Machine/Dispatch.lean ====
section
/-! DEFINITION. Every command to its meaning. -/

namespace Sys2Proof.Machine

/-- The command presented to its own unit (30_encoding.md R61). -/
def exec (i : Instr) (s : State) : Host.Outcome State Fault Refusal :=
  match i with
  | .w8 size value => Sys2Proof.Machine.execW8 size value s
  | .w16 size value => Sys2Proof.Machine.execW16 size value s
  | .wint unsigned size value => Sys2Proof.Machine.execWint unsigned size value s
  | .wlong unsigned size value => Sys2Proof.Machine.execWlong unsigned size value s
  | .wbool value => Sys2Proof.Machine.execWbool value s
  | .wchar size value => Sys2Proof.Machine.execWchar size value s
  | .wfloat value => Sys2Proof.Machine.execWfloat value s
  | .wdouble value => Sys2Proof.Machine.execWdouble value s
  | .walign byteBoundary => Sys2Proof.Machine.execWalign byteBoundary s
  | .wcount => Sys2Proof.Machine.execWcount s
  | .windex => Sys2Proof.Machine.execWindex s
  | .wstatus => Sys2Proof.Machine.execWstatus s
  | .r8 size => Sys2Proof.Machine.execR8 size s
  | .r16 size => Sys2Proof.Machine.execR16 size s
  | .rint unsigned size => Sys2Proof.Machine.execRint unsigned size s
  | .rlong unsigned size => Sys2Proof.Machine.execRlong unsigned size s
  | .rbool => Sys2Proof.Machine.execRbool s
  | .rchar size => Sys2Proof.Machine.execRchar size s
  | .rfloat => Sys2Proof.Machine.execRfloat s
  | .rdouble => Sys2Proof.Machine.execRdouble s
  | .ralign byteBoundary => Sys2Proof.Machine.execRalign byteBoundary s
  | .rcount => Sys2Proof.Machine.execRcount s
  | .rindex => Sys2Proof.Machine.execRindex s
  | .rstatus => Sys2Proof.Machine.execRstatus s

end Sys2Proof.Machine
end

