-- ==== Sys2Proof/WellFormed.lean ====
section
/-! DEFINITION. Which abstract commands a command word can carry: `ARG` holds a 32-bit two's-complement
integer (00_scope.md R4, 30_encoding.md R57). A size or boundary outside its LEGAL range is still
well formed: it is a valid encoding that fails validation (R57). -/

namespace Sys2Proof

/-- The integer fits the 32-bit `ARG` field: it lies in [-2^31, 2^31-1] (30_encoding.md R57). -/
def argInRange (a : Int) : Bool := decide (-2 ^ 31 ≤ a) && decide (a < 2 ^ 31)

/-- The command can be encoded: its `size` or `byteBoundary`, if it has one, fits `ARG`. -/
def Instr.wellFormed : Instr → Bool
  | .w8 size _ => argInRange size
  | .w16 size _ => argInRange size
  | .wint _ size _ => argInRange size
  | .wlong _ size _ => argInRange size
  | .wbool _ => true
  | .wchar size _ => argInRange size
  | .wfloat _ => true
  | .wdouble _ => true
  | .walign n => argInRange n
  | .wcount => true
  | .windex => true
  | .wstatus => true
  | .r8 size => argInRange size
  | .r16 size => argInRange size
  | .rint _ size => argInRange size
  | .rlong _ size => argInRange size
  | .rbool => true
  | .rchar size => argInRange size
  | .rfloat => true
  | .rdouble => true
  | .ralign n => argInRange n
  | .rcount => true
  | .rindex => true
  | .rstatus => true

end Sys2Proof
end

