-- ==== Sys2Proof/Decode.lean ====
section
/-! DEFINITION. The command word: its fields (30_encoding.md R52), the opcode map (R55), which fields a
command uses (R53), the decoder, total on every word and refusing by name (R56), the decoder of one
unit's channel (R56, R62), and the encoder. -/

namespace Sys2Proof

/-- The 24 opcodes by mnemonic (30_encoding.md R55). -/
inductive Opcode where
  | w8 | w16 | wint | wlong | wbool | wchar | wfloat | wdouble | walign | wcount | windex | wstatus
  | r8 | r16 | rint | rlong | rbool | rchar | rfloat | rdouble | ralign | rcount | rindex | rstatus
  deriving DecidableEq, Repr

/-- The `OP` byte of each command: the table of 30_encoding.md R55. -/
def Opcode.byte : Opcode → BitVec 8
  | .w8 => 0x01#8
  | .w16 => 0x02#8
  | .wint => 0x03#8
  | .wlong => 0x04#8
  | .wbool => 0x05#8
  | .wchar => 0x06#8
  | .wfloat => 0x07#8
  | .wdouble => 0x08#8
  | .walign => 0x09#8
  | .wcount => 0x0A#8
  | .windex => 0x0B#8
  | .wstatus => 0x0C#8
  | .r8 => 0x81#8
  | .r16 => 0x82#8
  | .rint => 0x83#8
  | .rlong => 0x84#8
  | .rbool => 0x85#8
  | .rchar => 0x86#8
  | .rfloat => 0x87#8
  | .rdouble => 0x88#8
  | .ralign => 0x89#8
  | .rcount => 0x8A#8
  | .rindex => 0x8B#8
  | .rstatus => 0x8C#8

/-- The command an `OP` byte selects, none for the bytes R55 does not list (30_encoding.md R55, R56). -/
def Opcode.ofByte (b : BitVec 8) : Option Opcode :=
  match b.toNat with
  | 0x01 => some .w8
  | 0x02 => some .w16
  | 0x03 => some .wint
  | 0x04 => some .wlong
  | 0x05 => some .wbool
  | 0x06 => some .wchar
  | 0x07 => some .wfloat
  | 0x08 => some .wdouble
  | 0x09 => some .walign
  | 0x0A => some .wcount
  | 0x0B => some .windex
  | 0x0C => some .wstatus
  | 0x81 => some .r8
  | 0x82 => some .r16
  | 0x83 => some .rint
  | 0x84 => some .rlong
  | 0x85 => some .rbool
  | 0x86 => some .rchar
  | 0x87 => some .rfloat
  | 0x88 => some .rdouble
  | 0x89 => some .ralign
  | 0x8A => some .rcount
  | 0x8B => some .rindex
  | 0x8C => some .rstatus
  | _ => none

/-- The unit bit 7 of an `OP` byte selects: 0 for `BW`, 1 for `BR` (30_encoding.md R55, R62). -/
def unitOfByte (b : BitVec 8) : UnitId := if b.getLsbD 7 then .br else .bw

/-- The unit a command belongs to (30_encoding.md R55). -/
def Opcode.unit (o : Opcode) : UnitId := unitOfByte o.byte

/-- The column `U` of 30_encoding.md R53. -/
def Opcode.usesU : Opcode → Bool
  | .wint | .wlong | .rint | .rlong => true
  | .w8 | .w16 | .wbool | .wchar | .wfloat | .wdouble | .walign | .wcount | .windex | .wstatus
  | .r8 | .r16 | .rbool | .rchar | .rfloat | .rdouble | .ralign | .rcount | .rindex | .rstatus => false

/-- The column `ARG` of 30_encoding.md R53. -/
def Opcode.usesArg : Opcode → Bool
  | .w8 | .w16 | .wint | .wlong | .wchar | .walign
  | .r8 | .r16 | .rint | .rlong | .rchar | .ralign => true
  | .wbool | .wfloat | .wdouble | .wcount | .windex | .wstatus
  | .rbool | .rfloat | .rdouble | .rcount | .rindex | .rstatus => false

/-- The column `VALUE` of 30_encoding.md R53. -/
def Opcode.usesValue : Opcode → Bool
  | .w8 | .w16 | .wint | .wlong | .wbool | .wchar | .wfloat | .wdouble => true
  | .walign | .wcount | .windex | .wstatus
  | .r8 | .r16 | .rint | .rlong | .rbool | .rchar | .rfloat | .rdouble | .ralign
  | .rcount | .rindex | .rstatus => false

/-- The six fields of a command word (30_encoding.md R52). -/
structure Fields where
  /-- bits 127:120 -/
  op : BitVec 8
  /-- bits 119:113, reserved -/
  rsv1 : BitVec 7
  /-- bit 112 -/
  u : Bool
  /-- bits 111:96, reserved -/
  rsv2 : BitVec 16
  /-- bits 95:64 -/
  arg : BitVec 32
  /-- bits 63:0 -/
  value : BitVec 64
  deriving DecidableEq, Repr

/-- The fields of a word, by the bit numbers of 30_encoding.md R52. -/
def fieldsOf (w : CommandWord) : Fields where
  op := w.extractLsb' 120 8
  rsv1 := w.extractLsb' 113 7
  u := w.getLsbD 112
  rsv2 := w.extractLsb' 96 16
  arg := w.extractLsb' 64 32
  value := w.extractLsb' 0 64

/-- The word with the given fields, most significant first (30_encoding.md R52). -/
def wordOf (f : Fields) : CommandWord :=
  f.op ++ f.rsv1 ++ BitVec.ofBool f.u ++ f.rsv2 ++ f.arg ++ f.value

/-- Why a word is illegal for the unit it was presented to: the cases of 30_encoding.md R56. -/
inductive DecodeError where
  /-- `OP` is no opcode of R55 -/
  | unknownOpcode
  /-- `OP` is an opcode of the other unit -/
  | otherUnit
  /-- `RSV1` is not 0 -/
  | reserved1
  /-- `RSV2` is not 0 -/
  | reserved2
  /-- `U` is not 0 and the command does not use it -/
  | unusedU
  /-- `ARG` is not 0 and the command does not use it -/
  | unusedArg
  /-- `VALUE` is not 0 and the command does not use it -/
  | unusedValue
  deriving DecidableEq, Repr

/-- The command of an opcode and the operand fields; `ARG` is read as `signed_32(ARG)` (30_encoding.md R57). -/
def buildInstr (o : Opcode) (f : Fields) : Instr :=
  match o with
  | .w8 => .w8 f.arg.toInt f.value
  | .w16 => .w16 f.arg.toInt f.value
  | .wint => .wint f.u f.arg.toInt f.value
  | .wlong => .wlong f.u f.arg.toInt f.value
  | .wbool => .wbool f.value
  | .wchar => .wchar f.arg.toInt f.value
  | .wfloat => .wfloat f.value
  | .wdouble => .wdouble f.value
  | .walign => .walign f.arg.toInt
  | .wcount => .wcount
  | .windex => .windex
  | .wstatus => .wstatus
  | .r8 => .r8 f.arg.toInt
  | .r16 => .r16 f.arg.toInt
  | .rint => .rint f.u f.arg.toInt
  | .rlong => .rlong f.u f.arg.toInt
  | .rbool => .rbool
  | .rchar => .rchar f.arg.toInt
  | .rfloat => .rfloat
  | .rdouble => .rdouble
  | .ralign => .ralign f.arg.toInt
  | .rcount => .rcount
  | .rindex => .rindex
  | .rstatus => .rstatus

/-- The first clause of 30_encoding.md R56 a word with these fields breaks, if any, the unit apart. -/
def fieldsError (o : Opcode) (f : Fields) : Option DecodeError :=
  if f.rsv1 ≠ 0 then some .reserved1
  else if f.rsv2 ≠ 0 then some .reserved2
  else if f.u = true ∧ o.usesU = false then some .unusedU
  else if f.arg ≠ 0 ∧ o.usesArg = false then some .unusedArg
  else if f.value ≠ 0 ∧ o.usesValue = false then some .unusedValue
  else none

/-- The command a word carries, or why it carries none (30_encoding.md R55, R56). -/
def decode (w : CommandWord) : Except DecodeError Instr :=
  match Opcode.ofByte (fieldsOf w).op with
  | none => .error .unknownOpcode
  | some o =>
    match fieldsError o (fieldsOf w) with
    | some e => .error e
    | none => .ok (buildInstr o (fieldsOf w))

/-- The opcode of a command. -/
def Instr.opcode : Instr → Opcode
  | .w8 _ _ => .w8
  | .w16 _ _ => .w16
  | .wint _ _ _ => .wint
  | .wlong _ _ _ => .wlong
  | .wbool _ => .wbool
  | .wchar _ _ => .wchar
  | .wfloat _ => .wfloat
  | .wdouble _ => .wdouble
  | .walign _ => .walign
  | .wcount => .wcount
  | .windex => .windex
  | .wstatus => .wstatus
  | .r8 _ => .r8
  | .r16 _ => .r16
  | .rint _ _ => .rint
  | .rlong _ _ => .rlong
  | .rbool => .rbool
  | .rchar _ => .rchar
  | .rfloat => .rfloat
  | .rdouble => .rdouble
  | .ralign _ => .ralign
  | .rcount => .rcount
  | .rindex => .rindex
  | .rstatus => .rstatus

/-- The unit a command belongs to. -/
def Instr.unit (i : Instr) : UnitId := i.opcode.unit

/-- The status reads, the commands a faulted unit still answers (30_encoding.md R61 step 1). -/
def Instr.isStatusRead (i : Instr) : Bool :=
  match i.opcode with
  | .wcount | .windex | .wstatus | .rcount | .rindex | .rstatus => true
  | .w8 | .w16 | .wint | .wlong | .wbool | .wchar | .wfloat | .wdouble | .walign
  | .r8 | .r16 | .rint | .rlong | .rbool | .rchar | .rfloat | .rdouble | .ralign => false

/-- The command a unit takes from a word on its own channel: a word of the other unit is illegal for it
(30_encoding.md R56, R62). -/
def decodeFor (u : UnitId) (w : CommandWord) : Except DecodeError Instr :=
  match decode w with
  | .error e => .error e
  | .ok i => if i.unit = u then .ok i else .error .otherUnit

/-- The field `U` of a command, 0 where unused (30_encoding.md R53). -/
def Instr.uField : Instr → Bool
  | .wint unsigned _ _ => unsigned
  | .wlong unsigned _ _ => unsigned
  | .rint unsigned _ => unsigned
  | .rlong unsigned _ => unsigned
  | .w8 _ _ | .w16 _ _ | .wbool _ | .wchar _ _ | .wfloat _ | .wdouble _ | .walign _
  | .wcount | .windex | .wstatus | .r8 _ | .r16 _ | .rbool | .rchar _ | .rfloat | .rdouble
  | .ralign _ | .rcount | .rindex | .rstatus => false

/-- The field `ARG` of a command, as an integer, 0 where unused (30_encoding.md R53, R57). -/
def Instr.argField : Instr → Int
  | .w8 size _ => size
  | .w16 size _ => size
  | .wint _ size _ => size
  | .wlong _ size _ => size
  | .wchar size _ => size
  | .walign n => n
  | .r8 size => size
  | .r16 size => size
  | .rint _ size => size
  | .rlong _ size => size
  | .rchar size => size
  | .ralign n => n
  | .wbool _ | .wfloat _ | .wdouble _ | .wcount | .windex | .wstatus | .rbool | .rfloat | .rdouble
  | .rcount | .rindex | .rstatus => 0

/-- The field `VALUE` of a command, 0 where unused (30_encoding.md R53). -/
def Instr.valueField : Instr → Value
  | .w8 _ value => value
  | .w16 _ value => value
  | .wint _ _ value => value
  | .wlong _ _ value => value
  | .wbool value => value
  | .wchar _ value => value
  | .wfloat value => value
  | .wdouble value => value
  | .walign _ | .wcount | .windex | .wstatus | .r8 _ | .r16 _ | .rint _ _ | .rlong _ _ | .rbool
  | .rchar _ | .rfloat | .rdouble | .ralign _ | .rcount | .rindex | .rstatus => 0

/-- The fields of a command's word: reserved fields 0 (30_encoding.md R52, R53). -/
def Instr.fields (i : Instr) : Fields where
  op := i.opcode.byte
  rsv1 := 0
  u := i.uField
  rsv2 := 0
  arg := BitVec.ofInt 32 i.argField
  value := i.valueField

/-- The word of a well-formed command (30_encoding.md R52, R53, R55). -/
def encode (i : Instr) : CommandWord := wordOf i.fields

/-- The command the decoder reads from a word numbered as spec/opcode_table.json numbers it: the command
word is one 128-bit word (30_encoding.md R52, R58), so bit 0 is its least significant bit. -/
def decodeTableWord (nbits w : Nat) : Option Instr :=
  if w < 2 ^ nbits ∧ w < 2 ^ 128 then
    match decode (BitVec.ofNat 128 w) with
    | .ok i => some i
    | .error _ => none
  else none

end Sys2Proof
end

