-- ==== Sys2Proof/Machine/Fetch.lean ====
section
/-! DEFINITION. What the machine does next: the block fetches no instructions (10_state.md R18), its hosts
present command words and resets one at a time (30_encoding.md R51, 70_reset_and_hazards.md R220), and a
word is decoded by the unit that receives it (30_encoding.md R62). -/

namespace Sys2Proof.Machine

/-- What the next event asks of the machine, with the state after the event is taken off the list. -/
inductive Fetched where
  /-- nothing is presented: both units stay idle (60_exceptions.md R210) -/
  | idle
  /-- a word that is a command of the unit it was presented to -/
  | run (i : Instr) (s : State)
  /-- a word that is illegal for the unit it was presented to -/
  | illegal (unit : UnitId) (s : State)
  /-- a reset of one unit -/
  | reset (unit : UnitId) (s : State)
  deriving DecidableEq, Repr

/-- The next event of `State.host`, decoded by the unit it is for. -/
def fetch (s : State) : Fetched :=
  match s.host with
  | [] => .idle
  | .reset u :: rest => .reset u { s with host := rest }
  | .command u word :: rest =>
    match decodeFor u word with
    | .ok i => .run i { s with host := rest }
    | .error _ => .illegal u { s with host := rest }

/-- The word as the host of the unit that bit 7 of its `OP` selects would present it (30_encoding.md R55, R62). -/
def hostEventOf (word : CommandWord) : HostEvent := .command (unitOfByte (fieldsOf word).op) word

/-- The state with that word presented next. -/
def presentNext (word : CommandWord) (s : State) : State := { s with host := hostEventOf word :: s.host }

end Sys2Proof.Machine
end

