-- ==== Sys2Proof/Machine/Step.lean ====
section
/-! DEFINITION. One step: the next event of the hosts, taken to its end (30_encoding.md R51: one command at
a time, run to its response before the next). -/

namespace Sys2Proof.Machine

/-- One event: a command runs to its end, an illegal word is rejected, a reset happens; with nothing
presented the machine idles. -/
def step (s : State) : Host.Outcome State Fault Refusal :=
  match fetch s with
  | .idle => .next s
  | .run i t => exec i t
  | .illegal u t => rejectWord u t
  | .reset u t => resetUnit u t

/-- The state with one instruction word, numbered as spec/opcode_table.json numbers it, presented next to
the unit it belongs to. Every command is one 128-bit word (30_encoding.md R58). -/
def State.withFetchWord (s : State) (nbits w : Nat) : State :=
  presentNext (BitVec.ofNat 128 (w % 2 ^ nbits)) s

end Sys2Proof.Machine
end

