-- ==== Sys2Proof/Machine/Object.lean ====
section
/-! DEFINITION. The object boundary (47_object_boundary.md): the four host-side pseudo-instructions as the
command sequences their host issues. Nothing here is a command of the block (R180); an encoder or decoder
is opaque to it and is given here by the sequence of commands it issues. -/

namespace Sys2Proof.Machine

/-- `WOBJ enc, value`: `NullEncoder` and nothing issued when there is no encoder, else the encoder's sequence
(47_object_boundary.md R181). -/
def expandWobj (encoded : Option (List Instr)) : Except Cause (List Instr) :=
  match encoded with
  | none => .error .nullEncoder
  | some commands => .ok commands

/-- `WOBJN enc, value-or-null`: a presence bit, then the encoding only if the value is present
(47_object_boundary.md R182). -/
def expandWobjn (value : Option (List Instr)) : List Instr :=
  match value with
  | none => [.wbool 0]
  | some commands => .wbool 1 :: commands

/-- The non-nullable `writeObject(value)`: `NullValue` and nothing issued when the value is null
(47_object_boundary.md R182). -/
def expandWriteObject (value : Option (List Instr)) : Except Cause (List Instr) :=
  match value with
  | none => .error .nullValue
  | some commands => .ok commands

/-- `ROBJ dec`: the decoder's sequence, `NullEncoder` and nothing issued without a decoder
(47_object_boundary.md R183). -/
def expandRobj (decoder : Option (List Instr)) : Except Cause (List Instr) :=
  match decoder with
  | none => .error .nullEncoder
  | some commands => .ok commands

/-- `ROBJN dec` begins with `RBOOL` (47_object_boundary.md R184). -/
def expandRobjn : List Instr := [.rbool]

/-- What `ROBJN dec` issues after its `RBOOL` was answered: the decoder's sequence if the result is 1, nothing
if it is 0 (47_object_boundary.md R184). -/
def continueRobjn (presence : Value) (decoder : List Instr) : List Instr :=
  if presence = 1 then decoder else []

/-- A host stops a sequence at the first non-zero `STATUS` (47_object_boundary.md R181, R233). -/
def continueSequence (last : Response) (rest : List Instr) : List Instr :=
  if last.status = 0 then rest else []

end Sys2Proof.Machine
end

