-- ==== Sys2Proof/Safety.lean ====
section
/-! DEFINITION. The terms claims use: the streams as bit sequences (20_memory.md R34), what a unit must be in
and what its environment must answer for a command to run to its end, what a command that ran to its end
did, and the invariants. Nothing of the machine's meaning is here. -/

namespace Sys2Proof.Machine

/-! ### The opcode table -/

/-- The match and mask of a command's row, as spec/opcode_table.json gives them (30_encoding.md R55). -/
def tableRow : Opcode → CommandWord × CommandWord
  | .w8 => (0x01000000000000000000000000000000, 0xFFFFFFFF000000000000000000000000)
  | .w16 => (0x02000000000000000000000000000000, 0xFFFFFFFF000000000000000000000000)
  | .wint => (0x03000000000000000000000000000000, 0xFFFEFFFF000000000000000000000000)
  | .wlong => (0x04000000000000000000000000000000, 0xFFFEFFFF000000000000000000000000)
  | .wbool => (0x05000000000000000000000000000000, 0xFFFFFFFFFFFFFFFF0000000000000000)
  | .wchar => (0x06000000000000000000000000000000, 0xFFFFFFFF000000000000000000000000)
  | .wfloat => (0x07000000000000000000000000000000, 0xFFFFFFFFFFFFFFFF0000000000000000)
  | .wdouble => (0x08000000000000000000000000000000, 0xFFFFFFFFFFFFFFFF0000000000000000)
  | .walign => (0x09000000000000000000000000000000, 0xFFFFFFFF00000000FFFFFFFFFFFFFFFF)
  | .wcount => (0x0A000000000000000000000000000000, 0xFFFFFFFFFFFFFFFFFFFFFFFFFFFFFFFF)
  | .windex => (0x0B000000000000000000000000000000, 0xFFFFFFFFFFFFFFFFFFFFFFFFFFFFFFFF)
  | .wstatus => (0x0C000000000000000000000000000000, 0xFFFFFFFFFFFFFFFFFFFFFFFFFFFFFFFF)
  | .r8 => (0x81000000000000000000000000000000, 0xFFFFFFFF00000000FFFFFFFFFFFFFFFF)
  | .r16 => (0x82000000000000000000000000000000, 0xFFFFFFFF00000000FFFFFFFFFFFFFFFF)
  | .rint => (0x83000000000000000000000000000000, 0xFFFEFFFF00000000FFFFFFFFFFFFFFFF)
  | .rlong => (0x84000000000000000000000000000000, 0xFFFEFFFF00000000FFFFFFFFFFFFFFFF)
  | .rbool => (0x85000000000000000000000000000000, 0xFFFFFFFFFFFFFFFFFFFFFFFFFFFFFFFF)
  | .rchar => (0x86000000000000000000000000000000, 0xFFFFFFFF00000000FFFFFFFFFFFFFFFF)
  | .rfloat => (0x87000000000000000000000000000000, 0xFFFFFFFFFFFFFFFFFFFFFFFFFFFFFFFF)
  | .rdouble => (0x88000000000000000000000000000000, 0xFFFFFFFFFFFFFFFFFFFFFFFFFFFFFFFF)
  | .ralign => (0x89000000000000000000000000000000, 0xFFFFFFFF00000000FFFFFFFFFFFFFFFF)
  | .rcount => (0x8A000000000000000000000000000000, 0xFFFFFFFFFFFFFFFFFFFFFFFFFFFFFFFF)
  | .rindex => (0x8B000000000000000000000000000000, 0xFFFFFFFFFFFFFFFFFFFFFFFFFFFFFFFF)
  | .rstatus => (0x8C000000000000000000000000000000, 0xFFFFFFFFFFFFFFFFFFFFFFFFFFFFFFFF)

/-! ### Streams as bit sequences -/

/-- The bits of a byte, most significant first (20_memory.md R33). -/
def bitsOfByte (b : Byte) : List Bool :=
  [b.getLsbD 7, b.getLsbD 6, b.getLsbD 5, b.getLsbD 4,
   b.getLsbD 3, b.getLsbD 2, b.getLsbD 1, b.getLsbD 0]

/-- A byte stream as a bit sequence (20_memory.md R34). -/
def bitsOfBytes (bytes : List Byte) : List Bool := bytes.flatMap bitsOfByte

/-- The low `size` bits of a value, bit `size-1` first (20_memory.md R34). -/
def topDown : Nat → Value → List Bool
  | 0, _ => []
  | k + 1, v => v.getLsbD k :: topDown k v

/-- The number whose most significant bit is the first of the list (44_reader_primitives.md R138). -/
def bitsToNat (bits : List Bool) : Nat := bits.foldl (fun v b => 2 * v + b.toNat) 0

/-- The cells placed since the last byte boundary, first placed first (10_state.md R11). -/
def Writer.live (w : Writer) : List Bool := w.pendingBits.toList.take w.bitIndex.toNat

/-- Every bit written since reset: the bits of `OUT`, then the live cells (20_memory.md R34, 10_state.md R23). -/
def Writer.stream (w : Writer) : List Bool := bitsOfBytes w.out ++ w.live

/-- The bits of the loaded byte not yet consumed (10_state.md R16). -/
def Reader.unconsumed (r : Reader) : List Bool :=
  if r.bitIndex = 0 then [] else r.pendingBits.toList.drop r.bitIndex.toNat

/-- The bytes a source yields before any other reply. -/
def sourceBytes : List SourceReply → List Byte
  | .byte b :: rest => b :: sourceBytes rest
  | _ => []

/-- The bits still to be read before the source answers anything but a byte. -/
def Reader.upcoming (r : Reader) : List Bool := r.unconsumed ++ bitsOfBytes (sourceBytes r.source)

/-- The stream position `8 * byteCount + bitIndex` (10_state.md R18). -/
def UnitState.position (u : UnitState) : Nat := 8 * u.byteCount.toNat + u.bitIndex.toNat

/-! ### When a command runs to its end -/

/-- The unit is between commands and has latched no fault. -/
abbrev UnitState.ready (u : UnitState) : Prop := u.busy = false ∧ u.fault = 0

/-- How many bytes `n` more bits complete: the `SinkPut` transactions of 20_memory.md R39. -/
def UnitState.completes (n : Nat) (u : UnitState) : Nat := (u.bitIndex.toNat + n) / 8

/-- How many bytes `n` more bits need fetched: the `SrcNext` transactions of 20_memory.md R39. -/
def UnitState.fetches (n : Nat) (u : UnitState) : Nat :=
  if n = 0 then 0
  else (u.bitIndex.toNat + n - 1) / 8 + 1 - (if 0 < u.bitIndex.toNat then 1 else 0)

/-- `byteCount` stays inside its 64 bits for `n` more bits (10_state.md R14, U6). -/
abbrev UnitState.countFits (n : Nat) (u : UnitState) : Prop :=
  u.byteCount.toNat + u.completes n < 2 ^ 64

/-- The sink accepts every byte that `n` more bits complete, and they can be counted. A reply that is not listed
is `ok` (the model's choice, log entry 6). -/
abbrev Writer.accepts (n : Nat) (w : Writer) : Prop :=
  (∀ x ∈ w.sink.take (w.completes n), x = SinkReply.ok) ∧ w.countFits n

/-- The source yields every byte that `n` more bits need, and they can be counted. -/
abbrev Reader.yields (n : Nat) (r : Reader) : Prop :=
  n ≤ r.upcoming.length ∧ r.countFits n

/-- What `WALIGN n` pads and `RALIGN n` consumes: `p + 8 * z` (43_writer_align_status.md R121). -/
def UnitState.alignBits (n : Nat) (u : UnitState) : Nat :=
  let i := u.bitIndex.toNat
  let p := if 0 < i then 8 - i else 0
  let c := u.byteCount.toNat + (if 0 < i then 1 else 0)
  p + 8 * ((n - c % n) % n)

/-- The bits a bit-writing command of `BW` appends, most significant first, where its operands are legal
(40_width_policy.md R73, 41_writer_primitives.md R90, 43_writer_align_status.md R120); none for a command
that fails validation or writes no bit. -/
def writtenBits (u : UnitState) : Instr → Option (List Bool)
  | .w8 size v => if 1 ≤ size ∧ size ≤ 8 then some (topDown size.toNat v) else none
  | .w16 size v => if 1 ≤ size ∧ size ≤ 16 then some (topDown size.toNat v) else none
  | .wint unsigned size v =>
    if 1 ≤ size ∧ size ≤ (if unsigned then 32 else 31) then some (topDown size.toNat v) else none
  | .wlong unsigned size v =>
    if 1 ≤ size ∧ size ≤ (if unsigned then 64 else 63) then some (topDown size.toNat v) else none
  | .wbool v => some (topDown 1 v)
  | .wchar size v => if 1 ≤ size ∧ size ≤ 16 then some (topDown size.toNat v) else none
  | .wfloat v => some (topDown 32 v)
  | .wdouble v => some (topDown 64 v)
  | .walign n => if 0 < n then some (List.replicate (u.alignBits n.toNat) false) else none
  | .wcount | .windex | .wstatus | .r8 _ | .r16 _ | .rint _ _ | .rlong _ _ | .rbool | .rchar _
  | .rfloat | .rdouble | .ralign _ | .rcount | .rindex | .rstatus => none

/-- How many bits a bit-consuming command of `BR` consumes, where its operands are legal (40_width_policy.md
R73, 44_reader_primitives.md R138, 46_reader_align_status.md R170). -/
def consumedSize (u : UnitState) : Instr → Option Nat
  | .r8 size => if 1 ≤ size ∧ size ≤ 8 then some size.toNat else none
  | .r16 size => if 1 ≤ size ∧ size ≤ 16 then some size.toNat else none
  | .rint unsigned size =>
    if 1 ≤ size ∧ size ≤ (if unsigned then 32 else 31) then some size.toNat else none
  | .rlong unsigned size =>
    if 1 ≤ size ∧ size ≤ (if unsigned then 64 else 63) then some size.toNat else none
  | .rbool => some 1
  | .rchar size => if 1 ≤ size ∧ size ≤ 16 then some size.toNat else none
  | .rfloat => some 32
  | .rdouble => some 64
  | .ralign n => if 0 < n then some (u.alignBits n.toNat) else none
  | .w8 _ _ | .w16 _ _ | .wint _ _ _ | .wlong _ _ _ | .wbool _ | .wchar _ _ | .wfloat _ | .wdouble _
  | .walign _ | .wcount | .windex | .wstatus | .rcount | .rindex | .rstatus => none

/-! ### What a command did -/

/-- From `s` to `t`, `BW` appended `bits` and answered `OK` with `result`; everything else is as before: the
bytes already in `OUT`, the fault register, the reader, the hosts' lists. -/
structure Appended (bits : List Bool) (result : Value) (s t : State) : Prop where
  stream : t.w.stream = s.w.stream ++ bits
  index : t.w.bitIndex.toNat = (s.w.bitIndex.toNat + bits.length) % 8
  count : t.w.byteCount.toNat = s.w.byteCount.toNat + s.w.completes bits.length
  stored : t.w.out.length = s.w.out.length + s.w.completes bits.length
  kept : ∀ k, k < s.w.out.length → t.w.out[k]? = s.w.out[k]?
  replies : t.w.sink = s.w.sink.drop (s.w.completes bits.length)
  answered : t.w.responses = s.w.responses ++ [⟨0, result⟩]
  fault : t.w.fault = s.w.fault
  busy : t.w.busy = s.w.busy
  draws : t.w.draws = s.w.draws
  reader : t.r = s.r
  host : t.host = s.host

/-- From `s` to `t`, `BR` consumed `n` bits and answered `OK` with `result`; everything else is as before. -/
structure Consumed (n : Nat) (result : Value) (s t : State) : Prop where
  upcoming : t.r.upcoming = s.r.upcoming.drop n
  index : t.r.bitIndex.toNat = (s.r.bitIndex.toNat + n) % 8
  count : t.r.byteCount.toNat = s.r.byteCount.toNat + s.r.completes n
  fetched : t.r.taken = s.r.taken ++ (sourceBytes s.r.source).take (s.r.fetches n)
  replies : t.r.source = s.r.source.drop (s.r.fetches n)
  answered : t.r.responses = s.r.responses ++ [⟨0, result⟩]
  fault : t.r.fault = s.r.fault
  busy : t.r.busy = s.r.busy
  draws : t.r.draws = s.r.draws
  writer : t.w = s.w
  host : t.host = s.host

/-- From `s` to `t`, `BW` did nothing but answer with a status and a result, and set `fault`. -/
def WriterAnswered (status : BitVec 8) (result : Value) (fault : BitVec 8) (s t : State) : Prop :=
  t = { s with w := { s.w with fault := fault, responses := s.w.responses ++ [⟨status, result⟩] } }

/-- From `s` to `t`, `BR` did nothing but answer with a status and a result, and set `fault`. -/
def ReaderAnswered (status : BitVec 8) (result : Value) (fault : BitVec 8) (s t : State) : Prop :=
  t = { s with r := { s.r with fault := fault, responses := s.r.responses ++ [⟨status, result⟩] } }

/-- Two procedures end alike: same result, and states related by `live` where they ran to their end, by
`dead` where they stopped inside. -/
def Micro.endsLike {σ α : Type} (live dead : σ → σ → Prop) : Micro σ α → Micro σ α → Prop
  | .done a u, .done b v => a = b ∧ live u v
  | .raised c u, .raised d v => c = d ∧ dead u v
  | .hung u, .hung v => dead u v
  | .overflow, .overflow => True
  | .done _ _, _ => False
  | .raised _ _, _ => False
  | .hung _, _ => False
  | .overflow, _ => False

/-- The same writer but for dead cells (10_state.md R13). -/
structure Writer.sameButDead (w x : Writer) : Prop where
  live : w.live = x.live
  index : w.bitIndex = x.bitIndex
  count : w.byteCount = x.byteCount
  out : w.out = x.out
  sink : w.sink = x.sink
  fault : w.fault = x.fault
  busy : w.busy = x.busy
  draws : w.draws = x.draws
  responses : w.responses = x.responses

/-- The same transactions made, and all but the accumulator the same (60_exceptions.md R203: after a failed
transaction the accumulator has no meaning). -/
structure Writer.sameTransactions (w x : Writer) : Prop where
  out : w.out = x.out
  sink : w.sink = x.sink
  fault : w.fault = x.fault
  busy : w.busy = x.busy
  draws : w.draws = x.draws
  responses : w.responses = x.responses

/-- The same reader but for dead cells (10_state.md R16). -/
structure Reader.sameButDead (r x : Reader) : Prop where
  unconsumed : r.unconsumed = x.unconsumed
  index : r.bitIndex = x.bitIndex
  count : r.byteCount = x.byteCount
  taken : r.taken = x.taken
  source : r.source = x.source
  fault : r.fault = x.fault
  busy : r.busy = x.busy
  draws : r.draws = x.draws
  responses : r.responses = x.responses

/-- The same transactions made, and all but the accumulator the same. -/
structure Reader.sameTransactions (r x : Reader) : Prop where
  taken : r.taken = x.taken
  source : r.source = x.source
  fault : r.fault = x.fault
  busy : r.busy = x.busy
  draws : r.draws = x.draws
  responses : r.responses = x.responses

/-! ### Invariants -/

/-- Causes after which the accumulator registers still have their meaning: none yet, or a precise one
(60_exceptions.md R203). -/
abbrev preciseCode (f : BitVec 8) : Prop := f ≠ 5 ∧ f ≠ 6

/-- `OUT` has exactly `W.byteCount` bytes (20_memory.md R32), and the bytes taken from `IN` are those consumed
and, inside a byte, the one loaded in the cells (10_state.md R16, R17, R24). -/
structure StreamsInStep (s : State) : Prop where
  written : preciseCode s.w.fault → s.w.out.length = s.w.byteCount.toNat
  fetched : preciseCode s.r.fault →
    s.r.taken.length = s.r.byteCount.toNat + (if s.r.bitIndex = 0 then 0 else 1)
  loaded : preciseCode s.r.fault → s.r.bitIndex ≠ 0 →
    ∃ earlier b, s.r.taken = earlier ++ [b] ∧ s.r.pendingBits.toList = bitsOfByte b

/-- A response is of a form R54 and R191 allow: a status the block uses, and `RESULT` = 0 unless `OK`. -/
abbrev Response.legal (x : Response) : Prop :=
  x.status.toNat ≤ 8 ∧ x.status ≠ 3 ∧ x.status ≠ 4 ∧ (x.status ≠ 0 → x.result = 0)

/-- The fault registers hold only causes their unit can raise (10_state.md R21, 60_exceptions.md R191, R196,
R197), and the responses are legal. -/
structure AnswersLegal (s : State) : Prop where
  writerCause : s.w.fault = 0 ∨ s.w.fault = 1 ∨ s.w.fault = 2 ∨ s.w.fault = 6 ∨ s.w.fault = 7
  readerCause : s.r.fault = 0 ∨ s.r.fault = 1 ∨ s.r.fault = 2 ∨ s.r.fault = 5 ∨ s.r.fault = 6
    ∨ s.r.fault = 7
  writerResponses : ∀ x ∈ s.w.responses, x.legal
  readerResponses : ∀ x ∈ s.r.responses, x.legal

end Sys2Proof.Machine
end

