-- ==== Sys2Proof/Certificates/Slice0/Obligations.lean ====
section
/-! DEFINITION. The statements for the provers: what the spec's rules say the block does. Each docstring names
the rule it formalises or the sections it rests on. -/

open Sys2Proof Sys2Proof.Machine

/-! ### The command word -/

/-- 30_encoding.md R52, R55, R59: words written out from the encoding tables decode to the commands they
stand for, one or more of every family. -/
def Obligations.SpecWordsDecode : Prop :=
  decode 0x01000000000000060000000000000035 = .ok (.w8 6 0x35)
  ∧ decode 0x0300000000000004FFFFFFFFFFFFFFFF = .ok (.wint false 4 0xFFFFFFFFFFFFFFFF)
  ∧ decode 0x03010000000000200000000080000001 = .ok (.wint true 32 0x80000001)
  ∧ decode 0x0700000000000000000000004048F5C3 = .ok (.wfloat 0x4048F5C3)
  ∧ decode 0x09000000FFFFFFFF0000000000000000 = .ok (.walign (-1))
  ∧ decode 0x0A000000000000000000000000000000 = .ok .wcount
  ∧ decode 0x82000000000000100000000000000000 = .ok (.r16 16)
  ∧ decode 0x84000000FFFFFFFB0000000000000000 = .ok (.rlong false (-5))
  ∧ decode 0x88000000000000000000000000000000 = .ok .rdouble
  ∧ decode 0x89000000000000040000000000000000 = .ok (.ralign 4)
  ∧ decode 0x8C000000000000000000000000000000 = .ok .rstatus
  ∧ decode 0 = .error .unknownOpcode

/-- 30_encoding.md R52, R53, R55, R57: no bit of a command is dropped by its encoding. -/
def Obligations.DecodeInvertsEncode : Prop :=
  ∀ i : Instr, i.wellFormed = true → decode (encode i) = .ok i

/-- 30_encoding.md R52, R56: a legal word is the word of the command it carries, so no two words carry the
same command and no bit of a legal word is ignored by the decoder. -/
def Obligations.EncodeInvertsDecode : Prop :=
  ∀ (w : CommandWord) (i : Instr), decode w = .ok i → i.wellFormed = true ∧ encode i = w

/-- 30_encoding.md R55: a word selects a command exactly when `(word AND mask) == match` for its row. -/
def Obligations.WordSelectsItsTableRow : Prop :=
  ∀ (w : CommandWord) (o : Opcode),
    (∃ i, decode w = .ok i ∧ i.opcode = o) ↔ w &&& (tableRow o).2 = (tableRow o).1

/-- 30_encoding.md R56: which words are illegal for a unit: `OP` none of its twelve opcodes, `RSV1` or `RSV2`
not 0, or a field its command does not use (R53) not 0; every other word is one of its commands. -/
def Obligations.IllegalWordsOfAUnit : Prop :=
  ∀ (u : UnitId) (w : CommandWord),
    (∃ e, decodeFor u w = .error e) ↔
      (∀ o : Opcode, o.unit = u → w.extractLsb' 120 8 ≠ o.byte)
      ∨ w.extractLsb' 113 7 ≠ 0 ∨ w.extractLsb' 96 16 ≠ 0
      ∨ ∃ o : Opcode, w.extractLsb' 120 8 = o.byte
        ∧ ((o.usesU = false ∧ w.getLsbD 112 = true)
          ∨ (o.usesArg = false ∧ w.extractLsb' 64 32 ≠ 0)
          ∨ (o.usesValue = false ∧ w.extractLsb' 0 64 ≠ 0))

/-! ### The machine's step -/

/-- 30_encoding.md R51, R61, R62: a word presented to a unit that carries a command of this unit is run as
that command, the event taken off the list and nothing else done around it. -/
def Obligations.StepRunsDecodedCommand : Prop :=
  ∀ (s : State) (u : UnitId) (word : CommandWord) (rest : List HostEvent) (i : Instr),
    s.host = .command u word :: rest → decodeFor u word = .ok i →
    step s = exec i { s with host := rest }

/-- 60_exceptions.md R199, 30_encoding.md R56: an illegal word raises `IllegalCommand`, code 7, before any
effect: only the fault register and the answer change, in the unit that received it. -/
def Obligations.IllegalWordRaisesIllegalCommand : Prop :=
  ∀ (s : State) (word : CommandWord) (rest : List HostEvent) (e : DecodeError),
    (s.w.ready → s.host = .command .bw word :: rest → decodeFor .bw word = .error e →
      ∃ t, step s = .next t ∧ WriterAnswered 7 0 7 { s with host := rest } t)
    ∧ (s.r.ready → s.host = .command .br word :: rest → decodeFor .br word = .error e →
      ∃ t, step s = .next t ∧ ReaderAnswered 7 0 7 { s with host := rest } t)

/-- 60_exceptions.md R201, 30_encoding.md R61 step 1: while its fault register is not 0 a unit answers its
three status reads and refuses every other word, legal or not, with `STATUS` = 8 and no other change. -/
def Obligations.FaultedUnitRefuses : Prop :=
  ∀ (s : State) (word : CommandWord) (rest : List HostEvent),
    (s.w.busy = false → s.w.fault ≠ 0 → s.host = .command .bw word :: rest →
      ∃ t, step s = .next t ∧
        ((decodeFor .bw word = .ok .wcount ∧ WriterAnswered 0 s.w.byteCount s.w.fault { s with host := rest } t)
        ∨ (decodeFor .bw word = .ok .windex
          ∧ WriterAnswered 0 (s.w.bitIndex.setWidth 64) s.w.fault { s with host := rest } t)
        ∨ (decodeFor .bw word = .ok .wstatus
          ∧ WriterAnswered 0 (s.w.fault.setWidth 64) s.w.fault { s with host := rest } t)
        ∨ ((∀ i, decodeFor .bw word = .ok i → i.isStatusRead = false)
          ∧ WriterAnswered 8 0 s.w.fault { s with host := rest } t)))
    ∧ (s.r.busy = false → s.r.fault ≠ 0 → s.host = .command .br word :: rest →
      ∃ t, step s = .next t ∧
        ((decodeFor .br word = .ok .rcount ∧ ReaderAnswered 0 s.r.byteCount s.r.fault { s with host := rest } t)
        ∨ (decodeFor .br word = .ok .rindex
          ∧ ReaderAnswered 0 (s.r.bitIndex.setWidth 64) s.r.fault { s with host := rest } t)
        ∨ (decodeFor .br word = .ok .rstatus
          ∧ ReaderAnswered 0 (s.r.fault.setWidth 64) s.r.fault { s with host := rest } t)
        ∨ ((∀ i, decodeFor .br word = .ok i → i.isStatusRead = false)
          ∧ ReaderAnswered 8 0 s.r.fault { s with host := rest } t)))

/-- 30_encoding.md R51, 20_memory.md R31, R35: a unit still inside a command takes no word, legal or not.
That the offer then lapses without effect is the model's choice (log entry 3). -/
def Obligations.BusyUnitTakesNoWord : Prop :=
  ∀ (s : State) (u : UnitId) (word : CommandWord) (rest : List HostEvent),
    s.host = .command u word :: rest → (match u with | .bw => s.w.busy | .br => s.r.busy) = true →
    step s = .next { s with host := rest }

/-- 30_encoding.md R51: a unit that takes a word returns exactly one response, unless a far end never answers
and it stays inside the command (U3): then its sink accepted the replies before the missing one, or its source
yielded the bytes before it, and the missing reply is still the next. -/
def Obligations.OneResponsePerCommand : Prop :=
  ∀ (s t : State) (word : CommandWord) (rest : List HostEvent), step s = .next t →
    (s.host = .command .bw word :: rest → s.w.busy = false →
      (t.w.busy = false ∧ ∃ x, t.w.responses = s.w.responses ++ [x])
      ∨ (t.w.busy = true ∧ t.w.responses = s.w.responses
        ∧ ∃ (j : Nat) (later : List SinkReply), s.w.sink = List.replicate j .ok ++ .noReply :: later
          ∧ t.w.sink = .noReply :: later ∧ t.w.out.length = s.w.out.length + j))
    ∧ (s.host = .command .br word :: rest → s.r.busy = false →
      (t.r.busy = false ∧ ∃ x, t.r.responses = s.r.responses ++ [x])
      ∨ (t.r.busy = true ∧ t.r.responses = s.r.responses
        ∧ ∃ (bs : List Byte) (later : List SourceReply), s.r.source = bs.map .byte ++ .noReply :: later
          ∧ t.r.source = .noReply :: later ∧ t.r.taken = s.r.taken ++ bs))

/-- 70_reset_and_hazards.md R220, R221: a reset of a unit between commands sets `bitIndex`, `byteCount` and
`fault` to 0, makes no transaction, gives no response and leaves the other unit alone. That `OUT` and the
bytes taken of `IN` are then none follows from 20_memory.md R30, which counts both streams since reset; it is
read from the spec by inference (DEDUCED, log entry 5). -/
def Obligations.ResetEventClearsItsUnit : Prop :=
  ∀ (s : State) (rest : List HostEvent),
    (s.host = .reset .bw :: rest → s.w.busy = false →
      ∃ t, step s = .next t ∧ t.w.bitIndex = 0 ∧ t.w.byteCount = 0 ∧ t.w.fault = 0 ∧ t.w.busy = false
        ∧ t.w.out = [] ∧ t.w.sink = s.w.sink ∧ t.w.responses = s.w.responses ∧ t.r = s.r ∧ t.host = rest)
    ∧ (s.host = .reset .br :: rest → s.r.busy = false →
      ∃ t, step s = .next t ∧ t.r.bitIndex = 0 ∧ t.r.byteCount = 0 ∧ t.r.fault = 0 ∧ t.r.busy = false
        ∧ t.r.taken = [] ∧ t.r.source = s.r.source ∧ t.r.responses = s.r.responses ∧ t.w = s.w
        ∧ t.host = rest)

/-- 10_state.md R25: what reset leaves in the registers the rule gives values for, in both units. -/
def Obligations.ResetRegisterValues : Prop :=
  State.reset.w.bitIndex = 0 ∧ State.reset.w.byteCount = 0 ∧ State.reset.w.fault = 0
  ∧ State.reset.r.bitIndex = 0 ∧ State.reset.r.byteCount = 0 ∧ State.reset.r.fault = 0

/-- 70_reset_and_hazards.md R222: a reset while a command is in progress is outside the spec, and the model
stops there by name (log entry 12). -/
def Obligations.ResetDuringCommandIsOutside : Prop :=
  ∀ (s : State) (u : UnitId) (rest : List HostEvent),
    s.host = .reset u :: rest → (match u with | .bw => s.w.busy | .br => s.r.busy) = true →
    step s = .refused .resetDuringCommand

/-- 60_exceptions.md R201, R204, 70_reset_and_hazards.md R220: once a unit's fault register is not 0, no event
but a reset of this unit changes it. -/
def Obligations.OnlyResetClearsFault : Prop :=
  ∀ s t : State, step s = .next t →
    (s.w.fault ≠ 0 → t.w.fault ≠ s.w.fault → ∃ rest, s.host = .reset .bw :: rest)
    ∧ (s.r.fault ≠ 0 → t.r.fault ≠ s.r.fault → ∃ rest, s.host = .reset .br :: rest)

/-- 10_state.md R10, 60_exceptions.md R208: no command of one unit reads or writes the other's state: what it
does to its own unit, and whether it runs, is the same in any two machines whose own units agree. -/
def Obligations.UnitsAreIndependent : Prop :=
  (∀ (i : Instr) (s t : State), exec i s = .next t → (i.unit = .bw → t.r = s.r) ∧ (i.unit = .br → t.w = s.w))
  ∧ (∀ (i : Instr) (s s' t : State), i.unit = .bw → s.w = s'.w → exec i s = .next t →
      ∃ t', exec i s' = .next t' ∧ t'.w = t.w ∧ t'.r = s'.r ∧ t'.host = s'.host)
  ∧ (∀ (i : Instr) (s s' t : State), i.unit = .br → s.r = s'.r → exec i s = .next t →
      ∃ t', exec i s' = .next t' ∧ t'.r = t.r ∧ t'.w = s'.w ∧ t'.host = s'.host)

/-- 20_memory.md R32, 10_state.md R16, R17, R24: every step keeps the byte counters in step with the streams,
and the cells of the reader with the byte it has loaded. -/
def Obligations.StepKeepsStreamsInStep : Prop :=
  ∀ s t : State, StreamsInStep s → step s = .next t → StreamsInStep t

/-- The invariant of StepKeepsStreamsInStep holds right after reset (10_state.md R25). -/
def Obligations.ResetStreamsInStep : Prop := StreamsInStep State.reset

/-- 10_state.md R21, 60_exceptions.md R191, R196, R197, 30_encoding.md R54: every step keeps the latched causes
and the responses within what the rules allow. -/
def Obligations.StepKeepsAnswersLegal : Prop :=
  ∀ s t : State, AnswersLegal s → step s = .next t → AnswersLegal t

/-- The invariant of StepKeepsAnswersLegal holds right after reset (10_state.md R25). -/
def Obligations.ResetAnswersLegal : Prop := AnswersLegal State.reset

/-- 10_state.md R14, 70_reset_and_hazards.md R222, U4, U6: no step faults, and a step is refused only where
the spec says it is outside (log entries 12, 13): a reset of a unit inside a command, or a command that
writes, or consumes, enough bits to count a byte beyond `2^64 - 1`. -/
def Obligations.StepStopsOnlyOutsideTheSpec : Prop :=
  ∀ s : State, (∃ t, step s = .next t)
    ∨ (step s = .refused .resetDuringCommand
      ∧ ((s.w.busy = true ∧ ∃ rest, s.host = .reset .bw :: rest)
        ∨ (s.r.busy = true ∧ ∃ rest, s.host = .reset .br :: rest)))
    ∨ (step s = .refused .byteCountOverflow
      ∧ ((∃ word rest i bits, s.host = .command .bw word :: rest ∧ decodeFor .bw word = .ok i ∧ s.w.ready
          ∧ writtenBits s.w.toUnitState i = some bits
          ∧ 2 ^ 64 ≤ s.w.byteCount.toNat + s.w.completes bits.length)
        ∨ (∃ word rest i n, s.host = .command .br word :: rest ∧ decodeFor .br word = .ok i ∧ s.r.ready
          ∧ consumedSize s.r.toUnitState i = some n
          ∧ 2 ^ 64 ≤ s.r.byteCount.toNat + s.r.completes n)))

/-- 10_state.md R14, R17: no command lowers a byte count, and `W.byteCount` rises by exactly the bytes the sink
accepted (after a fault of cause 5 or 6 the counts have no meaning, R203). -/
def Obligations.ByteCountsOnlyRise : Prop :=
  ∀ (i : Instr) (s t : State), exec i s = .next t →
    (preciseCode t.w.fault → s.w.byteCount.toNat ≤ t.w.byteCount.toNat
      ∧ t.w.out.length + s.w.byteCount.toNat = s.w.out.length + t.w.byteCount.toNat)
    ∧ (preciseCode t.r.fault → s.r.byteCount.toNat ≤ t.r.byteCount.toNat)

/-! ### Validation -/

/-- 60_exceptions.md R192, 40_width_policy.md R73, R74: which sizes each command refuses, and that
`InvalidWidth` comes before any effect. -/
def Obligations.InvalidWidthIsPrecise : Prop :=
  ∀ (s : State) (size : Int) (v : Value) (i : Instr),
    (s.w.ready →
      ((i = .w8 size v ∧ ¬(1 ≤ size ∧ size ≤ 8))
        ∨ (i = .w16 size v ∧ ¬(1 ≤ size ∧ size ≤ 16))
        ∨ (i = .wchar size v ∧ ¬(1 ≤ size ∧ size ≤ 16))
        ∨ (i = .wint true size v ∧ ¬(1 ≤ size ∧ size ≤ 32))
        ∨ (i = .wint false size v ∧ ¬(1 ≤ size ∧ size ≤ 31))
        ∨ (i = .wlong true size v ∧ ¬(1 ≤ size ∧ size ≤ 64))
        ∨ (i = .wlong false size v ∧ ¬(1 ≤ size ∧ size ≤ 63))) →
      ∃ t, exec i s = .next t ∧ WriterAnswered 1 0 1 s t)
    ∧ (s.r.ready →
      ((i = .r8 size ∧ ¬(1 ≤ size ∧ size ≤ 8))
        ∨ (i = .r16 size ∧ ¬(1 ≤ size ∧ size ≤ 16))
        ∨ (i = .rchar size ∧ ¬(1 ≤ size ∧ size ≤ 16))
        ∨ (i = .rint true size ∧ ¬(1 ≤ size ∧ size ≤ 32))
        ∨ (i = .rint false size ∧ ¬(1 ≤ size ∧ size ≤ 31))
        ∨ (i = .rlong true size ∧ ¬(1 ≤ size ∧ size ≤ 64))
        ∨ (i = .rlong false size ∧ ¬(1 ≤ size ∧ size ≤ 63))) →
      ∃ t, exec i s = .next t ∧ ReaderAnswered 1 0 1 s t)

/-- 60_exceptions.md R193: `WALIGN` and `RALIGN` with a boundary of 0 or less raise `InvalidArgument` before any
effect, and nothing else raises it: a command that latches it is one of these two. -/
def Obligations.InvalidArgumentIsPrecise : Prop :=
  (∀ (s : State) (n : Int), n ≤ 0 →
    (s.w.ready → ∃ t, exec (.walign n) s = .next t ∧ WriterAnswered 2 0 2 s t)
    ∧ (s.r.ready → ∃ t, exec (.ralign n) s = .next t ∧ ReaderAnswered 2 0 2 s t))
  ∧ ∀ (i : Instr) (s t : State), exec i s = .next t →
    (s.w.fault ≠ 2 → t.w.fault = 2 → ∃ n : Int, n ≤ 0 ∧ i = .walign n)
    ∧ (s.r.fault ≠ 2 → t.r.fault = 2 → ∃ n : Int, n ≤ 0 ∧ i = .ralign n)

/-! ### The writer -/

/-- 41_writer_primitives.md R82: the assembled byte as a number. -/
def Obligations.AssembledByteAsNumber : Prop :=
  ∀ cells : Vector Bool 8,
    (assembleByte cells).toNat = ∑ i : Fin 8, (cells[i]).toNat * 2 ^ (7 - i.val)

/-- 41_writer_primitives.md R90: every write procedure, at every legal size, is the flat loop of `PushBit` from
bit `size-1` down to bit 0, but for dead cells; where a transaction fails, the same transactions were made. -/
def Obligations.WriteProceduresAreFlat : Prop :=
  ∀ (size : Nat) (value : Value) (w : Writer), 1 ≤ size →
    (size ≤ 8 → Micro.endsLike Writer.sameButDead Writer.sameTransactions
      (write8 size value w) (pushDown size value w))
    ∧ (size ≤ 16 → Micro.endsLike Writer.sameButDead Writer.sameTransactions
      (write16 size value w) (pushDown size value w))
    ∧ (size ≤ 32 → Micro.endsLike Writer.sameButDead Writer.sameTransactions
        (writeIntUnsigned size value w) (pushDown size value w)
      ∧ Micro.endsLike Writer.sameButDead Writer.sameTransactions
        (writeIntSigned size value w) (pushDown size value w))
    ∧ (size ≤ 64 → Micro.endsLike Writer.sameButDead Writer.sameTransactions
        (writeLongUnsigned size value w) (pushDown size value w)
      ∧ Micro.endsLike Writer.sameButDead Writer.sameTransactions
        (writeLongSigned size value w) (pushDown size value w))

/-- 41_writer_primitives.md R86, R87, R89, R90, 42_writer_values.md R107: `W8`, `W16` and `WCHAR` with a legal
size, a ready unit and an accepting sink append the low `size` bits of the value and answer 0. That a sink
accepts a byte for which no reply is listed is the model's choice (log entry 6). -/
def Obligations.PrimitiveWritesAppend : Prop :=
  ∀ (s : State) (size : Nat) (value : Value), s.w.ready → 1 ≤ size → s.w.accepts size →
    (size ≤ 8 → ∃ t, exec (.w8 size value) s = .next t ∧ Appended (topDown size value) 0 s t)
    ∧ (size ≤ 16 → ∃ t, exec (.w16 size value) s = .next t ∧ Appended (topDown size value) 0 s t)
    ∧ (size ≤ 16 → ∃ t, exec (.wchar size value) s = .next t ∧ Appended (topDown size value) 0 s t)

/-- 42_writer_values.md R100, R103: `WINT` and `WLONG` append the low `size` bits whatever `U` is; `U` changes
only the largest legal size. That a sink accepts a byte for which no reply is listed is the model's choice
(log entry 6). -/
def Obligations.IntegerWritesAppend : Prop :=
  ∀ (s : State) (unsigned : Bool) (size : Nat) (value : Value), s.w.ready → 1 ≤ size → s.w.accepts size →
    (size ≤ (if unsigned then 32 else 31) →
      ∃ t, exec (.wint unsigned size value) s = .next t ∧ Appended (topDown size value) 0 s t)
    ∧ (size ≤ (if unsigned then 64 else 63) →
      ∃ t, exec (.wlong unsigned size value) s = .next t ∧ Appended (topDown size value) 0 s t)

/-- 42_writer_values.md R106, R108, R109: `WBOOL` appends `VALUE[0]`, `WFLOAT` the 32-bit pattern and `WDOUBLE`
the 64-bit pattern, unchanged. That a sink accepts a byte for which no reply is listed is the model's choice
(log entry 6). -/
def Obligations.TypedWritesAppend : Prop :=
  ∀ (s : State) (value : Value), s.w.ready →
    (s.w.accepts 1 → ∃ t, exec (.wbool value) s = .next t ∧ Appended [value.getLsbD 0] 0 s t)
    ∧ (s.w.accepts 32 → ∃ t, exec (.wfloat value) s = .next t ∧ Appended (topDown 32 value) 0 s t)
    ∧ (s.w.accepts 64 → ∃ t, exec (.wdouble value) s = .next t ∧ Appended (topDown 64 value) 0 s t)

/-- 43_writer_align_status.md R120, R121: `WALIGN n` appends `p + 8z` zero bits, returns that number, and leaves
the writer at `bitIndex` 0 with a byte count that is `c' + z` and a multiple of `n`. That a sink accepts a byte
for which no reply is listed is the model's choice (log entry 6). -/
def Obligations.AlignWriterPads : Prop :=
  ∀ (s : State) (n : Nat), 0 < n → s.w.ready → s.w.accepts (s.w.alignBits n) →
    ∃ t, exec (.walign n) s = .next t
      ∧ Appended (List.replicate (s.w.alignBits n) false) (BitVec.ofNat 64 (s.w.alignBits n)) s t
      ∧ t.w.bitIndex = 0 ∧ t.w.byteCount.toNat % n = 0
      ∧ t.w.byteCount.toNat = s.w.byteCount.toNat + (if 0 < s.w.bitIndex.toNat then 1 else 0)
          + (n - (s.w.byteCount.toNat + (if 0 < s.w.bitIndex.toNat then 1 else 0)) % n) % n

/-- 43_writer_align_status.md R121: a second `WALIGN n` straight after the first pads nothing and returns 0. -/
def Obligations.AlignWriterTwicePadsNothing : Prop :=
  ∀ (s t : State) (n : Nat), 0 < n → s.w.ready → exec (.walign n) s = .next t → t.w.ready →
    ∃ u, exec (.walign n) t = .next u ∧ Appended [] 0 t u ∧ u.w.out = t.w.out

/-- 43_writer_align_status.md R122, R123, R124: the writer's status reads return their register and change
nothing, faulted or not. -/
def Obligations.WriterStatusReads : Prop :=
  ∀ s : State, s.w.busy = false →
    (∃ t, exec .wcount s = .next t ∧ WriterAnswered 0 s.w.byteCount s.w.fault s t)
    ∧ (∃ t, exec .windex s = .next t ∧ WriterAnswered 0 (s.w.bitIndex.setWidth 64) s.w.fault s t)
    ∧ (∃ t, exec .wstatus s = .next t ∧ WriterAnswered 0 (s.w.fault.setWidth 64) s.w.fault s t)

/-- 41_writer_primitives.md R86: no bit of the value at a position `size` or above is read: two values with the
same low `size` bits are written alike in every state, faults included. -/
def Obligations.WritesReadOnlyLowBits : Prop :=
  ∀ (s : State) (size : Nat) (unsigned : Bool) (v v' : Value), topDown size v = topDown size v' →
    exec (.w8 size v) s = exec (.w8 size v') s
    ∧ exec (.w16 size v) s = exec (.w16 size v') s
    ∧ exec (.wchar size v) s = exec (.wchar size v') s
    ∧ exec (.wint unsigned size v) s = exec (.wint unsigned size v') s
    ∧ exec (.wlong unsigned size v) s = exec (.wlong unsigned size v') s
    ∧ (1 ≤ size → exec (.wbool v) s = exec (.wbool v') s)
    ∧ (32 ≤ size → exec (.wfloat v) s = exec (.wfloat v') s)

/-- 41_writer_primitives.md R91, 60_exceptions.md R198, R203: where the sink accepts `j` bytes of a command and
refuses the next, the command ends with `IOFailure`: exactly the first `j` bytes of the bit sequence it
was writing were accepted and stay, no later transaction is made, and the cause is latched. -/
def Obligations.RefusedByteEndsWrite : Prop :=
  ∀ (s : State) (i : Instr) (bits : List Bool) (j : Nat) (later : List SinkReply),
    s.w.ready → writtenBits s.w.toUnitState i = some bits →
    s.w.sink = List.replicate j .ok ++ .ioFail :: later →
    j < s.w.completes bits.length → s.w.byteCount.toNat + j < 2 ^ 64 →
    ∃ t, exec i s = .next t ∧ t.w.fault = 6 ∧ t.w.busy = false
      ∧ t.w.responses = s.w.responses ++ [⟨6, 0⟩]
      ∧ t.w.out.length = s.w.out.length + j
      ∧ bitsOfBytes t.w.out = (s.w.stream ++ bits).take (8 * (s.w.out.length + j))
      ∧ t.w.sink = later ∧ t.r = s.r ∧ t.host = s.host

/-- 20_memory.md R31, U3: where the sink accepts `j` bytes of a command and never answers for the next, there is
no response and no fault, and the unit stays inside the command. -/
def Obligations.SilentSinkKeepsUnitBusy : Prop :=
  ∀ (s : State) (i : Instr) (bits : List Bool) (j : Nat) (later : List SinkReply),
    s.w.ready → writtenBits s.w.toUnitState i = some bits →
    s.w.sink = List.replicate j .ok ++ .noReply :: later →
    j < s.w.completes bits.length → s.w.byteCount.toNat + j < 2 ^ 64 →
    ∃ t, exec i s = .next t ∧ t.w.busy = true ∧ t.w.fault = 0 ∧ t.w.responses = s.w.responses
      ∧ t.w.out.length = s.w.out.length + j
      ∧ bitsOfBytes t.w.out = (s.w.stream ++ bits).take (8 * (s.w.out.length + j))
      ∧ t.r = s.r ∧ t.host = s.host

/-- Frame of every command of `BW` that stores bytes (20_memory.md R30, R32, 10_state.md R10): however the
command ends, every byte of `OUT` at an address below the first it stores to, `OUT`'s length, is as before;
the reader, the source and the hosts' list are as before; the sink's replies are used from the front, one
`ok` for each byte stored while replies are listed, and after them at most the `io_fail` that was raised. -/
def Obligations.WriteCommandsFrame : Prop :=
  ∀ (i : Instr) (s t : State), i.unit = .bw → exec i s = .next t →
    (∀ k, k < s.w.out.length → t.w.out[k]? = s.w.out[k]?)
    ∧ s.w.out.length ≤ t.w.out.length
    ∧ (∃ (j : Nat) (tail : List SinkReply), s.w.sink = List.replicate j .ok ++ tail ++ t.w.sink
      ∧ (tail = [] ∨ tail = [.ioFail] ∧ t.w.fault = 6)
      ∧ s.w.out.length + j ≤ t.w.out.length
      ∧ (tail ++ t.w.sink ≠ [] → t.w.out.length = s.w.out.length + j))
    ∧ t.r = s.r ∧ t.host = s.host
    ∧ (i.isStatusRead = true → t.w.out = s.w.out ∧ t.w.sink = s.w.sink
      ∧ t.w.pendingBits = s.w.pendingBits ∧ t.w.bitIndex = s.w.bitIndex
      ∧ t.w.byteCount = s.w.byteCount ∧ t.w.fault = s.w.fault)

/-! ### The reader -/

/-- 44_reader_primitives.md R138: every read procedure, at every legal size, is the flat loop of `size` calls of
`PullBit`, first bit most significant, but for dead cells; where a transaction fails, the same
transactions were made. -/
def Obligations.ReadProceduresAreFlat : Prop :=
  ∀ (size : Nat) (r : Reader), 1 ≤ size →
    (size ≤ 8 → Micro.endsLike Reader.sameButDead Reader.sameTransactions (read8 size r) (pullBits size 0 r))
    ∧ (size ≤ 16 → Micro.endsLike Reader.sameButDead Reader.sameTransactions
      (read16 size r) (pullBits size 0 r))
    ∧ (size ≤ 32 → Micro.endsLike Reader.sameButDead Reader.sameTransactions
        (readIntUnsigned size r) (pullBits size 0 r)
      ∧ Micro.endsLike Reader.sameButDead Reader.sameTransactions
        (readIntSigned size r) (pullBits size 0 r))
    ∧ (size ≤ 64 → Micro.endsLike Reader.sameButDead Reader.sameTransactions
        (readLongUnsigned size r) (pullBits size 0 r)
      ∧ Micro.endsLike Reader.sameButDead Reader.sameTransactions
        (readLongSigned size r) (pullBits size 0 r))

/-- 44_reader_primitives.md R135, R137, R138, 45_reader_values.md R157: `R8`, `R16` and `RCHAR` with a legal size,
a ready unit and a yielding source consume the next `size` bits and return them zero-extended. -/
def Obligations.PrimitiveReadsConsume : Prop :=
  ∀ (s : State) (size : Nat), s.r.ready → 1 ≤ size → s.r.yields size →
    (size ≤ 8 → ∃ t, exec (.r8 size) s = .next t
      ∧ Consumed size (BitVec.ofNat 64 (bitsToNat (s.r.upcoming.take size))) s t)
    ∧ (size ≤ 16 → ∃ t, exec (.r16 size) s = .next t
      ∧ Consumed size (BitVec.ofNat 64 (bitsToNat (s.r.upcoming.take size))) s t)
    ∧ (size ≤ 16 → ∃ t, exec (.rchar size) s = .next t
      ∧ Consumed size (BitVec.ofNat 64 (bitsToNat (s.r.upcoming.take size))) s t)

/-- 45_reader_values.md R150, R153, R160: `RINT` and `RLONG` consume `size` bits `p`; `RESULT[size-1:0] = p`, and
the bits above are all 0 for an unsigned read and all equal to the first bit read for a signed one. -/
def Obligations.IntegerReadsConsume : Prop :=
  ∀ (s : State) (unsigned : Bool) (size : Nat), s.r.ready → 1 ≤ size → s.r.yields size →
    (size ≤ (if unsigned then 32 else 31) → ∃ t v, exec (.rint unsigned size) s = .next t ∧ Consumed size v s t
      ∧ topDown size v = s.r.upcoming.take size
      ∧ ∀ k, size ≤ k → k < 64 → v.getLsbD k = (!unsigned && v.getLsbD (size - 1)))
    ∧ (size ≤ (if unsigned then 64 else 63) → ∃ t v, exec (.rlong unsigned size) s = .next t ∧ Consumed size v s t
      ∧ topDown size v = s.r.upcoming.take size
      ∧ ∀ k, size ≤ k → k < 64 → v.getLsbD k = (!unsigned && v.getLsbD (size - 1)))

/-- 45_reader_values.md R156, R158, R159: `RBOOL` returns the next bit, `RFLOAT` the next 32 bits zero-extended
and `RDOUBLE` the next 64, unchanged. -/
def Obligations.TypedReadsConsume : Prop :=
  ∀ s : State, s.r.ready →
    (s.r.yields 1 → ∃ t b rest, exec .rbool s = .next t ∧ s.r.upcoming = b :: rest
      ∧ Consumed 1 (if b then 1 else 0) s t)
    ∧ (s.r.yields 32 → ∃ t, exec .rfloat s = .next t
      ∧ Consumed 32 (BitVec.ofNat 64 (bitsToNat (s.r.upcoming.take 32))) s t)
    ∧ (s.r.yields 64 → ∃ t, exec .rdouble s = .next t
      ∧ Consumed 64 (BitVec.ofNat 64 (bitsToNat (s.r.upcoming.take 64))) s t)

/-- 46_reader_align_status.md R170, R171: `RALIGN n` discards `p + 8z` bits, whatever they are, returns that
number, performs `z` fetches, and leaves `bitIndex` 0 with a byte count that is `c' + z` and a multiple
of `n`. -/
def Obligations.AlignReaderDiscards : Prop :=
  ∀ (s : State) (n : Nat), 0 < n → s.r.ready → s.r.yields (s.r.alignBits n) →
    ∃ t, exec (.ralign n) s = .next t
      ∧ Consumed (s.r.alignBits n) (BitVec.ofNat 64 (s.r.alignBits n)) s t
      ∧ t.r.bitIndex = 0 ∧ t.r.byteCount.toNat % n = 0
      ∧ t.r.byteCount.toNat = s.r.byteCount.toNat + (if 0 < s.r.bitIndex.toNat then 1 else 0)
          + (n - (s.r.byteCount.toNat + (if 0 < s.r.bitIndex.toNat then 1 else 0)) % n) % n
      ∧ t.r.taken.length = s.r.taken.length
          + (n - (s.r.byteCount.toNat + (if 0 < s.r.bitIndex.toNat then 1 else 0)) % n) % n

/-- 46_reader_align_status.md R172, R173, R174: the reader's status reads return their register and change
nothing, faulted or not. -/
def Obligations.ReaderStatusReads : Prop :=
  ∀ s : State, s.r.busy = false →
    (∃ t, exec .rcount s = .next t ∧ ReaderAnswered 0 s.r.byteCount s.r.fault s t)
    ∧ (∃ t, exec .rindex s = .next t ∧ ReaderAnswered 0 (s.r.bitIndex.setWidth 64) s.r.fault s t)
    ∧ (∃ t, exec .rstatus s = .next t ∧ ReaderAnswered 0 (s.r.fault.setWidth 64) s.r.fault s t)

/-- 44_reader_primitives.md R139, 60_exceptions.md R197, R198, R203: where the source yields the bytes `bs` and
then ends, or fails, before a command has its bits, the command ends with `UnexpectedEndOfInput`, or
`IOFailure`: the bytes stay consumed, nothing more is asked, no value is returned, the cause is latched. -/
def Obligations.EndedSourceEndsRead : Prop :=
  ∀ (s : State) (i : Instr) (n : Nat) (bs : List Byte) (later : List SourceReply),
    s.r.ready → consumedSize s.r.toUnitState i = some n →
    bs.length < s.r.fetches n →
    s.r.byteCount.toNat + (if 0 < s.r.bitIndex.toNat then 1 else 0) + bs.length < 2 ^ 64 →
    (s.r.source = bs.map .byte ++ .endOfData :: later →
      ∃ t, exec i s = .next t ∧ t.r.fault = 5 ∧ t.r.busy = false
        ∧ t.r.responses = s.r.responses ++ [⟨5, 0⟩]
        ∧ t.r.taken = s.r.taken ++ bs ∧ t.r.source = later ∧ t.w = s.w ∧ t.host = s.host)
    ∧ (s.r.source = bs.map .byte ++ .ioFail :: later →
      ∃ t, exec i s = .next t ∧ t.r.fault = 6 ∧ t.r.busy = false
        ∧ t.r.responses = s.r.responses ++ [⟨6, 0⟩]
        ∧ t.r.taken = s.r.taken ++ bs ∧ t.r.source = later ∧ t.w = s.w ∧ t.host = s.host)

/-- The model's choice (log entry 7): a source whose listed replies are used up answers `end_of_data`, so a
command that needs more bytes than are listed ends as 44_reader_primitives.md R139 says. -/
def Obligations.UnlistedReplyEndsRead : Prop :=
  ∀ (s : State) (i : Instr) (n : Nat) (bs : List Byte),
    s.r.ready → consumedSize s.r.toUnitState i = some n →
    bs.length < s.r.fetches n →
    s.r.byteCount.toNat + (if 0 < s.r.bitIndex.toNat then 1 else 0) + bs.length < 2 ^ 64 →
    s.r.source = bs.map .byte →
    ∃ t, exec i s = .next t ∧ t.r.fault = 5 ∧ t.r.busy = false
      ∧ t.r.responses = s.r.responses ++ [⟨5, 0⟩]
      ∧ t.r.taken = s.r.taken ++ bs ∧ t.r.source = [] ∧ t.w = s.w ∧ t.host = s.host

/-- 20_memory.md R35, U3: where the source never answers, there is no response and no fault, and the unit
stays inside the command with the bytes it was given. -/
def Obligations.SilentSourceKeepsUnitBusy : Prop :=
  ∀ (s : State) (i : Instr) (n : Nat) (bs : List Byte) (later : List SourceReply),
    s.r.ready → consumedSize s.r.toUnitState i = some n →
    bs.length < s.r.fetches n →
    s.r.byteCount.toNat + (if 0 < s.r.bitIndex.toNat then 1 else 0) + bs.length < 2 ^ 64 →
    s.r.source = bs.map .byte ++ .noReply :: later →
    ∃ t, exec i s = .next t ∧ t.r.busy = true ∧ t.r.fault = 0 ∧ t.r.responses = s.r.responses
      ∧ t.r.taken = s.r.taken ++ bs ∧ t.w = s.w ∧ t.host = s.host

/-- Frame of every command of `BR` (20_memory.md R30, R37, 10_state.md R10): however it ends, the bytes taken
earlier stay as they were, the replies used are one `byte` for each further byte taken and after them at most
the `end_of_data` or `io_fail` that was raised, and the writer, its sink and the hosts' list are as before. -/
def Obligations.ReadCommandsFrame : Prop :=
  ∀ (i : Instr) (s t : State), i.unit = .br → exec i s = .next t →
    (∀ k, k < s.r.taken.length → t.r.taken[k]? = s.r.taken[k]?)
    ∧ (∃ (bs : List Byte) (tail : List SourceReply), s.r.source = bs.map .byte ++ tail ++ t.r.source
      ∧ t.r.taken = s.r.taken ++ bs
      ∧ (tail = [] ∨ tail = [.endOfData] ∧ t.r.fault = 5 ∨ tail = [.ioFail] ∧ t.r.fault = 6))
    ∧ t.w = s.w ∧ t.host = s.host
    ∧ (i.isStatusRead = true → t.r.taken = s.r.taken ∧ t.r.source = s.r.source
      ∧ t.r.pendingBits = s.r.pendingBits ∧ t.r.bitIndex = s.r.bitIndex
      ∧ t.r.byteCount = s.r.byteCount ∧ t.r.fault = s.r.fault)

/-! ### Both units -/

/-- 44_reader_primitives.md R138, 45_reader_values.md R160, T1: a value written by `WLONG` at any stream position,
the writer then aligned to a byte, is read back by `RLONG` of the same size and signedness at the same
position of those bytes: a signed read returns a value in the signed range, and an unsigned read one in
the unsigned range, unchanged. -/
def Obligations.LongRoundTrip : Prop :=
  ∀ (s s₁ s₂ q : State) (unsigned : Bool) (size : Nat) (value : Value),
    1 ≤ size → size ≤ (if unsigned then 64 else 63) →
    (unsigned = true → value.toNat < 2 ^ size) →
    (unsigned = false → -2 ^ (size - 1) ≤ value.toInt ∧ value.toInt < 2 ^ (size - 1)) →
    s.w.ready → exec (.wlong unsigned size value) s = .next s₁ → exec (.walign 1) s₁ = .next s₂ →
    s₂.w.ready →
    q.r.ready → q.r.upcoming = (bitsOfBytes s₂.w.out).drop s.w.stream.length → q.r.countFits size →
    ∃ t, exec (.rlong unsigned size) q = .next t ∧ Consumed size value q t

/-- 47_object_boundary.md R182, R184: the presence bit `WOBJN` writes first is what decides whether `ROBJN` goes on
to its decoder: a reader that stands on the bit written for an absent value issues nothing more, on the bit
written for a present one issues the decoder's sequence. That the sink accepts the byte the bit
may complete, where no reply is listed, is the model's choice (log entry 6). -/
def Obligations.PresenceBitDecidesRobjn : Prop :=
  ∀ (s q : State) (value : Option (List Instr)) (decoder : List Instr) (first : Instr) (rest : List Instr)
    (others : List Bool),
    s.w.ready → s.w.accepts 1 → expandWobjn value = first :: rest →
    q.r.ready → q.r.countFits 1 →
    ∃ t b, exec first s = .next t ∧ t.w.stream = s.w.stream ++ [b] ∧
      (q.r.upcoming = b :: others → ∃ u x, exec .rbool q = .next u ∧ u.r.responses = q.r.responses ++ [x]
        ∧ x.status = 0
        ∧ continueRobjn x.result decoder = (if value.isSome then decoder else []))
end

