-- ==== Sys2Proof/Laws/Bits.lean ====
section
/-! SUPPORT. Bits, cells and bytes: the loaded cells are the bits of the byte, the assembled byte is the bits
of the cells, and lists of bits against numbers. -/

namespace Sys2Proof.Machine

@[simp] theorem bitsOfByte_length (b : Byte) : (bitsOfByte b).length = 8 := rfl

@[simp] theorem bitsOfBytes_nil : bitsOfBytes [] = [] := rfl

@[simp] theorem bitsOfBytes_cons (b : Byte) (bs : List Byte) :
    bitsOfBytes (b :: bs) = bitsOfByte b ++ bitsOfBytes bs := rfl

@[simp] theorem bitsOfBytes_append (bs cs : List Byte) :
    bitsOfBytes (bs ++ cs) = bitsOfBytes bs ++ bitsOfBytes cs := by
  simp [bitsOfBytes]

@[simp] theorem bitsOfBytes_length (bs : List Byte) : (bitsOfBytes bs).length = 8 * bs.length := by
  induction bs with
  | nil => rfl
  | cons b bs ih => simp [ih]; omega

/-- The cells a byte is loaded into are its bits, most significant first (10_state.md R16). -/
@[simp] theorem cellsOfByte_toList (b : Byte) : (cellsOfByte b).toList = bitsOfByte b := rfl

/-- The bits of an assembled byte are the cells, first placed first (41_writer_primitives.md R82). -/
@[simp] theorem bitsOfByte_assembleByte (cells : Vector Bool 8) :
    bitsOfByte (assembleByte cells) = cells.toList := by
  obtain ⟨⟨l⟩, h⟩ := cells
  match l, h with
  | [a, b, c, d, e, f, g, i], _ =>
    revert a b c d e f g i
    decide

@[simp] theorem topDown_zero (v : Value) : topDown 0 v = [] := rfl

theorem topDown_succ (k : Nat) (v : Value) : topDown (k + 1) v = v.getLsbD k :: topDown k v := rfl

@[simp] theorem topDown_length (size : Nat) (v : Value) : (topDown size v).length = size := by
  induction size with
  | zero => rfl
  | succ k ih => simp [topDown_succ, ih]

/-- Two values agree on their low bits when they agree bit by bit below the size. -/
theorem topDown_congr {size : Nat} {v x : Value} (h : ∀ k, k < size → v.getLsbD k = x.getLsbD k) :
    topDown size v = topDown size x := by
  induction size with
  | zero => rfl
  | succ k ih =>
    rw [topDown_succ, topDown_succ, h k (Nat.lt_succ_self k), ih fun j hj => h j (Nat.lt_succ_of_lt hj)]

theorem topDown_inj {size : Nat} {v x : Value} (h : topDown size v = topDown size x) :
    ∀ k, k < size → v.getLsbD k = x.getLsbD k := by
  induction size with
  | zero => intro k hk; omega
  | succ n ih =>
    rw [topDown_succ, topDown_succ] at h
    injection h with h₁ h₂
    intro k hk
    rcases Nat.lt_succ_iff_lt_or_eq.mp hk with hk | rfl
    · exact ih h₂ k hk
    · exact h₁

/-- The high bits of a chunk come first (41_writer_primitives.md R85, R90). -/
theorem topDown_add (m n : Nat) (v : Value) : topDown (m + n) v = topDown m (v >>> n) ++ topDown n v := by
  induction m with
  | zero => simp
  | succ k ih =>
    rw [Nat.add_right_comm, topDown_succ, ih, topDown_succ, List.cons_append]
    simp [Nat.add_comm]

theorem topDown_eight (v : Value) : topDown 8 v = bitsOfByte (v.setWidth 8) := by
  simp [topDown, bitsOfByte]

@[simp] theorem topDown_zeros (size : Nat) : topDown size 0#64 = List.replicate size false := by
  induction size with
  | zero => rfl
  | succ k ih => simp [topDown_succ, ih, List.replicate_succ]

theorem lowField_getLsbD (n k : Nat) (v : Value) :
    (lowField n v).getLsbD k = (decide (k < 64) && (decide (k < n) && v.getLsbD k)) := by
  simp [lowField]

/-- The low bits of an operand slice are those of the value (30_encoding.md R53). -/
theorem topDown_lowField {size n : Nat} (h : size ≤ n) (v : Value) :
    topDown size (lowField n v) = topDown size v := by
  apply topDown_congr
  intro k hk
  rw [lowField_getLsbD]
  by_cases h64 : k < 64
  · simp [h64, show k < n by omega]
  · simp [h64, BitVec.getLsbD_of_ge v k (by omega)]

theorem bitsToNat_append (bs : List Bool) (b : Bool) :
    bitsToNat (bs ++ [b]) = 2 * bitsToNat bs + b.toNat := by
  simp [bitsToNat]

theorem bitsToNat_lt (bs : List Bool) : bitsToNat bs < 2 ^ bs.length := by
  induction bs using List.reverseRecOn with
  | nil => simp [bitsToNat]
  | append_singleton bs b ih =>
    rw [bitsToNat_append, List.length_append, List.length_singleton, Nat.pow_succ]
    cases b <;> simp <;> omega

/-- A byte is its bits (20_memory.md R33). -/
theorem bitsOfByte_inj {b c : Byte} (h : bitsOfByte b = bitsOfByte c) : b = c := by
  simp [bitsOfByte] at h
  apply BitVec.eq_of_getLsbD_eq
  intro i hi
  obtain ⟨h7, h6, h5, h4, h3, h2, h1, h0⟩ := h
  interval_cases i <;> assumption

theorem getLsbD_bitValue (b : Bool) (k : Nat) : (bitValue b).getLsbD k = (decide (k = 0) && b) := by
  cases b <;> simp [bitValue]

/-! ### Bits read onto a value -/

/-- The value after the bits are read onto it, the first most significant (44_reader_primitives.md R138). -/
def accum (v : Value) (bits : List Bool) : Value := bits.foldl (fun v b => (v <<< 1) ||| bitValue b) v

@[simp] theorem accum_nil (v : Value) : accum v [] = v := rfl

@[simp] theorem accum_cons (v : Value) (b : Bool) (bs : List Bool) :
    accum v (b :: bs) = accum ((v <<< 1) ||| bitValue b) bs := rfl

theorem accum_append (v : Value) (bs cs : List Bool) : accum v (bs ++ cs) = accum (accum v bs) cs := by
  simp [accum]

/-- What was there before is shifted up, and the bits are read below it. -/
theorem accum_shift (v : Value) (bs : List Bool) : accum v bs = (v <<< bs.length) ||| accum 0 bs := by
  induction bs generalizing v with
  | nil => simp
  | cons b bs ih =>
    rw [accum_cons, accum_cons, ih, ih (((0 : Value) <<< 1) ||| bitValue b)]
    rw [BitVec.shiftLeft_or_distrib, BitVec.shiftLeft_or_distrib, ← BitVec.shiftLeft_add]
    simp [BitVec.or_assoc, Nat.add_comm]

/-- The low bits of the value read are the bits, in the order read. -/
theorem topDown_accum (v : Value) (bs : List Bool) (h : bs.length ≤ 64) :
    topDown bs.length (accum v bs) = bs := by
  induction bs using List.reverseRecOn with
  | nil => rfl
  | append_singleton bs b ih =>
    simp at h
    rw [accum_append, List.length_append, List.length_singleton, topDown_add, topDown_succ]
    simp only [accum_cons, accum_nil, topDown_zero]
    congr 1
    · refine Eq.trans (topDown_congr fun k hk => ?_) (ih (by omega))
      simp [getLsbD_bitValue]
      omega
    · cases b <;> simp [bitValue]

/-- Above the bits read, a value read from nothing is zero. -/
theorem accum_high (bs : List Bool) (k : Nat) (h : bs.length ≤ k) : (accum 0 bs).getLsbD k = false := by
  induction bs using List.reverseRecOn generalizing k with
  | nil => simp
  | append_singleton bs b ih =>
    simp at h
    rw [accum_append]
    simp [getLsbD_bitValue]
    exact ⟨fun _ _ => ih _ (by omega), fun h => by omega⟩

/-- The value read is the number the bits spell. -/
theorem accum_toNat (bs : List Bool) : accum 0 bs = BitVec.ofNat 64 (bitsToNat bs) := by
  induction bs using List.reverseRecOn with
  | nil => rfl
  | append_singleton bs b ih =>
    rw [accum_append, ih, bitsToNat_append]
    simp only [accum_cons, accum_nil]
    generalize bitsToNat bs = n
    have : (BitVec.ofNat 64 n <<< 1 &&& bitValue b) = 0#64 := by
      apply BitVec.eq_of_getLsbD_eq
      intro i hi
      simp [getLsbD_bitValue]
      intros; omega
    rw [← BitVec.add_eq_or_of_and_eq_zero _ _ this]
    apply BitVec.eq_of_toNat_eq
    cases b <;> simp [bitValue, BitVec.toNat_add, Nat.shiftLeft_eq, Nat.mul_comm]

/-- The bits of one byte spell it. -/
theorem accum_byte (b : Byte) : accum 0 (bitsOfByte b) = b.setWidth 64 := by
  have h := topDown_accum 0 (bitsOfByte b) (by simp)
  have h2 := topDown_eight (b.setWidth 64)
  rw [show (b.setWidth 64).setWidth 8 = b by simp] at h2
  apply BitVec.eq_of_getLsbD_eq
  intro i hi
  by_cases h8 : i < 8
  · exact topDown_inj (h.trans h2.symm) i h8
  · rw [accum_high _ _ (by simp; omega)]
    simp
    intro _
    exact BitVec.getLsbD_of_ge _ _ (by omega)

/-- The sign law bit by bit (45_reader_values.md R160). -/
theorem signExtendFrom_getLsbD (n k : Nat) (v : Value) (h1 : 1 ≤ n) (hn : n ≤ 64) (hk : k < 64) :
    (signExtendFrom n v).getLsbD k = if k < n then v.getLsbD k else v.getLsbD (n - 1) := by
  unfold signExtendFrom
  rw [BitVec.getLsbD_signExtend]
  simp [hk, BitVec.msb_eq_getLsbD_last]
  split
  · simp; intro _; omega
  · simp; intro _; omega

/-! ### Cells -/

/-- A cell write changes that place of the list of cells and no other. -/
theorem setCell_toList (cells : Vector Bool 8) (i : BitVec 3) (b : Bool) :
    (setCell cells i b).toList = cells.toList.set i.toNat b := by
  obtain ⟨⟨l⟩, h⟩ := cells
  rfl

/-- Placing a bit before the eighth extends the live cells by it (41_writer_primitives.md R81). -/
theorem live_setCell {w : Writer} (h : w.bitIndex.toNat < 7) (b : Bool) :
    Writer.live { w with
      pendingBits := setCell w.pendingBits w.bitIndex b, bitIndex := w.bitIndex + 1 } = w.live ++ [b] := by
  have hi : (w.bitIndex + 1).toNat = w.bitIndex.toNat + 1 := by
    rw [BitVec.toNat_add]; simp; omega
  simp only [Writer.live, setCell_toList, hi]
  rw [List.take_succ_eq_append_getElem (by simp; omega), List.take_set_of_le (Nat.le_refl _)]
  simp

/-- The eighth bit completes the byte of the live cells (41_writer_primitives.md R81, R82). -/
theorem eighth_setCell {w : Writer} (h : ¬ w.bitIndex.toNat < 7) (b : Bool) :
    (setCell w.pendingBits w.bitIndex b).toList = w.live ++ [b] := by
  have hi : w.bitIndex.toNat = 7 := by have := w.bitIndex.isLt; omega
  simp only [Writer.live, setCell_toList, hi]
  apply List.ext_getElem
  · simp
  · intro n h1 h2
    simp at h1
    rcases Nat.lt_or_ge n 7 with hn | hn
    · rw [List.getElem_append_left (by simp; omega)]
      simp [show ¬ 7 = n by omega]
    · have : n = 7 := by omega
      subst this
      simp

theorem live_length (w : Writer) : w.live.length = w.bitIndex.toNat := by
  have := w.bitIndex.isLt
  simp [Writer.live]; omega

/-- The unconsumed cells, taken one at a time (44_reader_primitives.md R131). -/
theorem drop_cells (cells : Vector Bool 8) (i : BitVec 3) :
    cells.toList.drop i.toNat = cellAt cells i :: cells.toList.drop (i.toNat + 1) := by
  have := i.isLt
  rw [List.drop_eq_getElem_cons (by simp; omega)]
  simp [cellAt]

/-- One more in a 3-bit index below 7. -/
theorem index_succ {i : BitVec 3} (h : i.toNat < 7) : (i + 1).toNat = i.toNat + 1 ∧ i + 1 ≠ 0 := by
  have hn : (i + 1).toNat = i.toNat + 1 := by
    rw [BitVec.toNat_add]; simp; omega
  exact ⟨hn, fun h0 => by rw [h0] at hn; simp at hn⟩

/-! ### Streams as cells of memory -/

/-- Every stream is in the canonical form, whatever bytes it holds (20_memory.md R32, R36; log entry 10). -/
theorem streamCells_wf (bytes : List Byte) : Memory.wf (streamCells bytes) = true := by
  have h : ((bytes.zipIdx).map Prod.snd).Pairwise (· < ·) := by
    rw [List.zipIdx_map_snd]
    exact List.pairwise_lt_range'
  rw [List.pairwise_map] at h
  exact decide_eq_true (List.pairwise_map.mpr h)

/-- The byte at an address is the byte of that number of the stream (20_memory.md R32, R36). -/
theorem mem_streamCells (bytes : List Byte) (k : Nat) (b : Byte) :
    (k, b) ∈ streamCells bytes ↔ bytes[k]? = some b := by
  simp only [streamCells, List.mem_map, Prod.mk.injEq]
  constructor
  · rintro ⟨⟨x, n⟩, h, rfl, rfl⟩
    exact List.mem_zipIdx_iff_getElem?.mp h
  · intro h
    exact ⟨(b, k), List.mem_zipIdx_iff_getElem?.mpr h, rfl, rfl⟩

/-- The streams right after reset are in the canonical form. -/
theorem reset_streams_wf :
    Memory.wf (streamCells State.reset.w.out) = true ∧ Memory.wf (streamCells State.reset.r.taken) = true :=
  ⟨streamCells_wf _, streamCells_wf _⟩

end Sys2Proof.Machine
end

