-- ==== Sys2Proof/Laws/Decode.lean ====
section
/-! SUPPORT. Words and their fields, opcodes and their bytes. -/

namespace Sys2Proof

/-- The fields of a word built from fields are those fields (30_encoding.md R52). -/
theorem fieldsOf_wordOf (f : Fields) : fieldsOf (wordOf f) = f := by
  obtain ⟨op, r1, u, r2, a, v⟩ := f
  simp only [fieldsOf, wordOf, Fields.mk.injEq]
  refine ⟨?_, ?_, ?_, ?_, ?_, ?_⟩
  · apply BitVec.eq_of_getLsbD_eq; intro i hi
    simp only [BitVec.getLsbD_extractLsb', BitVec.getLsbD_append, hi, decide_true, Bool.true_and]
    rw [if_neg (by omega), if_neg (by omega), if_neg (by omega), if_neg (by omega), if_neg (by omega)]
    rw [show 120 + i - 64 - 32 - 16 - 1 - 7 = i by omega]
  · apply BitVec.eq_of_getLsbD_eq; intro i hi
    simp only [BitVec.getLsbD_extractLsb', BitVec.getLsbD_append, hi, decide_true, Bool.true_and]
    rw [if_neg (by omega), if_neg (by omega), if_neg (by omega), if_neg (by omega), if_pos (by omega)]
    congr 1; omega
  · simp only [BitVec.getLsbD_append]
    rw [if_neg (by omega), if_neg (by omega), if_neg (by omega), if_pos (by omega)]
    cases u <;> rfl
  · apply BitVec.eq_of_getLsbD_eq; intro i hi
    simp only [BitVec.getLsbD_extractLsb', BitVec.getLsbD_append, hi, decide_true, Bool.true_and]
    rw [if_neg (by omega), if_neg (by omega), if_pos (by omega)]
    congr 1; omega
  · apply BitVec.eq_of_getLsbD_eq; intro i hi
    simp only [BitVec.getLsbD_extractLsb', BitVec.getLsbD_append, hi, decide_true, Bool.true_and]
    rw [if_neg (by omega), if_pos (by omega)]
    congr 1; omega
  · apply BitVec.eq_of_getLsbD_eq; intro i hi
    simp only [BitVec.getLsbD_extractLsb', BitVec.getLsbD_append, hi, decide_true, Bool.true_and]
    rw [if_pos (by omega)]
    congr 1; omega

/-- A word is the word of its fields: the six fields are all its bits (30_encoding.md R52). -/
theorem wordOf_fieldsOf (w : CommandWord) : wordOf (fieldsOf w) = w := by
  apply BitVec.eq_of_getLsbD_eq
  intro i hi
  simp only [fieldsOf, wordOf, BitVec.getLsbD_append, BitVec.getLsbD_extractLsb', BitVec.getLsbD_ofBool]
  by_cases h1 : i < 64
  · simp [h1]
  · rw [if_neg h1]
    by_cases h2 : i - 64 < 32
    · rw [if_pos h2, show 64 + (i - 64) = i by omega]; simp [h2]
    · rw [if_neg h2]
      by_cases h3 : i - 64 - 32 < 16
      · rw [if_pos h3, show 96 + (i - 64 - 32) = i by omega]; simp [h3]
      · rw [if_neg h3]
        by_cases h4 : i - 64 - 32 - 16 < 1
        · rw [if_pos h4]
          have : i = 112 := by omega
          subst this; simp
        · rw [if_neg h4]
          by_cases h5 : i - 64 - 32 - 16 - 1 < 7
          · rw [if_pos h5, show 113 + (i - 64 - 32 - 16 - 1) = i by omega]; simp [h5]
          · rw [if_neg h5, show 120 + (i - 64 - 32 - 16 - 1 - 7) = i by omega]
            simp; omega

theorem wordOf_inj {f g : Fields} : wordOf f = wordOf g ↔ f = g :=
  ⟨fun h => by rw [← fieldsOf_wordOf f, h, fieldsOf_wordOf], fun h => by rw [h]⟩

/-- Masking a word masks its fields. -/
theorem wordOf_and (f g : Fields) :
    wordOf f &&& wordOf g = wordOf
      { op := f.op &&& g.op, rsv1 := f.rsv1 &&& g.rsv1, u := f.u && g.u, rsv2 := f.rsv2 &&& g.rsv2,
        arg := f.arg &&& g.arg, value := f.value &&& g.value } := by
  simp only [wordOf, ← BitVec.and_append, ← BitVec.ofBool_and_ofBool]

/-- The fields of an encoded command. -/
theorem fieldsOf_encode (i : Instr) : fieldsOf (encode i) = i.fields := fieldsOf_wordOf _

/-- The byte of an opcode selects that opcode (30_encoding.md R55). -/
theorem ofByte_byte (o : Opcode) : Opcode.ofByte o.byte = some o := by cases o <;> rfl

/-- Only its own byte selects an opcode. -/
theorem byte_of_ofByte {b : BitVec 8} {o : Opcode} (h : Opcode.ofByte b = some o) : b = o.byte := by
  unfold Opcode.ofByte at h
  split at h <;> cases h <;> (apply BitVec.eq_of_toNat_eq; assumption)

theorem byte_inj {o p : Opcode} (h : o.byte = p.byte) : o = p := by
  have := ofByte_byte o
  rw [h, ofByte_byte] at this
  exact (Option.some.inj this).symm

/-- The ways decoding ends: no opcode, a field that must be 0 is not, or the command. -/
theorem decode_cases (w : CommandWord) :
    (Opcode.ofByte (fieldsOf w).op = none ∧ decode w = .error .unknownOpcode)
    ∨ (∃ o, (fieldsOf w).op = o.byte ∧
      ((∃ e, fieldsError o (fieldsOf w) = some e ∧ decode w = .error e)
      ∨ (fieldsError o (fieldsOf w) = none ∧ decode w = .ok (buildInstr o (fieldsOf w))))) := by
  unfold decode
  cases ho : Opcode.ofByte (fieldsOf w).op with
  | none => left; exact ⟨rfl, rfl⟩
  | some o =>
    right
    refine ⟨o, byte_of_ofByte ho, ?_⟩
    cases he : fieldsError o (fieldsOf w) with
    | some e => left; exact ⟨e, rfl, by simp [he]⟩
    | none => right; exact ⟨rfl, by simp [he]⟩

/-- A unit takes only commands of its own (30_encoding.md R56, R62). -/
theorem decodeFor_ok {u : UnitId} {w : CommandWord} {i : Instr} (h : decodeFor u w = .ok i) :
    decode w = .ok i ∧ i.unit = u := by
  unfold decodeFor at h
  split at h
  · cases h
  · rename_i j hj
    split at h <;> cases h
    exact ⟨hj, by assumption⟩

/-- An integer of `ARG`'s range is read back from the field (30_encoding.md R57). -/
theorem toInt_ofInt_arg {a : Int} (h : argInRange a = true) : (BitVec.ofInt 32 a).toInt = a := by
  simp only [argInRange, Bool.and_eq_true, decide_eq_true_eq] at h
  rw [BitVec.toInt_ofInt]
  apply Int.bmod_eq_of_le_mul_two <;> omega

end Sys2Proof
end

