-- ==== Sys2Proof/Laws/Micro.lean ====
section
/-! SUPPORT. Procedures: how their sequence ends, and how a relation that each part keeps is kept by the
whole. -/

namespace Sys2Proof.Machine

@[simp] theorem Micro.bind_done {σ α β : Type} (a : α) (u : σ) (f : α → σ → Micro σ β) :
    (Micro.done a u).bind f = f a u := rfl

@[simp] theorem Micro.bind_raised {σ α β : Type} (c : Cause) (u : σ) (f : α → σ → Micro σ β) :
    (Micro.raised c u).bind f = .raised c u := rfl

@[simp] theorem Micro.bind_hung {σ α β : Type} (u : σ) (f : α → σ → Micro σ β) :
    (Micro.hung u).bind f = .hung u := rfl

@[simp] theorem Micro.bind_overflow {σ α β : Type} (f : α → σ → Micro σ β) :
    (Micro.overflow : Micro σ α).bind f = .overflow := rfl

@[simp] theorem Micro.map_done {σ α β : Type} (f : α → β) (a : α) (u : σ) :
    (Micro.done a u).map f = .done (f a) u := rfl

@[simp] theorem Micro.map_raised {σ α β : Type} (f : α → β) (c : Cause) (u : σ) :
    (Micro.raised c u).map f = .raised c u := rfl

@[simp] theorem Micro.map_hung {σ α β : Type} (f : α → β) (u : σ) :
    (Micro.hung u).map f = .hung u := rfl

@[simp] theorem Micro.map_overflow {σ α β : Type} (f : α → β) :
    (Micro.overflow : Micro σ α).map f = .overflow := rfl

theorem Micro.bind_assoc {σ α β γ : Type} (m : Micro σ α) (f : α → σ → Micro σ β)
    (g : β → σ → Micro σ γ) : (m.bind f).bind g = m.bind fun a u => (f a u).bind g := by
  cases m <;> rfl

theorem Micro.bind_unit {σ : Type} (m : Micro σ Unit) : (m.bind fun _ x => .done () x) = m := by
  cases m <;> rfl

theorem Micro.map_id {σ α : Type} (m : Micro σ α) : m.map id = m := by
  cases m <;> rfl

/-! ### What every way of ending satisfies -/

/-- One predicate for each way a procedure ends; an overflow is outside the spec (log entry 13). -/
def Micro.ends {σ α : Type} (done : σ → Prop) (raised : Cause → σ → Prop) (hung : σ → Prop) :
    Micro σ α → Prop
  | .done _ x => done x
  | .raised c x => raised c x
  | .hung x => hung x
  | .overflow => True

/-- Relations from the start of a procedure to its end, one for each way of ending, that compose. -/
structure Composes {σ : Type} (D : σ → σ → Prop) (F : Cause → σ → σ → Prop) (H : σ → σ → Prop) : Prop where
  refl : ∀ w, D w w
  done : ∀ {w x y}, D w x → D x y → D w y
  raised : ∀ {c w x y}, D w x → F c x y → F c w y
  hung : ∀ {w x y}, D w x → H x y → H w y

/-- A procedure keeps these relations from every state. -/
abbrev Obeys {σ α : Type} (D : σ → σ → Prop) (F : Cause → σ → σ → Prop) (H : σ → σ → Prop)
    (m : σ → Micro σ α) : Prop :=
  ∀ w, (m w).ends (D w) (fun c => F c w) (H w)

section
variable {σ α β : Type} {D : σ → σ → Prop} {F : Cause → σ → σ → Prop} {H : σ → σ → Prop}

theorem Composes.pure (k : Composes D F H) (a : α) : Obeys D F H fun w => .done a w := fun w => k.refl w

/-- A sequence keeps what both parts keep. -/
theorem Composes.bind (k : Composes D F H) {m : σ → Micro σ α} {f : α → σ → Micro σ β}
    (hm : Obeys D F H m) (hf : ∀ a, Obeys D F H (f a)) : Obeys D F H fun w => (m w).bind f := by
  intro w
  have h := hm w
  show ((m w).bind f).ends _ _ _
  cases hw : m w with
  | done a x =>
    rw [hw] at h
    show (f a x).ends _ _ _
    have h2 := hf a x
    cases hx : f a x with
    | done b y => rw [hx] at h2; exact k.done h h2
    | raised c y => rw [hx] at h2; exact k.raised h h2
    | hung y => rw [hx] at h2; exact k.hung h h2
    | overflow => trivial
  | raised c x => rw [hw] at h; exact h
  | hung x => rw [hw] at h; exact h
  | overflow => trivial

theorem Composes.map (k : Composes D F H) {m : σ → Micro σ α} (f : α → β) (hm : Obeys D F H m) :
    Obeys D F H fun w => (m w).map f := k.bind hm fun a => k.pure (f a)

/-- A choice on the state keeps what both branches keep. -/
theorem obeys_ite {p : σ → Prop} [DecidablePred p] {m n : σ → Micro σ α} (hm : Obeys D F H m)
    (hn : Obeys D F H n) : Obeys D F H fun w => if p w then m w else n w := by
  intro w
  show (if p w then m w else n w).ends _ _ _
  split
  · exact hm w
  · exact hn w
end

/-! ### Ending alike -/

/-- Two procedures of `BW` that end alike but for dead cells (10_state.md R13). -/
abbrev WriterAlike {α : Type} : Micro Writer α → Micro Writer α → Prop :=
  Micro.endsLike Writer.sameButDead Writer.sameTransactions

/-- Two procedures of `BR` that end alike but for dead cells (10_state.md R16). -/
abbrev ReaderAlike {α : Type} : Micro Reader α → Micro Reader α → Prop :=
  Micro.endsLike Reader.sameButDead Reader.sameTransactions

theorem Writer.sameButDead_refl (w : Writer) : w.sameButDead w := by constructor <;> rfl

theorem Writer.sameButDead_trans {w x y : Writer} (h : w.sameButDead x) (k : x.sameButDead y) :
    w.sameButDead y := by
  constructor
  · exact h.live.trans k.live
  · exact h.index.trans k.index
  · exact h.count.trans k.count
  · exact h.out.trans k.out
  · exact h.sink.trans k.sink
  · exact h.fault.trans k.fault
  · exact h.busy.trans k.busy
  · exact h.draws.trans k.draws
  · exact h.responses.trans k.responses

theorem Writer.sameTransactions_refl (w : Writer) : w.sameTransactions w := by constructor <;> rfl

theorem Writer.sameTransactions_trans {w x y : Writer} (h : w.sameTransactions x)
    (k : x.sameTransactions y) : w.sameTransactions y := by
  constructor
  · exact h.out.trans k.out
  · exact h.sink.trans k.sink
  · exact h.fault.trans k.fault
  · exact h.busy.trans k.busy
  · exact h.draws.trans k.draws
  · exact h.responses.trans k.responses

theorem Reader.sameButDead_refl (r : Reader) : r.sameButDead r := by constructor <;> rfl

theorem Reader.sameButDead_trans {r x y : Reader} (h : r.sameButDead x) (k : x.sameButDead y) :
    r.sameButDead y := by
  constructor
  · exact h.unconsumed.trans k.unconsumed
  · exact h.index.trans k.index
  · exact h.count.trans k.count
  · exact h.taken.trans k.taken
  · exact h.source.trans k.source
  · exact h.fault.trans k.fault
  · exact h.busy.trans k.busy
  · exact h.draws.trans k.draws
  · exact h.responses.trans k.responses

theorem Reader.sameTransactions_refl (r : Reader) : r.sameTransactions r := by constructor <;> rfl

theorem Reader.sameTransactions_trans {r x y : Reader} (h : r.sameTransactions x)
    (k : x.sameTransactions y) : r.sameTransactions y := by
  constructor
  · exact h.taken.trans k.taken
  · exact h.source.trans k.source
  · exact h.fault.trans k.fault
  · exact h.busy.trans k.busy
  · exact h.draws.trans k.draws
  · exact h.responses.trans k.responses

section
variable {σ α β : Type} {L T : σ → σ → Prop}

theorem endsLike_refl (hL : ∀ u, L u u) (hT : ∀ u, T u u) (m : Micro σ α) : m.endsLike L T m := by
  cases m
  · exact ⟨rfl, hL _⟩
  · exact ⟨rfl, hT _⟩
  · exact hT _
  · trivial

theorem endsLike_trans (hL : ∀ {u v w}, L u v → L v w → L u w) (hT : ∀ {u v w}, T u v → T v w → T u w)
    {m n o : Micro σ α} (h : m.endsLike L T n) (k : n.endsLike L T o) : m.endsLike L T o := by
  match m, n, o, h, k with
  | .done _ _, .done _ _, .done _ _, h, k => exact ⟨h.1.trans k.1, hL h.2 k.2⟩
  | .raised _ _, .raised _ _, .raised _ _, h, k => exact ⟨h.1.trans k.1, hT h.2 k.2⟩
  | .hung _, .hung _, .hung _, h, k => exact hT h k
  | .overflow, .overflow, .overflow, _, _ => trivial

/-- Sequences of parts that end alike end alike. -/
theorem endsLike_bind {m n : Micro σ α} {f g : α → σ → Micro σ β} (h : m.endsLike L T n)
    (hf : ∀ a x y, m = .done a x → n = .done a y → L x y → (f a x).endsLike L T (g a y)) :
    (m.bind f).endsLike L T (n.bind g) := by
  match m, n, h with
  | .done a x, .done b y, h => obtain ⟨rfl, h⟩ := h; exact hf _ _ _ rfl rfl h
  | .raised _ _, .raised _ _, h => exact h
  | .hung _, .hung _, h => exact h
  | .overflow, .overflow, h => exact h

theorem endsLike_map {m n : Micro σ α} (f : α → β) (h : m.endsLike L T n) :
    (m.map f).endsLike L T (n.map f) :=
  endsLike_bind h fun _ _ _ _ _ hs => ⟨rfl, hs⟩
end

end Sys2Proof.Machine
end

