-- ==== Sys2Proof/Laws/Reader.lean ====
section
/-! SUPPORT. The reader's micro-operations: what each can do, and what every procedure made of them keeps. -/

namespace Sys2Proof.Machine

/-- Counting a byte is defined below `2^64 - 1` only (10_state.md R14, R17, U6). -/
theorem countRead_cases (r : Reader) :
    (r.byteCount.toNat + 1 < 2 ^ 64 ∧ countRead r = .done () { r with byteCount := r.byteCount + 1 })
    ∨ (r.byteCount.toNat = 2 ^ 64 - 1 ∧ countRead r = .overflow) := by
  unfold countRead
  split <;> rename_i h
  · right; simp [h]
  · left
    refine ⟨?_, rfl⟩
    have := r.byteCount.isLt
    have : r.byteCount.toNat ≠ 2 ^ 64 - 1 := fun e => h (BitVec.eq_of_toNat_eq (by simpa using e))
    omega

/-- The bytes a source yields after the first `k`. -/
theorem sourceBytes_drop (s : List SourceReply) (k : Nat) (h : k ≤ (sourceBytes s).length) :
    sourceBytes (s.drop k) = (sourceBytes s).drop k := by
  induction k generalizing s with
  | zero => rfl
  | succ k ih =>
    match s with
    | [] => simp [sourceBytes] at h
    | .byte b :: rest => simp [sourceBytes] at h ⊢; exact ih rest h
    | .endOfData :: rest => simp [sourceBytes] at h
    | .ioFail :: rest => simp [sourceBytes] at h
    | .noReply :: rest => simp [sourceBytes] at h

/-- A source that yields given bytes and then something else yields those bytes. -/
theorem sourceBytes_map (bs : List Byte) (tail : List SourceReply) (h : sourceBytes tail = []) :
    sourceBytes (bs.map .byte ++ tail) = bs := by
  induction bs with
  | nil => exact h
  | cons b bs ih => simp [sourceBytes, ih]

/-! ### Bits consumed -/

/-- From `r` to `x` the bits were consumed, and nothing else was done. -/
structure Pulled (bits : List Bool) (r x : Reader) : Prop where
  upcoming : r.upcoming = bits ++ x.upcoming
  index : x.bitIndex.toNat = (r.bitIndex.toNat + bits.length) % 8
  count : x.byteCount.toNat = r.byteCount.toNat + r.completes bits.length
  taken : x.taken = r.taken ++ (sourceBytes r.source).take (r.fetches bits.length)
  source : x.source = r.source.drop (r.fetches bits.length)
  enough : r.fetches bits.length ≤ (sourceBytes r.source).length
  fault : x.fault = r.fault
  busy : x.busy = r.busy
  draws : x.draws = r.draws
  responses : x.responses = r.responses

theorem pulled_nil (r : Reader) : Pulled [] r r := by
  have := r.bitIndex.isLt
  have h : r.completes 0 = 0 := by simp [UnitState.completes]; omega
  have h' : r.fetches 0 = 0 := rfl
  constructor <;> simp [h, h']
  omega

theorem pulled_completes_add {bits : List Bool} {r x : Reader} (h : Pulled bits r x) (n : Nat) :
    r.completes (bits.length + n) = r.completes bits.length + x.completes n := by
  simp only [UnitState.completes, h.index]; omega

theorem pulled_fetches_add {bits : List Bool} {r x : Reader} (h : Pulled bits r x) (n : Nat) :
    r.fetches (bits.length + n) = r.fetches bits.length + x.fetches n := by
  have := r.bitIndex.isLt
  simp only [UnitState.fetches, h.index]
  rcases Nat.eq_zero_or_pos n with rfl | hn
  · simp
  · rcases Nat.eq_zero_or_pos bits.length with hb | hb
    · simp only [hb, Nat.zero_add, if_true, Nat.add_zero,
        Nat.mod_eq_of_lt (a := r.bitIndex.toNat) (b := 8) (by omega)]
    · simp only [if_neg (show ¬ n = 0 by omega), if_neg (show ¬ bits.length = 0 by omega),
        if_neg (show ¬ bits.length + n = 0 by omega)]
      split <;> split <;> omega

theorem pulled_append {bs cs : List Bool} {r x y : Reader} (h : Pulled bs r x) (k : Pulled cs x y) :
    Pulled (bs ++ cs) r y where
  upcoming := by rw [h.upcoming, k.upcoming, List.append_assoc]
  index := by rw [k.index, h.index, List.length_append]; omega
  count := by rw [k.count, h.count, List.length_append, pulled_completes_add h]; omega
  taken := by
    rw [k.taken, h.taken, List.append_assoc, List.length_append, pulled_fetches_add h, List.take_add,
      h.source, sourceBytes_drop _ _ h.enough]
  source := by rw [k.source, h.source, List.drop_drop, List.length_append, pulled_fetches_add h]
  enough := by
    have := k.enough; have := h.enough
    rw [h.source, sourceBytes_drop _ _ h.enough, List.length_drop] at *
    rw [List.length_append, pulled_fetches_add h]; omega
  fault := k.fault.trans h.fault
  busy := k.busy.trans h.busy
  draws := k.draws.trans h.draws
  responses := k.responses.trans h.responses

/-- Dead cells do not matter to what was consumed (10_state.md R16). -/
theorem pulled_sameButDead {bits : List Bool} {r x y : Reader} (p : Pulled bits r x) (h : y.sameButDead x) :
    Pulled bits r y where
  upcoming := by rw [p.upcoming]; simp only [Reader.upcoming, h.source, h.unconsumed]
  index := by rw [h.index, p.index]
  count := by rw [h.count, p.count]
  taken := by rw [h.taken, p.taken]
  source := by rw [h.source, p.source]
  enough := p.enough
  fault := h.fault.trans p.fault
  busy := h.busy.trans p.busy
  draws := h.draws.trans p.draws
  responses := h.responses.trans p.responses

/-- A source that yields more bits yields fewer. -/
theorem yields_first {m n : Nat} {r : Reader} (h : r.yields (m + n)) : r.yields m := by
  refine ⟨by have := h.1; omega, ?_⟩
  have := h.2; simp only [UnitState.countFits, UnitState.completes] at *; omega

/-- After the first bits, the source yields the rest. -/
theorem yields_rest {bits : List Bool} {n : Nat} {r x : Reader} (h : r.yields (bits.length + n))
    (p : Pulled bits r x) : x.yields n := by
  refine ⟨?_, ?_⟩
  · have := h.1; rw [p.upcoming, List.length_append] at this; omega
  · have := h.2
    simp only [UnitState.countFits] at *
    rw [p.count]
    rw [pulled_completes_add p] at this
    omega

/-- The second half of `PullBit`: the next bit of the loaded byte (44_reader_primitives.md R131). -/
def consumeBit (x : Reader) : Micro Reader Bool :=
  if x.bitIndex.toNat < 7 then
    .done (cellAt x.pendingBits x.bitIndex) { x with bitIndex := x.bitIndex + 1 }
  else (countRead { x with bitIndex := 0 }).map fun _ => cellAt x.pendingBits x.bitIndex

/-- `PullBit` is the fetch, then the bit. -/
theorem pullBit_eq (r : Reader) : pullBit r = (fetchByte r).bind fun _ x => consumeBit x := rfl

/-- What consuming a bit of a loaded byte does when it runs to its end. -/
theorem consumeBit_done {x x' : Reader} {b : Bool} (hx : consumeBit x = .done b x') :
    x.pendingBits.toList.drop x.bitIndex.toNat = b :: x'.unconsumed
    ∧ x'.bitIndex.toNat = (x.bitIndex.toNat + 1) % 8
    ∧ x'.byteCount.toNat = x.byteCount.toNat + x.completes 1
    ∧ x'.taken = x.taken ∧ x'.source = x.source ∧ x'.fault = x.fault
    ∧ x'.busy = x.busy ∧ x'.draws = x.draws ∧ x'.responses = x.responses := by
  have hlt := x.bitIndex.isLt
  have hcell := drop_cells x.pendingBits x.bitIndex
  unfold consumeBit at hx
  split at hx
  · rename_i hi
    injection hx with h1 h2
    subst h1; subst h2
    obtain ⟨hn, hn0⟩ := index_succ hi
    have hc : x.completes 1 = 0 := by simp only [UnitState.completes]; omega
    refine ⟨?_, by simp only [hn]; omega, by simp [hc], rfl, rfl, rfl, rfl, rfl, rfl⟩
    rw [hcell, Reader.unconsumed, if_neg hn0, hn]
  · rename_i hi
    have hc : x.completes 1 = 1 := by simp only [UnitState.completes]; omega
    rcases countRead_cases { x with bitIndex := 0 } with ⟨h1, h2⟩ | ⟨h1, h2⟩
    · rw [h2] at hx
      simp only [Micro.map_done] at hx
      injection hx with e1 e2
      subst e1; subst e2
      have : (x.byteCount + 1).toNat = x.byteCount.toNat + 1 := by
        simp at h1; rw [BitVec.toNat_add]; simp; omega
      refine ⟨?_, by simp; omega, by simp only [this, hc], rfl, rfl, rfl, rfl, rfl, rfl⟩
      rw [hcell]
      simp [Reader.unconsumed]; omega
    · rw [h2] at hx; cases hx

/-- `PullBit` that ran to its end consumed the bit it answers (44_reader_primitives.md R131). -/
theorem pullBit_done {b : Bool} {r x : Reader} (h : pullBit r = .done b x) : Pulled [b] r x := by
  have hlt := r.bitIndex.isLt
  rw [pullBit_eq] at h
  unfold fetchByte at h
  by_cases h0 : r.bitIndex = 0
  · have hi : r.bitIndex.toNat = 0 := by rw [h0]; rfl
    have hf : r.fetches 1 = 1 := by simp [UnitState.fetches, hi]
    simp only [h0, if_true, srcNext] at h
    cases hs : r.source with
    | nil => rw [hs] at h; cases h
    | cons s rest =>
      rw [hs] at h
      cases s with
      | byte v =>
        simp only [Micro.bind_done] at h
        obtain ⟨k1, k2, k3, k4, k5, k6, k7, k8, k9⟩ := consumeBit_done
          (x := { r with pendingBits := cellsOfByte v, taken := r.taken ++ [v], source := rest })
          (by simpa [h0] using h)
        simp only [hi, List.drop_zero, cellsOfByte_toList] at k1
        constructor
        · simp only [Reader.upcoming, Reader.unconsumed, h0, if_true, hs, k5]
          simp [sourceBytes, k1, Reader.unconsumed]
        · simpa using k2
        · exact k3
        · simp [hf, hs, sourceBytes, k4]
        · simp [hf, hs, k5]
        · simp [hf, hs, sourceBytes]
        · exact k6
        · exact k7
        · exact k8
        · exact k9
      | endOfData => cases h
      | ioFail => cases h
      | noReply => cases h
  · have hi : r.bitIndex.toNat ≠ 0 := fun e => h0 (BitVec.eq_of_toNat_eq (by simpa using e))
    have hf : r.fetches 1 = 0 := by
      simp only [UnitState.fetches]; rw [if_neg (by omega), if_pos (by omega)]; omega
    simp only [h0, if_false, Micro.bind_done] at h
    obtain ⟨k1, k2, k3, k4, k5, k6, k7, k8, k9⟩ := consumeBit_done h
    constructor
    · simp only [Reader.upcoming, k5]
      rw [show r.unconsumed = r.pendingBits.toList.drop r.bitIndex.toNat by
        rw [Reader.unconsumed, if_neg h0], k1]
      simp
    · simpa using k2
    · exact k3
    · simp [hf, k4]
    · simp [hf, k5]
    · simp [hf]
    · exact k6
    · exact k7
    · exact k8
    · exact k9

/-- `PullBit` with a yielding source runs to its end. -/
theorem pullBit_yields {r : Reader} (h : r.yields 1) : ∃ b x, pullBit r = .done b x := by
  have hlt := r.bitIndex.isLt
  have fin : ∀ x : Reader, x.bitIndex = r.bitIndex → x.byteCount = r.byteCount →
      ∃ b y, consumeBit x = .done b y := by
    intro x h1 h2
    unfold consumeBit
    split
    · exact ⟨_, _, rfl⟩
    · rename_i hi
      rcases countRead_cases { x with bitIndex := 0 } with ⟨_, k⟩ | ⟨k, _⟩
      · rw [k]; exact ⟨_, _, rfl⟩
      · have := h.2
        simp only [UnitState.countFits, UnitState.completes] at this
        simp only at k
        rw [h1] at hi; rw [h2] at k; omega
  rw [pullBit_eq]
  unfold fetchByte
  by_cases h0 : r.bitIndex = 0
  · simp only [h0, if_true, srcNext]
    have h1 := h.1
    simp only [Reader.upcoming, Reader.unconsumed, h0, if_true] at h1
    cases hs : r.source with
    | nil => simp [hs, sourceBytes] at h1
    | cons s rest =>
      cases s with
      | byte v =>
        simp only [Micro.bind_done]
        simpa [h0] using fin { r with pendingBits := cellsOfByte v, taken := r.taken ++ [v], source := rest }
          rfl rfl
      | endOfData => simp [hs, sourceBytes] at h1
      | ioFail => simp [hs, sourceBytes] at h1
      | noReply => simp [hs, sourceBytes] at h1
  · simp only [h0, if_false, Micro.bind_done]
    exact fin r rfl rfl

/-- The flat loop that ran to its end consumed the bits its value spells. -/
theorem pullBits_done {k : Nat} {v c : Value} {r x : Reader} (h : pullBits k v r = .done c x) :
    ∃ bits, bits.length = k ∧ c = accum v bits ∧ Pulled bits r x := by
  induction k generalizing v r with
  | zero =>
    simp only [pullBits] at h
    injection h with h1 h2
    subst h1; subst h2
    exact ⟨[], rfl, rfl, pulled_nil _⟩
  | succ k ih =>
    simp only [pullBits] at h
    cases hb : pullBit r with
    | done b y =>
      rw [hb] at h
      obtain ⟨bits, h1, h2, h3⟩ := ih h
      exact ⟨b :: bits, by simp [h1], by simp [h2], pulled_append (pullBit_done hb) h3⟩
    | raised c y => rw [hb] at h; cases h
    | hung y => rw [hb] at h; cases h
    | overflow => rw [hb] at h; cases h

/-- The flat loop with a yielding source consumes the next bits (44_reader_primitives.md R138). -/
theorem pullBits_yields (k : Nat) (v : Value) {r : Reader} (h : r.yields k) :
    ∃ x, pullBits k v r = .done (accum v (r.upcoming.take k)) x ∧ Pulled (r.upcoming.take k) r x := by
  suffices ∃ c x, pullBits k v r = .done c x by
    obtain ⟨c, x, hx⟩ := this
    obtain ⟨bits, h1, h2, h3⟩ := pullBits_done hx
    have : r.upcoming.take k = bits := by rw [h3.upcoming, ← h1]; simp
    exact ⟨x, by rw [hx, h2, this], by rw [this]; exact h3⟩
  induction k generalizing v r with
  | zero => exact ⟨_, _, rfl⟩
  | succ k ih =>
    rw [Nat.add_comm] at h
    obtain ⟨b, y, hy⟩ := pullBit_yields (yields_first h)
    obtain ⟨c, x, hx⟩ := ih ((v <<< 1) ||| bitValue b) (yields_rest (bits := [b]) h (pullBit_done hy))
    exact ⟨c, x, by simp [pullBits, hy, hx]⟩

/-- The flat loop in two parts. -/
theorem pullBits_add (m n : Nat) (v : Value) (r : Reader) :
    pullBits (m + n) v r = (pullBits m v r).bind fun c x => pullBits n c x := by
  induction m generalizing v r with
  | zero => simp [pullBits]
  | succ k ih =>
    rw [Nat.add_right_comm]
    simp only [pullBits, Micro.bind_assoc]
    congr 1; funext b x; exact ih _ x

/-- What the flat loop starts from is shifted up above what it reads. -/
theorem pullBits_shift (k : Nat) (v : Value) (r : Reader) :
    pullBits k v r = (pullBits k 0 r).map fun c => (v <<< k) ||| c := by
  have key : ∀ v', (pullBits k v' r).map (fun _ => ()) = (pullBits k v r).map (fun _ => ()) := by
    intro v'
    induction k generalizing v v' r with
    | zero => rfl
    | succ k ih =>
      simp only [pullBits, Micro.map, Micro.bind_assoc]
      congr 1; funext b x; exact ih _ x _
  have := key 0
  cases h0 : pullBits k 0 r with
  | done c x =>
    rw [h0] at this
    cases h1 : pullBits k v r with
    | done d y =>
      rw [h1] at this
      injection this with _ hxy
      subst hxy
      obtain ⟨bits, l1, l2, l3⟩ := pullBits_done h0
      obtain ⟨bits', l1', l2', l3'⟩ := pullBits_done h1
      have : bits = bits' := List.append_cancel_right (l3.upcoming.symm.trans l3'.upcoming)
      subst this
      rw [l2, l2', accum_shift, ← l1]; rfl
    | raised c y => rw [h1] at this; cases this
    | hung y => rw [h1] at this; cases this
    | overflow => rw [h1] at this; cases this
  | raised c x =>
    rw [h0] at this
    cases h1 : pullBits k v r <;> rw [h1] at this <;> cases this
    rfl
  | hung x =>
    rw [h0] at this
    cases h1 : pullBits k v r <;> rw [h1] at this <;> cases this
    rfl
  | overflow =>
    rw [h0] at this
    cases h1 : pullBits k v r <;> rw [h1] at this <;> cases this
    rfl

/-! ### Dead cells -/

/-- Consuming a bit reads only what is left of the loaded byte (10_state.md R16). -/
theorem consumeBit_alike {r x : Reader} (h : r.bitIndex = x.bitIndex)
    (hp : r.pendingBits.toList.drop r.bitIndex.toNat = x.pendingBits.toList.drop x.bitIndex.toNat)
    (e1 : r.byteCount = x.byteCount) (e2 : r.taken = x.taken) (e3 : r.source = x.source)
    (e4 : r.fault = x.fault) (e5 : r.busy = x.busy) (e6 : r.draws = x.draws)
    (e7 : r.responses = x.responses) : ReaderAlike (consumeBit r) (consumeBit x) := by
  rw [drop_cells, drop_cells] at hp
  injection hp with hp1 hp2
  unfold consumeBit countRead
  rw [← h, hp1, ← e1]
  by_cases hi : r.bitIndex.toNat < 7
  · simp only [hi, if_true]
    refine ⟨by rw [h], ?_⟩
    obtain ⟨hn, hn0⟩ := index_succ hi
    constructor
    · simp only [Reader.unconsumed, if_neg hn0, hn]; rw [hp2, h]
    · rfl
    · rfl
    all_goals assumption
  · simp only [hi, if_false]
    split
    · trivial
    · refine ⟨by rw [h], ?_⟩
      constructor
      · simp [Reader.unconsumed]
      · rfl
      · rfl
      all_goals assumption

/-- `PullBit` does not read dead cells. -/
theorem pullBit_alike {r x : Reader} (h : r.sameButDead x) : ReaderAlike (pullBit r) (pullBit x) := by
  rw [pullBit_eq, pullBit_eq]
  unfold fetchByte
  have hi := h.index; have e1 := h.count; have e2 := h.taken; have e3 := h.source; have e4 := h.fault
  have e5 := h.busy; have e6 := h.draws; have e7 := h.responses
  by_cases h0 : r.bitIndex = 0
  · have h0' : x.bitIndex = 0 := by rw [← hi]; exact h0
    simp only [h0, h0', if_true, srcNext, ← e3]
    cases hs : r.source with
    | nil => refine ⟨rfl, ?_⟩; constructor <;> simp_all
    | cons s rest =>
      cases s with
      | byte v =>
        exact consumeBit_alike (by simp [h0, h0']) (by simp [h0, h0']) e1 (by simp [e2]) rfl e4 e5 e6 e7
      | endOfData => refine ⟨rfl, ?_⟩; constructor <;> simp_all
      | ioFail => refine ⟨rfl, ?_⟩; constructor <;> simp_all
      | noReply => show Reader.sameTransactions _ _; constructor <;> simp_all
  · have h0' : x.bitIndex ≠ 0 := by rw [← hi]; exact h0
    simp only [h0, h0', if_false, Micro.bind_done]
    have hu := h.unconsumed
    rw [Reader.unconsumed, if_neg h0, Reader.unconsumed, if_neg h0'] at hu
    exact consumeBit_alike hi hu e1 e2 e3 e4 e5 e6 e7

/-- The flat loop does not read dead cells. -/
theorem pullBits_alike (size : Nat) (v : Value) {r x : Reader} (h : r.sameButDead x) :
    ReaderAlike (pullBits size v r) (pullBits size v x) := by
  induction size generalizing v r x with
  | zero => exact ⟨rfl, h⟩
  | succ k ih => exact endsLike_bind (pullBit_alike h) fun _ _ _ _ _ hs => ih _ hs

/-! ### What every reading procedure keeps -/

section
variable {D : Reader → Reader → Prop} {F : Cause → Reader → Reader → Prop} {H : Reader → Reader → Prop}
  (k : Composes D F H) (hp : Obeys D F H pullBit)
  (he : ∀ r : Reader, r.bitIndex = 0 → (takeWhole r).ends (D r) (fun c => F c r) (H r))
include k hp he

omit he in
theorem pullBits_obeys (size : Nat) (v : Value) : Obeys D F H (pullBits size v) := by
  induction size generalizing v with
  | zero => exact k.pure v
  | succ n ih => exact k.bind hp fun _ => ih _

theorem read8Fits_obeys (size : Nat) : Obeys D F H (read8Fits size) := by
  intro r
  unfold read8Fits
  split
  · rename_i h; exact he r h.2
  · exact pullBits_obeys k hp size 0 r

theorem read8_obeys (size : Nat) : Obeys D F H (read8 size) := by
  intro r
  unfold read8
  simp only
  split
  · exact k.bind (read8Fits_obeys k hp he _) (fun _ => k.map _ (read8Fits_obeys k hp he _)) r
  · exact read8Fits_obeys k hp he _ r

omit hp he in
theorem recompose_obeys {prim : Nat → Reader → Micro Reader Value} (h : ∀ n, Obeys D F H (prim n))
    (width size : Nat) : Obeys D F H (recompose width prim size) := by
  have chunks : ∀ q v, Obeys D F H (joinChunks width prim q v) := by
    intro q
    induction q with
    | zero => exact fun v => k.pure v
    | succ j ih => exact fun v => k.bind (h _) fun _ => ih _
  intro r
  unfold recompose
  simp only
  split
  · exact k.bind (h _) (fun _ => chunks _ _) r
  · exact chunks _ _ r

theorem read16_obeys (size : Nat) : Obeys D F H (read16 size) :=
  recompose_obeys k (read8_obeys k hp he) 8 size

theorem readIntUnsigned_obeys (size : Nat) : Obeys D F H (readIntUnsigned size) :=
  recompose_obeys k (read16_obeys k hp he) 16 size

theorem readLongUnsigned_obeys (size : Nat) : Obeys D F H (readLongUnsigned size) :=
  recompose_obeys k (readIntUnsigned_obeys k hp he) 31 size

theorem readSigned_obeys {m : Nat → Reader → Micro Reader Value} (h : ∀ n, Obeys D F H (m n))
    (size : Nat) : Obeys D F H (readSigned m size) := by
  refine k.bind (read8_obeys k hp he 1) fun _ r => ?_
  show (if 1 < size then _ else _ : Micro Reader Value).ends _ _ _
  split
  · exact k.map _ (h _) r
  · exact k.refl r

theorem readInt_obeys (unsigned : Bool) (size : Nat) : Obeys D F H (readInt unsigned size) := by
  cases unsigned
  · exact k.map _ (readSigned_obeys k hp he (readIntUnsigned_obeys k hp he) size)
  · exact readIntUnsigned_obeys k hp he size

theorem readLong_obeys (unsigned : Bool) (size : Nat) : Obeys D F H (readLong unsigned size) := by
  cases unsigned
  · exact k.map _ (readSigned_obeys k hp he (readLongUnsigned_obeys k hp he) size)
  · exact readLongUnsigned_obeys k hp he size

theorem skipBytes_obeys (n rounds : Nat) (bits : Value) : Obeys D F H (skipBytes n rounds bits) := by
  induction rounds generalizing bits with
  | zero => exact k.pure _
  | succ m ih =>
    exact obeys_ite (p := fun r : Reader => r.byteCount.toNat % n = 0) (k.pure bits)
      (k.bind (read8_obeys k hp he 8) fun _ => ih _)

theorem alignReader_obeys (n : Nat) : Obeys D F H (alignReader n) := by
  intro r
  unfold alignReader
  split
  · exact k.bind (read8_obeys k hp he _) (fun _ => skipBytes_obeys k hp he n n _) r
  · exact skipBytes_obeys k hp he n n 0 r
end

end Sys2Proof.Machine
end

