-- ==== Sys2Proof/Laws/State.lean ====
section
/-! SUPPORT. One lemma per field for every change of a unit's registers, so that no proof unfolds a record
update. -/

namespace Sys2Proof.Machine

@[simp] theorem UnitState.answer_pendingBits (x : BitVec 8) (v : Value) (u : UnitState) :
    (u.answer x v).pendingBits = u.pendingBits := rfl

@[simp] theorem UnitState.answer_bitIndex (x : BitVec 8) (v : Value) (u : UnitState) :
    (u.answer x v).bitIndex = u.bitIndex := rfl

@[simp] theorem UnitState.answer_byteCount (x : BitVec 8) (v : Value) (u : UnitState) :
    (u.answer x v).byteCount = u.byteCount := rfl

@[simp] theorem UnitState.answer_fault (x : BitVec 8) (v : Value) (u : UnitState) :
    (u.answer x v).fault = u.fault := rfl

@[simp] theorem UnitState.answer_busy (x : BitVec 8) (v : Value) (u : UnitState) :
    (u.answer x v).busy = u.busy := rfl

@[simp] theorem UnitState.answer_draws (x : BitVec 8) (v : Value) (u : UnitState) :
    (u.answer x v).draws = u.draws := rfl

@[simp] theorem UnitState.answer_responses (x : BitVec 8) (v : Value) (u : UnitState) :
    (u.answer x v).responses = u.responses ++ [⟨x, v⟩] := rfl

@[simp] theorem UnitState.respond_pendingBits (v : Value) (u : UnitState) :
    (u.respond v).pendingBits = u.pendingBits := rfl

@[simp] theorem UnitState.respond_bitIndex (v : Value) (u : UnitState) :
    (u.respond v).bitIndex = u.bitIndex := rfl

@[simp] theorem UnitState.respond_byteCount (v : Value) (u : UnitState) :
    (u.respond v).byteCount = u.byteCount := rfl

@[simp] theorem UnitState.respond_fault (v : Value) (u : UnitState) :
    (u.respond v).fault = u.fault := rfl

@[simp] theorem UnitState.respond_busy (v : Value) (u : UnitState) :
    (u.respond v).busy = u.busy := rfl

@[simp] theorem UnitState.respond_draws (v : Value) (u : UnitState) :
    (u.respond v).draws = u.draws := rfl

@[simp] theorem UnitState.respond_responses (v : Value) (u : UnitState) :
    (u.respond v).responses = u.responses ++ [⟨0, v⟩] := rfl

@[simp] theorem UnitState.refuse_pendingBits (u : UnitState) :
    (u.refuse).pendingBits = u.pendingBits := rfl

@[simp] theorem UnitState.refuse_bitIndex (u : UnitState) :
    (u.refuse).bitIndex = u.bitIndex := rfl

@[simp] theorem UnitState.refuse_byteCount (u : UnitState) :
    (u.refuse).byteCount = u.byteCount := rfl

@[simp] theorem UnitState.refuse_fault (u : UnitState) :
    (u.refuse).fault = u.fault := rfl

@[simp] theorem UnitState.refuse_busy (u : UnitState) :
    (u.refuse).busy = u.busy := rfl

@[simp] theorem UnitState.refuse_draws (u : UnitState) :
    (u.refuse).draws = u.draws := rfl

@[simp] theorem UnitState.refuse_responses (u : UnitState) :
    (u.refuse).responses = u.responses ++ [⟨8, 0⟩] := rfl

@[simp] theorem UnitState.scramble_pendingBits (id : UnitId) (u : UnitState) :
    (u.scramble id).pendingBits = Config.freeCells id u.draws := rfl

@[simp] theorem UnitState.scramble_bitIndex (id : UnitId) (u : UnitState) :
    (u.scramble id).bitIndex = Config.freeIndex id u.draws := rfl

@[simp] theorem UnitState.scramble_byteCount (id : UnitId) (u : UnitState) :
    (u.scramble id).byteCount = Config.freeCount id u.draws := rfl

@[simp] theorem UnitState.scramble_fault (id : UnitId) (u : UnitState) :
    (u.scramble id).fault = u.fault := rfl

@[simp] theorem UnitState.scramble_busy (id : UnitId) (u : UnitState) :
    (u.scramble id).busy = u.busy := rfl

@[simp] theorem UnitState.scramble_draws (id : UnitId) (u : UnitState) :
    (u.scramble id).draws = u.draws + 1 := rfl

@[simp] theorem UnitState.scramble_responses (id : UnitId) (u : UnitState) :
    (u.scramble id).responses = u.responses := rfl

@[simp] theorem UnitState.resetEvent_pendingBits (id : UnitId) (u : UnitState) :
    (u.resetEvent id).pendingBits = Config.freeCells id u.draws := rfl

@[simp] theorem UnitState.resetEvent_bitIndex (id : UnitId) (u : UnitState) :
    (u.resetEvent id).bitIndex = 0 := rfl

@[simp] theorem UnitState.resetEvent_byteCount (id : UnitId) (u : UnitState) :
    (u.resetEvent id).byteCount = 0 := rfl

@[simp] theorem UnitState.resetEvent_fault (id : UnitId) (u : UnitState) :
    (u.resetEvent id).fault = 0 := rfl

@[simp] theorem UnitState.resetEvent_busy (id : UnitId) (u : UnitState) :
    (u.resetEvent id).busy = u.busy := rfl

@[simp] theorem UnitState.resetEvent_draws (id : UnitId) (u : UnitState) :
    (u.resetEvent id).draws = u.draws + 1 := rfl

@[simp] theorem UnitState.resetEvent_responses (id : UnitId) (u : UnitState) :
    (u.resetEvent id).responses = u.responses := rfl

@[simp] theorem UnitState.raise_fault (id : UnitId) (c : Cause) (u : UnitState) :
    (u.raise id c).fault = c.code := rfl

@[simp] theorem UnitState.raise_busy (id : UnitId) (c : Cause) (u : UnitState) :
    (u.raise id c).busy = u.busy := by
  cases c <;> rfl

@[simp] theorem UnitState.raise_responses (id : UnitId) (c : Cause) (u : UnitState) :
    (u.raise id c).responses = u.responses ++ [⟨c.code, 0⟩] := by
  cases c <;> rfl

/-- After a precise cause the accumulator is as before (60_exceptions.md R203). -/
theorem UnitState.raise_precise (id : UnitId) {c : Cause} (h : c.imprecise = false) (u : UnitState) :
    u.raise id c = { u with fault := c.code, responses := u.responses ++ [⟨c.code, 0⟩] } := by
  simp [UnitState.raise, UnitState.answer, h]

@[simp] theorem State.onWriter_toUnitState (f : UnitState → UnitState) (s : State) :
    (s.onWriter f).w.toUnitState = f s.w.toUnitState := rfl

@[simp] theorem State.onWriter_out (f : UnitState → UnitState) (s : State) :
    (s.onWriter f).w.out = s.w.out := rfl

@[simp] theorem State.onWriter_sink (f : UnitState → UnitState) (s : State) :
    (s.onWriter f).w.sink = s.w.sink := rfl

@[simp] theorem State.onWriter_r (f : UnitState → UnitState) (s : State) : (s.onWriter f).r = s.r := rfl

@[simp] theorem State.onWriter_host (f : UnitState → UnitState) (s : State) : (s.onWriter f).host = s.host := rfl

@[simp] theorem State.onReader_toUnitState (f : UnitState → UnitState) (s : State) :
    (s.onReader f).r.toUnitState = f s.r.toUnitState := rfl

@[simp] theorem State.onReader_taken (f : UnitState → UnitState) (s : State) :
    (s.onReader f).r.taken = s.r.taken := rfl

@[simp] theorem State.onReader_source (f : UnitState → UnitState) (s : State) :
    (s.onReader f).r.source = s.r.source := rfl

@[simp] theorem State.onReader_w (f : UnitState → UnitState) (s : State) : (s.onReader f).w = s.w := rfl

@[simp] theorem State.onReader_host (f : UnitState → UnitState) (s : State) : (s.onReader f).host = s.host := rfl

end Sys2Proof.Machine
end

