-- ==== Sys2Proof/Laws/Writer.lean ====
section
/-! SUPPORT. The writer's micro-operations: what each can do, and what every procedure made of them keeps. -/

namespace Sys2Proof.Machine

/-- The three answers of a sink (20_memory.md R31). -/
theorem sinkPut_cases (b : Byte) (w : Writer) :
    ((∀ x ∈ w.sink.take 1, x = .ok)
      ∧ sinkPut b w = .done () { w with out := w.out ++ [b], sink := w.sink.drop 1 })
    ∨ (∃ rest, w.sink = .ioFail :: rest ∧ sinkPut b w = .raised .ioFailure { w with sink := rest })
    ∨ (∃ rest, w.sink = .noReply :: rest ∧ sinkPut b w = .hung w) := by
  unfold sinkPut
  split <;> rename_i h <;> simp [h]

/-- A byte the sink accepts is the last of `OUT`. -/
theorem sinkPut_ok (b : Byte) {w : Writer} (h : ∀ x ∈ w.sink.take 1, x = .ok) :
    sinkPut b w = .done () { w with out := w.out ++ [b], sink := w.sink.drop 1 } := by
  rcases sinkPut_cases b w with ⟨_, h'⟩ | ⟨rest, h', _⟩ | ⟨rest, h', _⟩
  · exact h'
  · simp [h'] at h
  · simp [h'] at h

/-- Counting a byte is defined below `2^64 - 1` only (10_state.md R14, U6). -/
theorem countWritten_cases (w : Writer) :
    (w.byteCount.toNat + 1 < 2 ^ 64 ∧ countWritten w = .done () { w with byteCount := w.byteCount + 1 })
    ∨ (w.byteCount.toNat = 2 ^ 64 - 1 ∧ countWritten w = .overflow) := by
  unfold countWritten
  split <;> rename_i h
  · right; simp [h]
  · left
    refine ⟨?_, rfl⟩
    have := w.byteCount.isLt
    have : w.byteCount.toNat ≠ 2 ^ 64 - 1 := fun e => h (BitVec.eq_of_toNat_eq (by simpa using e))
    omega

/-! ### Bits appended -/

/-- From `w` to `x` the bits were appended to the stream, and nothing else was done. -/
structure Pushed (bits : List Bool) (w x : Writer) : Prop where
  stream : x.stream = w.stream ++ bits
  index : x.bitIndex.toNat = (w.bitIndex.toNat + bits.length) % 8
  count : x.byteCount.toNat = w.byteCount.toNat + w.completes bits.length
  stored : ∃ added : List Byte, x.out = w.out ++ added ∧ added.length = w.completes bits.length
  replies : x.sink = w.sink.drop (w.completes bits.length)
  fault : x.fault = w.fault
  busy : x.busy = w.busy
  draws : x.draws = w.draws
  responses : x.responses = w.responses

theorem pushed_nil (w : Writer) : Pushed [] w w := by
  have := w.bitIndex.isLt
  have h : w.completes 0 = 0 := by simp [UnitState.completes]; omega
  constructor <;> simp [h]
  omega

theorem pushed_completes_add {bits : List Bool} {w x : Writer} (h : Pushed bits w x) (n : Nat) :
    w.completes (bits.length + n) = w.completes bits.length + x.completes n := by
  simp only [UnitState.completes, h.index]; omega

theorem pushed_append {bs cs : List Bool} {w x y : Writer} (h : Pushed bs w x) (k : Pushed cs x y) :
    Pushed (bs ++ cs) w y where
  stream := by rw [k.stream, h.stream, List.append_assoc]
  index := by rw [k.index, h.index, List.length_append]; omega
  count := by rw [k.count, h.count, List.length_append, pushed_completes_add h]; omega
  stored := by
    obtain ⟨a, ha, la⟩ := h.stored
    obtain ⟨b, hb, lb⟩ := k.stored
    refine ⟨a ++ b, by rw [hb, ha, List.append_assoc], ?_⟩
    rw [List.length_append, List.length_append, pushed_completes_add h, la, lb]
  replies := by rw [k.replies, h.replies, List.drop_drop, List.length_append, pushed_completes_add h]
  fault := k.fault.trans h.fault
  busy := k.busy.trans h.busy
  draws := k.draws.trans h.draws
  responses := k.responses.trans h.responses

/-- Dead cells do not matter to what was appended (10_state.md R13). -/
theorem pushed_sameButDead {bits : List Bool} {w x y : Writer} (p : Pushed bits w x) (h : y.sameButDead x) :
    Pushed bits w y where
  stream := by rw [← p.stream]; simp only [Writer.stream, h.out, h.live]
  index := by rw [h.index, p.index]
  count := by rw [h.count, p.count]
  stored := by rw [h.out]; exact p.stored
  replies := by rw [h.sink, p.replies]
  fault := h.fault.trans p.fault
  busy := h.busy.trans p.busy
  draws := h.draws.trans p.draws
  responses := h.responses.trans p.responses

/-- A sink that accepts the bytes of more bits accepts those of fewer. -/
theorem accepts_first {m n : Nat} {w : Writer} (h : w.accepts (m + n)) : w.accepts m := by
  have hle : w.completes m ≤ w.completes (m + n) := by simp only [UnitState.completes]; omega
  refine ⟨fun x hx => h.1 x ?_, ?_⟩
  · exact (List.take_prefix_take_left hle).subset hx
  · have := h.2; simp only [UnitState.countFits] at *; omega

/-- After the first bits, the sink accepts the bytes of the rest. -/
theorem accepts_rest {bits : List Bool} {n : Nat} {w x : Writer} (h : w.accepts (bits.length + n))
    (p : Pushed bits w x) : x.accepts n := by
  have hc := pushed_completes_add p n
  refine ⟨fun y hy => h.1 y ?_, ?_⟩
  · rw [p.replies] at hy
    rw [hc, List.take_add]
    exact List.mem_append_right _ hy
  · have := h.2; simp only [UnitState.countFits] at *; rw [p.count]; omega

/-- Bits that complete no byte need no sink. -/
theorem accepts_within {n : Nat} {w : Writer} (h : w.bitIndex.toNat + n < 8) : w.accepts n := by
  have hc : w.completes n = 0 := by simp only [UnitState.completes]; omega
  refine ⟨by simp [hc], ?_⟩
  have := w.byteCount.isLt
  simp only [UnitState.countFits, hc]; omega

/-- `PushBit` with an accepting sink appends its bit (41_writer_primitives.md R81). -/
theorem pushBit_accepts (b : Bool) {w : Writer} (h : w.accepts 1) :
    ∃ x, pushBit b w = .done () x ∧ Pushed [b] w x := by
  unfold pushBit
  have hlt := w.bitIndex.isLt
  by_cases hi : w.bitIndex.toNat < 7
  · have hc : w.completes 1 = 0 := by simp only [UnitState.completes]; omega
    simp only [hi, if_true]
    refine ⟨_, rfl, ?_⟩
    constructor <;> simp [hc]
    have := live_setCell hi b
    simp only [BitVec.ofNat_eq_ofNat] at this
    simp only [Writer.stream, this, List.append_assoc]
  · have hc : w.completes 1 = 1 := by simp only [UnitState.completes]; omega
    simp only [hi, if_false]
    have hs : ∀ x ∈ w.sink.take 1, x = .ok := by have := h.1; rwa [hc] at this
    rw [sinkPut_ok _ (by exact hs), Micro.bind_done]
    have hf := h.2
    simp only [UnitState.countFits, hc] at hf
    rcases countWritten_cases (w := { w with
      pendingBits := setCell w.pendingBits w.bitIndex b, bitIndex := 0,
      out := w.out ++ [assembleByte (setCell w.pendingBits w.bitIndex b)], sink := w.sink.drop 1 })
      with ⟨hlt', he⟩ | ⟨heq, _⟩
    · refine ⟨_, he, ?_⟩
      have hcnt : (w.byteCount + 1).toNat = w.byteCount.toNat + 1 := by
        rw [BitVec.toNat_add]; simp; omega
      constructor <;> simp [hc]
      · simp [Writer.stream, Writer.live, eighth_setCell hi]
      · omega
      · simpa using hcnt
    · exfalso; simp at heq; omega

/-- `PushBit` that ran to its end appended its bit. -/
theorem pushBit_done {b : Bool} {w x : Writer} (h : pushBit b w = .done () x) : Pushed [b] w x := by
  by_cases ha : w.accepts 1
  · obtain ⟨y, hy, py⟩ := pushBit_accepts b ha
    rw [hy] at h; injection h with _ h; subst h; exact py
  · exfalso
    have hi : ¬ w.bitIndex.toNat < 7 := fun hi => ha (accepts_within (by omega))
    have hc : w.completes 1 = 1 := by have := w.bitIndex.isLt; simp only [UnitState.completes]; omega
    unfold pushBit at h
    simp only [hi, if_false] at h
    rcases sinkPut_cases (assembleByte (setCell w.pendingBits w.bitIndex b))
      { w with pendingBits := setCell w.pendingBits w.bitIndex b } with ⟨h1, h2⟩ | ⟨r, _, h2⟩ | ⟨r, _, h2⟩
    · rw [h2, Micro.bind_done] at h
      rcases countWritten_cases (w := { w with
        pendingBits := setCell w.pendingBits w.bitIndex b, bitIndex := 0,
        out := w.out ++ [assembleByte (setCell w.pendingBits w.bitIndex b)], sink := w.sink.drop 1 })
        with ⟨h3, h4⟩ | ⟨h3, h4⟩
      · exact ha ⟨by rw [hc]; exact h1, by simp only [UnitState.countFits, hc]; exact h3⟩
      · rw [h4] at h; cases h
    · rw [h2] at h; cases h
    · rw [h2] at h; cases h

/-- The flat loop with an accepting sink appends its bits, bit `size-1` first (41_writer_primitives.md R90). -/
theorem pushDown_accepts (size : Nat) (v : Value) {w : Writer} (h : w.accepts size) :
    ∃ x, pushDown size v w = .done () x ∧ Pushed (topDown size v) w x := by
  induction size generalizing w with
  | zero => exact ⟨w, rfl, pushed_nil w⟩
  | succ k ih =>
    rw [Nat.add_comm] at h
    obtain ⟨x, hx, px⟩ := pushBit_accepts (v.getLsbD k) (accepts_first h)
    obtain ⟨y, hy, py⟩ := ih (accepts_rest (bits := [v.getLsbD k]) h px)
    refine ⟨y, ?_, pushed_append px py⟩
    simp [pushDown, hx, hy]

/-- The flat loop that ran to its end appended its bits. -/
theorem pushDown_done {size : Nat} {v : Value} {w x : Writer} (h : pushDown size v w = .done () x) :
    Pushed (topDown size v) w x := by
  induction size generalizing w with
  | zero => simp only [pushDown] at h; injection h with _ h; subst h; exact pushed_nil _
  | succ k ih =>
    simp only [pushDown] at h
    cases hb : pushBit (v.getLsbD k) w with
    | done a y => rw [hb] at h; exact pushed_append (pushBit_done hb) (ih h)
    | raised c y => rw [hb] at h; cases h
    | hung y => rw [hb] at h; cases h
    | overflow => rw [hb] at h; cases h

/-- The flat loop in two parts, the high bits first. -/
theorem pushDown_add (m n : Nat) (v : Value) (w : Writer) :
    pushDown (m + n) v w = (pushDown m (v >>> n) w).bind fun _ x => pushDown n v x := by
  induction m generalizing w with
  | zero => simp [pushDown]
  | succ k ih =>
    rw [Nat.add_right_comm]
    simp only [pushDown, Micro.bind_assoc]
    rw [show (v >>> n).getLsbD k = v.getLsbD (k + n) by simp [Nat.add_comm]]
    congr 1; funext _ x; exact ih x

/-! ### Dead cells -/

/-- `PushBit` does not read dead cells (10_state.md R13). -/
theorem pushBit_alike (b : Bool) {w x : Writer} (h : w.sameButDead x) :
    WriterAlike (pushBit b w) (pushBit b x) := by
  unfold pushBit
  by_cases hi : w.bitIndex.toNat < 7
  · have hi' : x.bitIndex.toNat < 7 := by rw [← h.index]; exact hi
    simp only [hi, hi', if_true]
    refine ⟨rfl, ?_⟩
    constructor
    · rw [live_setCell hi, live_setCell hi', h.live]
    · simp [h.index]
    all_goals first
      | exact h.count | exact h.out | exact h.sink | exact h.fault | exact h.busy | exact h.draws
      | exact h.responses
  · have hi' : ¬ x.bitIndex.toNat < 7 := by rw [← h.index]; exact hi
    simp only [hi, hi', if_false]
    have hc : setCell w.pendingBits w.bitIndex b = setCell x.pendingBits x.bitIndex b := by
      apply Vector.toList_inj.mp
      rw [eighth_setCell hi, eighth_setCell hi', h.live]
    have e1 := h.out; have e2 := h.sink; have e3 := h.count; have e4 := h.fault
    have e5 := h.busy; have e6 := h.draws; have e7 := h.responses
    unfold sinkPut countWritten
    rw [hc, ← e2]
    cases hs : w.sink with
    | nil =>
      simp only [Micro.bind_done]
      rw [← e3]
      split
      · trivial
      · refine ⟨rfl, ?_⟩
        constructor <;> simp_all [Writer.live]
    | cons r rest =>
      cases r with
      | ok =>
        simp only [Micro.bind_done]
        rw [← e3]
        split
        · trivial
        · refine ⟨rfl, ?_⟩
          constructor <;> simp_all [Writer.live]
      | ioFail => refine ⟨rfl, ?_⟩; constructor <;> simp_all
      | noReply => show Writer.sameTransactions _ _; constructor <;> simp_all

/-- The flat loop reads neither dead cells nor bits of the value at `size` and above
(41_writer_primitives.md R86). -/
theorem pushDown_alike (size : Nat) (v v' : Value) (hv : topDown size v = topDown size v') {w x : Writer}
    (h : w.sameButDead x) : WriterAlike (pushDown size v w) (pushDown size v' x) := by
  induction size generalizing w x with
  | zero => exact ⟨rfl, h⟩
  | succ k ih =>
    rw [topDown_succ, topDown_succ] at hv
    injection hv with h1 h2
    simp only [pushDown]
    rw [h1]
    exact endsLike_bind (pushBit_alike _ h) fun _ x y _ _ hxy => ih h2 hxy

/-! ### What every writing procedure keeps -/

section
variable {D : Writer → Writer → Prop} {F : Cause → Writer → Writer → Prop} {H : Writer → Writer → Prop}
  (k : Composes D F H) (hp : ∀ b, Obeys D F H (pushBit b))
  (he : ∀ v w, w.bitIndex = 0 → (emitWhole v w).ends (D w) (fun c => F c w) (H w))
include k hp he

omit he in
theorem pushDown_obeys (size : Nat) (v : Value) : Obeys D F H (pushDown size v) := by
  induction size with
  | zero => exact k.pure ()
  | succ n ih => exact k.bind (hp _) fun _ => ih

theorem write8Fits_obeys (size : Nat) (v : Value) : Obeys D F H (write8Fits size v) := by
  intro w
  unfold write8Fits
  split
  · rename_i h; exact he v w h.2
  · exact pushDown_obeys k hp size v w

theorem write8_obeys (size : Nat) (v : Value) : Obeys D F H (write8 size v) := by
  intro w
  unfold write8
  simp only
  split
  · exact k.bind (write8Fits_obeys k hp he _ _) (fun _ => write8Fits_obeys k hp he _ _) w
  · exact write8Fits_obeys k hp he _ _ w

omit hp he in
theorem decompose_obeys {prim : Nat → Value → Writer → Micro Writer Unit}
    (h : ∀ n v, Obeys D F H (prim n v)) (width size : Nat) (v : Value) :
    Obeys D F H (decompose width prim size v) := by
  have chunks : ∀ q, Obeys D F H (fullChunks width prim q v) := by
    intro q
    induction q with
    | zero => exact k.pure ()
    | succ j ih => exact k.bind (h _ _) fun _ => ih
  intro w
  unfold decompose
  simp only
  split
  · exact k.bind (h _ _) (fun _ => chunks _) w
  · exact chunks _ w

theorem write16_obeys (size : Nat) (v : Value) : Obeys D F H (write16 size v) :=
  decompose_obeys k (write8_obeys k hp he) 8 size v

theorem writeIntUnsigned_obeys (size : Nat) (v : Value) : Obeys D F H (writeIntUnsigned size v) :=
  decompose_obeys k (write16_obeys k hp he) 16 size v

theorem writeLongUnsigned_obeys (size : Nat) (v : Value) : Obeys D F H (writeLongUnsigned size v) :=
  decompose_obeys k (fun n _ => writeIntUnsigned_obeys k hp he n _) 31 size v

theorem writeSigned_obeys {m : Nat → Value → Writer → Micro Writer Unit} (h : ∀ n v, Obeys D F H (m n v))
    (size : Nat) (v : Value) : Obeys D F H (writeSigned m size v) := by
  refine k.bind (write8_obeys k hp he 1 _) fun _ w => ?_
  show (if 1 < size then _ else _ : Micro Writer Unit).ends _ _ _
  split
  · exact h _ _ w
  · exact k.refl w

theorem writeInt_obeys (unsigned : Bool) (size : Nat) (v : Value) : Obeys D F H (writeInt unsigned size v) := by
  cases unsigned
  · exact writeSigned_obeys k hp he (writeIntUnsigned_obeys k hp he) size v
  · exact writeIntUnsigned_obeys k hp he size v

theorem writeLong_obeys (unsigned : Bool) (size : Nat) (v : Value) : Obeys D F H (writeLong unsigned size v) := by
  cases unsigned
  · exact writeSigned_obeys k hp he (writeLongUnsigned_obeys k hp he) size v
  · exact writeLongUnsigned_obeys k hp he size v

theorem padBytes_obeys (n rounds : Nat) (bits : Value) : Obeys D F H (padBytes n rounds bits) := by
  induction rounds generalizing bits with
  | zero => exact k.pure _
  | succ r ih =>
    exact obeys_ite (p := fun w : Writer => w.byteCount.toNat % n = 0) (k.pure bits)
      (k.bind (write8_obeys k hp he 8 0) fun _ => ih _)

theorem alignWriter_obeys (n : Nat) : Obeys D F H (alignWriter n) := by
  intro w
  unfold alignWriter
  split
  · exact k.bind (write8_obeys k hp he _ 0) (fun _ => padBytes_obeys k hp he n n _) w
  · exact padBytes_obeys k hp he n n 0 w
end

end Sys2Proof.Machine
end

