-- ==== Sys2Proof/Laws/Exec.lean ====
section
/-! SUPPORT. What a command can do: the gates, the order of 30_encoding.md R61, and, for each unit, one lemma
over all its commands. -/

namespace Sys2Proof.Machine

/-! ### The gates -/

/-- `requireValidSize` passes the legal sizes and no others (40_width_policy.md R70). -/
theorem requireValidSize_cases (unsigned : Bool) (e : Nat) (n : Int) :
    (requireValidSize unsigned e n = .ok n ∧ 1 ≤ n ∧ n ≤ maxSize unsigned e)
    ∨ (requireValidSize unsigned e n = .error .invalidWidth ∧ ¬ (1 ≤ n ∧ n ≤ maxSize unsigned e)) := by
  unfold requireValidSize
  split
  · right; exact ⟨rfl, by omega⟩
  · split
    · right; exact ⟨rfl, by omega⟩
    · left; exact ⟨rfl, by omega, by omega⟩

theorem requireValidSize_ok {unsigned : Bool} {e : Nat} {n : Int} (h : 1 ≤ n ∧ n ≤ maxSize unsigned e) :
    requireValidSize unsigned e n = .ok n := by
  rcases requireValidSize_cases unsigned e n with ⟨h1, _⟩ | ⟨_, h1⟩
  · exact h1
  · exact absurd h h1

theorem requireValidSize_error {unsigned : Bool} {e : Nat} {n : Int} {c : Cause}
    (h : requireValidSize unsigned e n = .error c) : c = .invalidWidth := by
  rcases requireValidSize_cases unsigned e n with ⟨h1, _⟩ | ⟨h1, _⟩ <;> rw [h1] at h <;> cases h
  rfl

theorem requirePositive_error {n : Int} {c : Cause} (h : requirePositive n = .error c) :
    c = .invalidArgument ∧ n ≤ 0 := by
  unfold requirePositive at h
  split at h
  · cases h
    exact ⟨rfl, ‹_›⟩
  · cases h

theorem requirePositive_ok {n : Int} (h : 0 < n) : requirePositive n = .ok n := by
  unfold requirePositive
  rw [if_neg (by omega)]

/-- The largest legal sizes (40_width_policy.md R73). -/
theorem maxSize_values :
    maxSize true exponentByte = 8 ∧ maxSize true exponentShort = 16
    ∧ maxSize true exponentInt = 32 ∧ maxSize false exponentInt = 31
    ∧ maxSize true exponentLong = 64 ∧ maxSize false exponentLong = 63 := by decide

/-! ### The order of R61 -/

/-- A command of `BW` that is no status read: busy, faulted, invalid, or run. -/
theorem serveWriter_cases {α : Type} (g : Except Cause α) (body : α → Writer → Micro Writer Value) (s : State) :
    (s.w.busy = true ∧ serveWriter g body s = .next s)
    ∨ (s.w.busy = false ∧ s.w.fault ≠ 0 ∧ serveWriter g body s = .next (State.onWriter UnitState.refuse s))
    ∨ (s.w.ready ∧
      ((∃ c, g = .error c ∧ serveWriter g body s = .next (State.onWriter (UnitState.raise .bw c) s))
      ∨ (∃ a, g = .ok a ∧ serveWriter g body s = finishWriter s (body a s.w)))) := by
  unfold serveWriter
  by_cases hb : s.w.busy
  · left; simp [hb]
  · right
    by_cases hf : s.w.fault = 0
    · right
      refine ⟨⟨by simpa using hb, hf⟩, ?_⟩
      cases g <;> simp [hb, hf]
    · left
      exact ⟨by simpa using hb, hf, by rw [if_neg hb, if_pos hf]⟩

/-- A command of `BR` that is no status read: busy, faulted, invalid, or run. -/
theorem serveReader_cases {α : Type} (g : Except Cause α) (body : α → Reader → Micro Reader Value) (s : State) :
    (s.r.busy = true ∧ serveReader g body s = .next s)
    ∨ (s.r.busy = false ∧ s.r.fault ≠ 0 ∧ serveReader g body s = .next (State.onReader UnitState.refuse s))
    ∨ (s.r.ready ∧
      ((∃ c, g = .error c ∧ serveReader g body s = .next (State.onReader (UnitState.raise .br c) s))
      ∨ (∃ a, g = .ok a ∧ serveReader g body s = finishReader s (body a s.r)))) := by
  unfold serveReader
  by_cases hb : s.r.busy
  · left; simp [hb]
  · right
    by_cases hf : s.r.fault = 0
    · right
      refine ⟨⟨by simpa using hb, hf⟩, ?_⟩
      cases g <;> simp [hb, hf]
    · left
      exact ⟨by simpa using hb, hf, by rw [if_neg hb, if_pos hf]⟩

/-- What a command of `BW` does, whose procedures keep the relations: it waits for the unit, reads a
register, is refused, is invalid, or runs a procedure (30_encoding.md R61). -/
def WriterDoes (D : Writer → Writer → Prop) (F : Cause → Writer → Writer → Prop) (H : Writer → Writer → Prop)
    (i : Instr) (s : State) : Prop :=
  (s.w.busy = true ∧ exec i s = .next s)
  ∨ (s.w.busy = false ∧ i.isStatusRead = true
    ∧ ∃ v, exec i s = .next (State.onWriter (UnitState.respond v) s))
  ∨ (s.w.busy = false ∧ i.isStatusRead = false ∧ s.w.fault ≠ 0
    ∧ exec i s = .next (State.onWriter UnitState.refuse s))
  ∨ (s.w.ready ∧ i.isStatusRead = false ∧ ∃ c, (c = .invalidWidth ∨ c = .invalidArgument ∧ ∃ n : Int, n ≤ 0 ∧ i = .walign n)
    ∧ exec i s = .next (State.onWriter (UnitState.raise .bw c) s))
  ∨ (s.w.ready ∧ i.isStatusRead = false ∧ ∃ m : Micro Writer Value, exec i s = finishWriter s m
    ∧ m.ends (D s.w) (fun c => F c s.w) (H s.w))

/-- Whatever relations every micro-operation of `BW` keeps, every command of `BW` keeps: it waits for the
unit, reads a register, is refused, is invalid, or runs a procedure that keeps them. -/
theorem exec_writer_cases {D : Writer → Writer → Prop} {F : Cause → Writer → Writer → Prop}
    {H : Writer → Writer → Prop} (k : Composes D F H) (hp : ∀ b, Obeys D F H (pushBit b))
    (he : ∀ v w, w.bitIndex = 0 → (emitWhole v w).ends (D w) (fun c => F c w) (H w))
    (i : Instr) (s : State) (hu : i.unit = .bw) :
    WriterDoes D F H i s := by
  have status : ∀ reg, i.isStatusRead = true → exec i s = readWriter reg s →
      WriterDoes D F H i s := by
    intro reg hi h
    unfold readWriter at h
    cases hb : s.w.busy <;> simp only [hb, if_true, Bool.false_eq_true, if_false] at h
    · exact .inr (.inl ⟨hb, hi, _, h⟩)
    · exact .inl ⟨hb, h⟩
  have main : ∀ {α : Type} (g : Except Cause α) (body : α → Writer → Micro Writer Value),
      i.isStatusRead = false → exec i s = serveWriter g body s →
      (∀ c, g = .error c → c = .invalidWidth ∨ c = .invalidArgument ∧ ∃ n : Int, n ≤ 0 ∧ i = .walign n) → (∀ a, Obeys D F H (body a)) →
      WriterDoes D F H i s := by
    intro α g body hi h hg hb
    rcases serveWriter_cases g body s with ⟨h1, h2⟩ | ⟨h1, h2, h3⟩ | ⟨h1, ⟨c, h2, h3⟩ | ⟨a, h2, h3⟩⟩
    · exact .inl ⟨h1, h.trans h2⟩
    · exact .inr (.inr (.inl ⟨h1, hi, h2, h.trans h3⟩))
    · exact .inr (.inr (.inr (.inl ⟨h1, hi, c, hg c h2, h.trans h3⟩)))
    · exact .inr (.inr (.inr (.inr ⟨h1, hi, _, h.trans h3, hb a s.w⟩)))
  have size : ∀ u e n c, requireValidSize u e n = .error c →
      c = .invalidWidth ∨ c = .invalidArgument ∧ ∃ n : Int, n ≤ 0 ∧ i = .walign n :=
    fun _ _ _ _ h => .inl (requireValidSize_error h)
  have none' : ∀ c, noGate = .error c →
      c = .invalidWidth ∨ c = .invalidArgument ∧ ∃ n : Int, n ≤ 0 ∧ i = .walign n := fun c h => by cases h
  have w8 := write8_obeys k hp he
  have w16 := write16_obeys k hp he
  have wis := writeSigned_obeys k hp he (writeIntUnsigned_obeys k hp he)
  have wls := writeSigned_obeys k hp he (writeLongUnsigned_obeys k hp he)
  cases i with
  | wcount => exact status countValue rfl rfl
  | windex => exact status indexValue rfl rfl
  | wstatus => exact status faultValue rfl rfl
  | w8 n v =>
    exact main (requireValidSize true exponentByte n)
      (fun n w => (write8 n.toNat (operand8 v) w).map fun _ => 0) rfl rfl (size _ _ _)
      (fun _ => k.map _ (w8 _ _))
  | w16 n v =>
    exact main (requireValidSize true exponentShort n)
      (fun n w => (write16 n.toNat (operand16 v) w).map fun _ => 0) rfl rfl (size _ _ _)
      (fun _ => k.map _ (w16 _ _))
  | wchar n v =>
    exact main (requireValidSize true exponentShort n)
      (fun n w => (write16 n.toNat (operand16 v) w).map fun _ => 0) rfl rfl (size _ _ _)
      (fun _ => k.map _ (w16 _ _))
  | wint u n v =>
    exact main (requireValidSize u exponentInt n)
      (fun n w => (writeInt u n.toNat (operand32 v) w).map fun _ => 0) rfl rfl (size _ _ _)
      (fun _ => k.map _ (writeInt_obeys k hp he _ _ _))
  | wlong u n v =>
    exact main (requireValidSize u exponentLong n)
      (fun n w => (writeLong u n.toNat v w).map fun _ => 0) rfl rfl (size _ _ _)
      (fun _ => k.map _ (writeLong_obeys k hp he _ _ _))
  | wbool v =>
    exact main noGate (fun _ w => (write8 1 (operandBit v) w).map fun _ => 0) rfl rfl none'
      (fun _ => k.map _ (w8 _ _))
  | wfloat v =>
    exact main noGate (fun _ w => (writeIntSigned 32 (operand32 v) w).map fun _ => 0) rfl rfl none'
      (fun _ => k.map _ (wis _ _))
  | wdouble v =>
    exact main noGate (fun _ w => (writeLongSigned 64 v w).map fun _ => 0) rfl rfl none'
      (fun _ => k.map _ (wls _ _))
  | walign n =>
    exact main (requirePositive n) (fun n w => alignWriter n.toNat w) rfl rfl
      (fun c h => .inr ⟨(requirePositive_error h).1, n, (requirePositive_error h).2, rfl⟩) (fun _ => alignWriter_obeys k hp he _)
  | _ => simp only [Instr.unit, Instr.opcode] at hu; exact absurd hu (by decide)

/-- What a command of `BR` does, whose procedures keep the relations: it waits for the unit, reads a
register, is refused, is invalid, or runs a procedure (30_encoding.md R61). -/
def ReaderDoes (D : Reader → Reader → Prop) (F : Cause → Reader → Reader → Prop) (H : Reader → Reader → Prop)
    (i : Instr) (s : State) : Prop :=
  (s.r.busy = true ∧ exec i s = .next s)
  ∨ (s.r.busy = false ∧ i.isStatusRead = true
    ∧ ∃ v, exec i s = .next (State.onReader (UnitState.respond v) s))
  ∨ (s.r.busy = false ∧ i.isStatusRead = false ∧ s.r.fault ≠ 0
    ∧ exec i s = .next (State.onReader UnitState.refuse s))
  ∨ (s.r.ready ∧ i.isStatusRead = false ∧ ∃ c, (c = .invalidWidth ∨ c = .invalidArgument ∧ ∃ n : Int, n ≤ 0 ∧ i = .ralign n)
    ∧ exec i s = .next (State.onReader (UnitState.raise .br c) s))
  ∨ (s.r.ready ∧ i.isStatusRead = false ∧ ∃ m : Micro Reader Value, exec i s = finishReader s m
    ∧ m.ends (D s.r) (fun c => F c s.r) (H s.r))

/-- Whatever relations every micro-operation of `BR` keeps, every command of `BR` keeps. -/
theorem exec_reader_cases {D : Reader → Reader → Prop} {F : Cause → Reader → Reader → Prop}
    {H : Reader → Reader → Prop} (k : Composes D F H) (hp : Obeys D F H pullBit)
    (he : ∀ r : Reader, r.bitIndex = 0 → (takeWhole r).ends (D r) (fun c => F c r) (H r))
    (i : Instr) (s : State) (hu : i.unit = .br) :
    ReaderDoes D F H i s := by
  have status : ∀ reg, i.isStatusRead = true → exec i s = readReader reg s →
      ReaderDoes D F H i s := by
    intro reg hi h
    unfold readReader at h
    cases hb : s.r.busy <;> simp only [hb, if_true, Bool.false_eq_true, if_false] at h
    · exact .inr (.inl ⟨hb, hi, _, h⟩)
    · exact .inl ⟨hb, h⟩
  have main : ∀ {α : Type} (g : Except Cause α) (body : α → Reader → Micro Reader Value),
      i.isStatusRead = false → exec i s = serveReader g body s →
      (∀ c, g = .error c → c = .invalidWidth ∨ c = .invalidArgument ∧ ∃ n : Int, n ≤ 0 ∧ i = .ralign n) → (∀ a, Obeys D F H (body a)) →
      ReaderDoes D F H i s := by
    intro α g body hi h hg hb
    rcases serveReader_cases g body s with ⟨h1, h2⟩ | ⟨h1, h2, h3⟩ | ⟨h1, ⟨c, h2, h3⟩ | ⟨a, h2, h3⟩⟩
    · exact .inl ⟨h1, h.trans h2⟩
    · exact .inr (.inr (.inl ⟨h1, hi, h2, h.trans h3⟩))
    · exact .inr (.inr (.inr (.inl ⟨h1, hi, c, hg c h2, h.trans h3⟩)))
    · exact .inr (.inr (.inr (.inr ⟨h1, hi, _, h.trans h3, hb a s.r⟩)))
  have size : ∀ u e n c, requireValidSize u e n = .error c →
      c = .invalidWidth ∨ c = .invalidArgument ∧ ∃ n : Int, n ≤ 0 ∧ i = .ralign n :=
    fun _ _ _ _ h => .inl (requireValidSize_error h)
  have none' : ∀ c, noGate = .error c →
      c = .invalidWidth ∨ c = .invalidArgument ∧ ∃ n : Int, n ≤ 0 ∧ i = .ralign n := fun c h => by cases h
  have r8 := read8_obeys k hp he
  have r16 := read16_obeys k hp he
  have ris := readSigned_obeys k hp he (readIntUnsigned_obeys k hp he)
  have rls := readSigned_obeys k hp he (readLongUnsigned_obeys k hp he)
  cases i with
  | rcount => exact status countValue rfl rfl
  | rindex => exact status indexValue rfl rfl
  | rstatus => exact status faultValue rfl rfl
  | r8 n =>
    exact main (requireValidSize true exponentByte n) (fun n r => read8 n.toNat r) rfl rfl (size _ _ _)
      (fun _ => r8 _)
  | r16 n =>
    exact main (requireValidSize true exponentShort n) (fun n r => read16 n.toNat r) rfl rfl (size _ _ _)
      (fun _ => r16 _)
  | rchar n =>
    exact main (requireValidSize true exponentShort n) (fun n r => read16 n.toNat r) rfl rfl (size _ _ _)
      (fun _ => r16 _)
  | rint u n =>
    exact main (requireValidSize u exponentInt n) (fun n r => readInt u n.toNat r) rfl rfl (size _ _ _)
      (fun _ => readInt_obeys k hp he _ _)
  | rlong u n =>
    exact main (requireValidSize u exponentLong n) (fun n r => readLong u n.toNat r) rfl rfl (size _ _ _)
      (fun _ => readLong_obeys k hp he _ _)
  | rbool =>
    exact main noGate (fun _ r => read8 1 r) rfl rfl none' (fun _ => r8 _)
  | rfloat =>
    exact main noGate (fun _ r => readIntSigned 32 r) rfl rfl none' (fun _ => ris _)
  | rdouble =>
    exact main noGate (fun _ r => readLongSigned 64 r) rfl rfl none' (fun _ => rls _)
  | ralign n =>
    exact main (requirePositive n) (fun n r => alignReader n.toNat r) rfl rfl
      (fun c h => .inr ⟨(requirePositive_error h).1, n, (requirePositive_error h).2, rfl⟩) (fun _ => alignReader_obeys k hp he _)
  | _ => simp only [Instr.unit, Instr.opcode] at hu; exact absurd hu (by decide)

end Sys2Proof.Machine
end

