-- ==== Sys2Proof/Laws/PerInstr.lean ====
section
/-! SUPPORT. Statements made of every command, one lemma for each constructor. -/

namespace Sys2Proof.Laws.Encoded

/-- The word of a command has its `OP` byte in bits 127:120 and 0 in both reserved fields, and its unit is
the one bit 7 of `OP` names (30_encoding.md R52, R55, R58). -/
def Statement (i : Instr) : Prop :=
  (encode i).extractLsb' 120 8 = i.opcode.byte
  ∧ (encode i).extractLsb' 113 7 = 0
  ∧ (encode i).extractLsb' 96 16 = 0
  ∧ unitOfByte ((encode i).extractLsb' 120 8) = i.unit

/-- The statement from the fields of the word. -/
theorem of_fields (i : Instr) : Statement i := by
  have h := fieldsOf_encode i
  have hop : (encode i).extractLsb' 120 8 = i.opcode.byte := congrArg Fields.op h
  exact ⟨hop, congrArg Fields.rsv1 h, congrArg Fields.rsv2 h, by rw [hop]; rfl⟩

theorem w8 (size : Int) (value : Value) : Statement (.w8 size value) := of_fields _

theorem w16 (size : Int) (value : Value) : Statement (.w16 size value) := of_fields _

theorem wint (unsigned : Bool) (size : Int) (value : Value) : Statement (.wint unsigned size value) := of_fields _

theorem wlong (unsigned : Bool) (size : Int) (value : Value) : Statement (.wlong unsigned size value) :=
  of_fields _

theorem wbool (value : Value) : Statement (.wbool value) := of_fields _

theorem wchar (size : Int) (value : Value) : Statement (.wchar size value) := of_fields _

theorem wfloat (value : Value) : Statement (.wfloat value) := of_fields _

theorem wdouble (value : Value) : Statement (.wdouble value) := of_fields _

theorem walign (byteBoundary : Int) : Statement (.walign byteBoundary) := of_fields _

theorem wcount : Statement .wcount := of_fields _

theorem windex : Statement .windex := of_fields _

theorem wstatus : Statement .wstatus := of_fields _

theorem r8 (size : Int) : Statement (.r8 size) := of_fields _

theorem r16 (size : Int) : Statement (.r16 size) := of_fields _

theorem rint (unsigned : Bool) (size : Int) : Statement (.rint unsigned size) := of_fields _

theorem rlong (unsigned : Bool) (size : Int) : Statement (.rlong unsigned size) := of_fields _

theorem rbool : Statement .rbool := of_fields _

theorem rchar (size : Int) : Statement (.rchar size) := of_fields _

theorem rfloat : Statement .rfloat := of_fields _

theorem rdouble : Statement .rdouble := of_fields _

theorem ralign (byteBoundary : Int) : Statement (.ralign byteBoundary) := of_fields _

theorem rcount : Statement .rcount := of_fields _

theorem rindex : Statement .rindex := of_fields _

theorem rstatus : Statement .rstatus := of_fields _

end Sys2Proof.Laws.Encoded
end

