-- ==== Sys2Proof/Laws/Step.lean ====
section
/-! SUPPORT. What a step can be: nothing, a command, an illegal word, a reset. -/

namespace Sys2Proof.Machine

/-- The four kinds of step. -/
theorem step_cases (s : State) :
    (s.host = [] ∧ step s = .next s)
    ∨ (∃ i u word rest, s.host = .command u word :: rest ∧ decodeFor u word = .ok i ∧ i.unit = u
      ∧ step s = exec i { s with host := rest })
    ∨ (∃ u word rest e, s.host = .command u word :: rest ∧ decodeFor u word = .error e
      ∧ step s = rejectWord u { s with host := rest })
    ∨ (∃ u rest, s.host = .reset u :: rest ∧ step s = resetUnit u { s with host := rest }) := by
  unfold step fetch
  rcases hh : s.host with _ | ⟨e, rest⟩
  · left; exact ⟨rfl, rfl⟩
  · cases e with
    | reset u => right; right; right; exact ⟨u, rest, rfl, rfl⟩
    | command u word =>
      right
      cases hd : decodeFor u word with
      | error e => right; left; exact ⟨u, word, rest, e, rfl, hd, by simp [hd]⟩
      | ok i => left; exact ⟨i, u, word, rest, rfl, hd, (decodeFor_ok hd).2, by simp [hd]⟩

/-- What an illegal word does to `BW` (60_exceptions.md R199, R201): nothing while the unit is inside a
command, else a refusal or `IllegalCommand`. -/
theorem reject_cases (id : UnitId) (u : UnitState) :
    (u.busy = true ∧ u.reject id = u)
    ∨ (u.busy = false ∧ u.fault ≠ 0 ∧ u.reject id = u.refuse)
    ∨ (u.busy = false ∧ u.fault = 0 ∧ u.reject id = u.raise id .illegalCommand) := by
  unfold UnitState.reject
  cases hb : u.busy
  · right
    by_cases hf : u.fault = 0
    · right; exact ⟨rfl, hf, by simp [hf]⟩
    · left; exact ⟨rfl, hf, by rw [if_neg (by simp), if_pos hf]⟩
  · left; exact ⟨rfl, by simp⟩

/-- A reset event happens between commands only (70_reset_and_hazards.md R220, R222). -/
theorem resetUnit_cases (s : State) :
    ((s.w.busy = true ∧ resetUnit .bw s = .refused .resetDuringCommand)
      ∨ (s.w.busy = false ∧ resetUnit .bw s = .next { s with w := s.w.resetEvent }))
    ∧ ((s.r.busy = true ∧ resetUnit .br s = .refused .resetDuringCommand)
      ∨ (s.r.busy = false ∧ resetUnit .br s = .next { s with r := s.r.resetEvent })) := by
  unfold resetUnit
  cases hw : s.w.busy <;> cases hr : s.r.busy <;> simp

/-- The streams of every state are in the canonical form of memory, whatever a step did (log entry 10). -/
theorem streams_wf (s : State) :
    Memory.wf (streamCells s.w.out) = true ∧ Memory.wf (streamCells s.r.taken) = true :=
  ⟨streamCells_wf _, streamCells_wf _⟩

end Sys2Proof.Machine
end

