-- ==== Sys2Proof/Tests/Slice0.lean ====
section
/-! SUPPORT. The model's own tests: words written out from the encoding tables, the smoke test of WellFormed,
one step on small states with the results spec/95_test_vectors.md or a rule's worked example gives, and for
every statement with hypotheses a concrete case that meets them. -/

namespace Sys2Proof.Tests

open Sys2Proof Sys2Proof.Machine

/-! ### Small states -/

/-- The state a step ended in, if it did. -/
def reached : Host.Outcome State Fault Refusal → Option State
  | .next t => some t
  | .fault _ => none
  | .refused _ => none

/-- `BW` at `bitIndex` `i` and `byteCount` `c`, its live cells the first `i` bits of `1,0,1,1,0,1,0`
(95_test_vectors.md V-W8), every byte so far 0. -/
def writerAt (i : BitVec 3) (c : Nat) : State :=
  { State.reset with
    w := { State.reset.w with
      pendingBits := #v[true, false, true, true, false, true, false, false]
      bitIndex := i
      byteCount := BitVec.ofNat 64 c
      out := List.replicate c 0 } }

/-- The same writer with the sink's replies scripted. -/
def writerWith (i : BitVec 3) (sink : List SinkReply) : State :=
  let s := writerAt i 0
  { s with w := { s.w with sink := sink } }

/-- `BR` right after reset with the bytes of `IN`. -/
def readerOf (bytes : List Byte) : State :=
  { State.reset with r := { State.reset.r with source := bytes.map .byte } }

/-- `BR` inside byte number `c` of `IN`, `i` of its bits consumed, with the bytes that follow. -/
def readerInside (b : Byte) (i : BitVec 3) (c : Nat) (bytes : List Byte) : State :=
  { State.reset with
    r := { State.reset.r with
      pendingBits := cellsOfByte b
      bitIndex := i
      byteCount := BitVec.ofNat 64 c
      taken := List.replicate c 0 ++ [b]
      source := bytes.map .byte } }

/-- A unit's fault register set, as a fault leaves it. -/
def faulted (code : BitVec 8) (s : State) : State :=
  { s with w := { s.w with fault := code }, r := { s.r with fault := code } }

/-- Both units inside a command. -/
def stuck (s : State) : State :=
  { s with w := { s.w with busy := true }, r := { s.r with busy := true } }

/-- Both units at the last byte count, `2^64 - 1`. -/
def atLastCount (s : State) : State :=
  { s with w := { s.w with byteCount := BitVec.allOnes 64 }, r := { s.r with byteCount := BitVec.allOnes 64 } }

/-- The state with one event presented. -/
def presented (e : HostEvent) (s : State) : State := { s with host := [e] }

/-- What a writer command did: the bytes handed over, the response, `bitIndex`, `byteCount`, the live cells. -/
def wrote (i : Instr) (s : State) (bytes : List Byte) (x : Response) (index : Nat) (count : Nat)
    (live : List Bool) : Bool :=
  match reached (exec i s) with
  | none => false
  | some t =>
    t.w.out == s.w.out ++ bytes && t.w.responses == s.w.responses ++ [x] && t.w.bitIndex.toNat == index
      && t.w.byteCount.toNat == count && t.w.live == live

/-- What a reader command did: the bytes taken, the response, `bitIndex`, `byteCount`. -/
def gave (i : Instr) (s : State) (bytes : List Byte) (x : Response) (index : Nat) (count : Nat) : Bool :=
  match reached (exec i s) with
  | none => false
  | some t =>
    t.r.taken == s.r.taken ++ bytes && t.r.responses == s.r.responses ++ [x] && t.r.bitIndex.toNat == index
      && t.r.byteCount.toNat == count

/-! ### WellFormed: an ill-formed term for each check -/

/-- No 32-bit `ARG` holds these sizes and boundaries (30_encoding.md R57). -/
theorem test_illFormed_writer_operands :
    (Instr.w8 (2 ^ 31) 0).wellFormed = false ∧ (Instr.w16 (-2 ^ 31 - 1) 0).wellFormed = false
    ∧ (Instr.wint true (2 ^ 31) 0).wellFormed = false ∧ (Instr.wlong false (2 ^ 32) 0).wellFormed = false
    ∧ (Instr.wchar (2 ^ 31) 0).wellFormed = false ∧ (Instr.walign (-2 ^ 31 - 1)).wellFormed = false := by
  decide

theorem test_illFormed_reader_operands :
    (Instr.r8 (2 ^ 31)).wellFormed = false ∧ (Instr.r16 (-2 ^ 31 - 1)).wellFormed = false
    ∧ (Instr.rint false (2 ^ 31)).wellFormed = false ∧ (Instr.rlong true (2 ^ 40)).wellFormed = false
    ∧ (Instr.rchar (-2 ^ 40)).wellFormed = false ∧ (Instr.ralign (2 ^ 31)).wellFormed = false := by
  decide

/-- A size no command takes is well formed all the same: it is encodable and fails validation (R57). -/
theorem test_wellFormed_but_invalid :
    (Instr.w8 (-1) 0).wellFormed = true ∧ (Instr.wint false (-2 ^ 31) 0).wellFormed = true
    ∧ (Instr.ralign (2 ^ 31 - 1)).wellFormed = true := by
  decide

/-! ### Decoding: a word for every row, written out from R52, R53, R55 -/

theorem test_decode_writer_words :
    decode 0x01000000000000060000000000000035 = .ok (.w8 6 0x35)
    ∧ decode 0x020000000000000900000000000001A5 = .ok (.w16 9 0x1A5)
    ∧ decode 0x0301000000000011000000000001BEEF = .ok (.wint true 17 0x1BEEF)
    ∧ decode 0x040000000000003FC000000000000000 = .ok (.wlong false 63 0xC000000000000000)
    ∧ decode 0x05000000000000000000000000000001 = .ok (.wbool 1)
    ∧ decode 0x060000000000001000000000000020AC = .ok (.wchar 16 0x20AC)
    ∧ decode 0x0700000000000000000000004048F5C3 = .ok (.wfloat 0x4048F5C3)
    ∧ decode 0x080000000000000040091EB851EB851F = .ok (.wdouble 0x40091EB851EB851F)
    ∧ decode 0x09000000800000000000000000000000 = .ok (.walign (-2147483648))
    ∧ decode 0x0A000000000000000000000000000000 = .ok .wcount
    ∧ decode 0x0B000000000000000000000000000000 = .ok .windex
    ∧ decode 0x0C000000000000000000000000000000 = .ok .wstatus := by
  decide

theorem test_decode_reader_words :
    decode 0x81000000000000050000000000000000 = .ok (.r8 5)
    ∧ decode 0x820000000000000B0000000000000000 = .ok (.r16 11)
    ∧ decode 0x830000000000001F0000000000000000 = .ok (.rint false 31)
    ∧ decode 0x84010000000000400000000000000000 = .ok (.rlong true 64)
    ∧ decode 0x85000000000000000000000000000000 = .ok .rbool
    ∧ decode 0x86000000000000050000000000000000 = .ok (.rchar 5)
    ∧ decode 0x87000000000000000000000000000000 = .ok .rfloat
    ∧ decode 0x88000000000000000000000000000000 = .ok .rdouble
    ∧ decode 0x89000000000000040000000000000000 = .ok (.ralign 4)
    ∧ decode 0x8A000000000000000000000000000000 = .ok .rcount
    ∧ decode 0x8B000000000000000000000000000000 = .ok .rindex
    ∧ decode 0x8C000000000000000000000000000000 = .ok .rstatus := by
  decide

/-- The illegal words of 95_test_vectors.md V-ILL, each by its own clause of R56. -/
theorem test_illegal_words :
    decodeFor .bw 0x0D000000000000000000000000000000 = .error .unknownOpcode
    ∧ decodeFor .bw 0x81000000000000030000000000000000 = .error .otherUnit
    ∧ decodeFor .br 0x01000000000000030000000000000005 = .error .otherUnit
    ∧ decodeFor .br 0xFFFFFFFFFFFFFFFFFFFFFFFFFFFFFFFF = .error .unknownOpcode
    ∧ decodeFor .bw 0x01020000000000030000000000000005 = .error .reserved1
    ∧ decodeFor .bw 0x01800000000000030000000000000005 = .error .reserved1
    ∧ decodeFor .bw 0x0301800000000004000000000000000F = .error .reserved2
    ∧ decodeFor .bw 0x01010000000000030000000000000005 = .error .unusedU
    ∧ decodeFor .br 0x87000000000000200000000000000000 = .error .unusedArg
    ∧ decodeFor .bw 0x09000000000000040000000000000001 = .error .unusedValue
    ∧ decodeFor .br 0x81000000000000030000000000000005 = .error .unusedValue := by
  decide

/-- A response word: `STATUS` in bits 71:64, `RESULT` in bits 63:0 (30_encoding.md R54). -/
theorem test_response_word :
    (Response.mk 0x05 0).word = 0x050000000000000000 ∧ (Response.mk 0 0xBEEF).word = 0x00000000000000BEEF := by
  decide

/-- The word of a table row, presented to the machine after reset, is run as the very next step. -/
theorem test_withFetchWord :
    (reached (step (State.reset.withFetchWord 128 0x02000000000000100000000000000000))).map
      (fun t => (t.w.out, t.host)) = some ([0, 0], [])
    ∧ decodeTableWord 128 0x8A000000000000000000000000000000 = some .rcount := by
  decide

/-! ### One step of each writer command -/

/-- V-W8: at `i = 5` six bits split 3 + 3. -/
theorem test_w8_splits : wrote (.w8 6 0x35) (writerAt 5 0) [0xB6] ⟨0, 0⟩ 3 1 [true, false, true] = true := by
  decide

/-- V-W8: the fast path, and bits of the value above the size cut. -/
theorem test_w8_whole_byte_and_truncation :
    wrote (.w8 8 0xA7) State.reset [0xA7] ⟨0, 0⟩ 0 1 [] = true
    ∧ wrote (.w8 4 0xFFFFFFFFFFFFF1F5) State.reset [] ⟨0, 0⟩ 4 0 [false, true, false, true] = true := by
  decide

/-- V-W16. -/
theorem test_w16_remainder : wrote (.w16 9 0x1A5) State.reset [0xD2] ⟨0, 0⟩ 1 1 [true] = true := by decide

theorem test_w16_straddles :
    wrote (.w16 16 0xBEEF) (writerAt 5 0) [0xB5, 0xF7] ⟨0, 0⟩ 5 2 [false, true, true, true, true] = true := by
  decide

/-- V-WINT: `WINT.S 12, -1000` at `i = 5`. -/
theorem test_wint_signed :
    wrote (.wint false 12 0xFFFFFFFFFFFFFC18) (writerAt 5 0) [0xB6, 0x0C] ⟨0, 0⟩ 1 2 [false] = true := by
  decide

/-- V-WINT: `WINT.U 17` at `i = 3`. -/
theorem test_wint_unsigned :
    wrote (.wint true 17 0x1BEEF) (writerAt 3 0) [0xBB, 0xEE] ⟨0, 0⟩ 4 2 [true, true, true, true] = true := by
  decide

/-- V-WLONG: 2 + 31 bits at `i = 1`. -/
theorem test_wlong_unsigned :
    wrote (.wlong true 33 0x1DEADBEEF) (writerAt 1 0) [0xF7, 0xAB, 0x6F, 0xBB] ⟨0, 0⟩ 2 4 [true, true] = true := by
  decide

/-- V-WLONG: `WLONG.S 36` at `i = 4`. -/
theorem test_wlong_signed :
    wrote (.wlong false 36 0x0ABCDEF012) (writerAt 4 0) [0xBA, 0xBC, 0xDE, 0xF0, 0x12] ⟨0, 0⟩ 0 5 [] = true := by
  decide

/-- V-TYPED: the eighth bit hands the byte over; only `VALUE[0]` counts. -/
theorem test_wbool :
    wrote (.wbool 1) (writerAt 7 0) [0xB5] ⟨0, 0⟩ 0 1 [] = true
    ∧ wrote (.wbool 2) State.reset [] ⟨0, 0⟩ 1 0 [false] = true := by
  decide

/-- V-W16: `VALUE[15:0]` only; a 7-bit char off a boundary. -/
theorem test_wchar :
    wrote (.wchar 16 0x12345) State.reset [0x23, 0x45] ⟨0, 0⟩ 0 2 [] = true
    ∧ wrote (.wchar 7 0x41) (writerAt 3 0) [0xB0] ⟨0, 0⟩ 2 1 [false, true] = true := by
  decide

/-- V-TYPED: `VALUE[63:32]` ignored; at `i = 3`. -/
theorem test_wfloat :
    wrote (.wfloat 0xFFFFFFFF4048F5C3) State.reset [0x40, 0x48, 0xF5, 0xC3] ⟨0, 0⟩ 0 4 [] = true
    ∧ wrote (.wfloat 0x4048F5C3) (writerAt 3 0) [0xA8, 0x09, 0x1E, 0xB8] ⟨0, 0⟩ 3 4 [false, true, true] = true := by
  decide

/-- V-TYPED: at `i = 4`. -/
theorem test_wdouble :
    wrote (.wdouble 0x40091EB851EB851F) (writerAt 4 0) [0xB4, 0x00, 0x91, 0xEB, 0x85, 0x1E, 0xB8, 0x51]
      ⟨0, 0⟩ 4 8 [true, true, true, true] = true := by
  decide

/-- V-ALIGN: `i = 3`, `c = 5`, `n = 4` pads 5 + 16 bits. -/
theorem test_walign_pads : wrote (.walign 4) (writerAt 3 5) [0xA0, 0, 0] ⟨0, 21⟩ 0 8 [] = true := by decide

/-- V-ALIGN: `WALIGN 2147483647` from reset pads nothing. -/
theorem test_walign_largest : wrote (.walign 2147483647) State.reset [] ⟨0, 0⟩ 0 0 [] = true := by decide

/-- V-WSTAT. -/
theorem test_writer_status_reads :
    wrote .wcount (writerAt 3 2) [] ⟨0, 2⟩ 3 2 [true, false, true] = true
    ∧ wrote .windex (writerAt 3 2) [] ⟨0, 3⟩ 3 2 [true, false, true] = true
    ∧ wrote .wstatus (faulted 1 (writerAt 3 2)) [] ⟨0, 1⟩ 3 2 [true, false, true] = true := by
  decide

/-! ### One step of each reader command -/

/-- V-R8: the split 7 + 1 across 0xC3 and 0x0F. -/
theorem test_r8_splits : gave (.r8 8) (readerInside 0xC3 1 2 [0x0F]) [0x0F] ⟨0, 134⟩ 1 3 = true := by decide

/-- V-R8: the rest of a loaded byte needs no fetch and is counted. -/
theorem test_r8_rest_of_byte : gave (.r8 3) (readerInside 0xB6 5 0 [0xA5]) [] ⟨0, 6⟩ 0 1 = true := by decide

/-- V-R8: `R16 11` over 0xF0, 0x5A. -/
theorem test_r16 : gave (.r16 11) (readerOf [0xF0, 0x5A]) [0xF0, 0x5A] ⟨0, 0x782⟩ 3 1 = true := by decide

/-- V-RINT: the signed view, -7, and -1 for a single bit. -/
theorem test_rint_signed :
    gave (.rint false 4) (readerOf [0x9F]) [0x9F] ⟨0, 0xFFFFFFFFFFFFFFF9⟩ 4 0 = true
    ∧ gave (.rint false 1) (readerOf [0x9F]) [0x9F] ⟨0, 0xFFFFFFFFFFFFFFFF⟩ 1 0 = true := by
  decide

/-- V-RINT: the unsigned view of 32 bits. -/
theorem test_rint_unsigned :
    gave (.rint true 32) (readerOf [0x9F, 0xFF, 0xFF, 0xFF]) [0x9F, 0xFF, 0xFF, 0xFF] ⟨0, 0x9FFFFFFF⟩ 0 4 = true := by
  decide

/-- V-RINT: 33 bits, signed: -3221225473. -/
theorem test_rlong_signed :
    gave (.rlong false 33) (readerOf [0x9F, 0xFF, 0xFF, 0xFF, 0xFF]) [0x9F, 0xFF, 0xFF, 0xFF, 0xFF]
      ⟨0, 0xFFFFFFFF3FFFFFFF⟩ 1 4 = true := by
  decide

/-- R153: the worked example. -/
theorem test_rlong_unsigned :
    gave (.rlong true 64) (readerOf [0x01, 0x23, 0x45, 0x67, 0x89, 0xAB, 0xCD, 0xEF])
      [0x01, 0x23, 0x45, 0x67, 0x89, 0xAB, 0xCD, 0xEF] ⟨0, 0x0123456789ABCDEF⟩ 0 8 = true := by
  decide

/-- V-RTYPED, and R156: the eighth bit counts the byte. -/
theorem test_rbool :
    gave .rbool (readerOf [0xA0]) [0xA0] ⟨0, 1⟩ 1 0 = true
    ∧ gave .rbool (readerInside 0xAA 7 0 []) [] ⟨0, 0⟩ 0 1 = true := by
  decide

/-- V-R8: `RCHAR 5` ends the byte 0x5A. -/
theorem test_rchar : gave (.rchar 5) (readerInside 0x5A 3 5 []) [] ⟨0, 26⟩ 0 6 = true := by decide

/-- V-RTYPED: off a boundary; the pattern of -0.0 is zero-extended. -/
theorem test_rfloat :
    gave .rfloat (readerInside 0xE8 3 0 [0x09, 0x1E, 0xB8, 0x60]) [0x09, 0x1E, 0xB8, 0x60] ⟨0, 0x4048F5C3⟩ 3 4 = true
    ∧ gave .rfloat (readerOf [0x80, 0, 0, 0]) [0x80, 0, 0, 0] ⟨0, 0x80000000⟩ 0 4 = true := by
  decide

/-- V-RTYPED. -/
theorem test_rdouble :
    gave .rdouble (readerOf [0xC0, 0x09, 0x1E, 0xB8, 0x51, 0xEB, 0x85, 0x1F])
      [0xC0, 0x09, 0x1E, 0xB8, 0x51, 0xEB, 0x85, 0x1F] ⟨0, 0xC0091EB851EB851F⟩ 0 8 = true := by
  decide

/-- R170: `c = 5`, `i = 3`, `RALIGN 4` returns 21; the discarded bits need not be zero. -/
theorem test_ralign : gave (.ralign 4) (readerInside 0xBF 3 5 [0xFF, 0x11, 0x22]) [0xFF, 0x11] ⟨0, 21⟩ 0 8 = true := by
  decide

/-- V-RALIGN: 0 bits at reset, no fetch. -/
theorem test_ralign_nothing : gave (.ralign 1) (readerOf [0xBF]) [] ⟨0, 0⟩ 0 0 = true := by decide

/-- R172, R173, R174: bytes consumed, not bytes fetched. -/
theorem test_reader_status_reads :
    gave .rcount (readerInside 0xB6 5 0 []) [] ⟨0, 0⟩ 5 0 = true
    ∧ gave .rindex (readerInside 0xB6 5 0 []) [] ⟨0, 5⟩ 5 0 = true
    ∧ gave .rstatus (faulted 5 State.reset) [] ⟨0, 5⟩ 0 0 = true := by
  decide

/-! ### Faults -/

/-- V-FLT a: two bytes accepted, the third refused. -/
theorem test_ioFailure_keeps_accepted_bytes :
    (reached (exec (.wint true 32 0xDEADBEEF) (writerWith 3 [.ok, .ok, .ioFail]))).map
      (fun t => (t.w.out, t.w.fault, t.w.responses)) = some ([0xBB, 0xD5], 6, [⟨6, 0⟩]) := by
  decide

/-- V-FLT c: `R16 9` runs out of bytes. -/
theorem test_unexpectedEndOfInput :
    (reached (exec (.r16 9) (readerInside 0xAA 4 0 []))).map
      (fun t => (t.r.taken, t.r.fault, t.r.responses)) = some ([0xAA], 5, [⟨5, 0⟩]) := by
  decide

/-- V-FLT a: a faulted unit refuses an illegal word with 8, and answers a legal status read. -/
theorem test_faulted_unit :
    (reached (step (presented (.command .bw 0) (faulted 6 State.reset)))).map
      (fun t => (t.w.fault, t.w.responses)) = some (6, [⟨8, 0⟩])
    ∧ (reached (step (presented (.command .bw 0x0C000000000000000000000000000000) (faulted 6 State.reset)))).map
      (fun t => (t.w.fault, t.w.responses)) = some (6, [⟨0, 6⟩]) := by
  decide

/-- V-ILL: illegal and of invalid width at once: `IllegalCommand` wins (R202). -/
theorem test_illegal_before_invalid :
    (reached (step (presented (.command .bw 0x01010000000000090000000000000000) State.reset))).map
      (fun t => (t.w.fault, t.w.responses)) = some (7, [⟨7, 0⟩]) := by
  decide

/-- The model's choice (log entries 12, 13): the two corners the spec puts outside are refused by name. -/
theorem test_refusals :
    exec (.w8 8 0xA7) (atLastCount State.reset) = .refused .byteCountOverflow
    ∧ exec (.r8 8) (atLastCount (readerOf [0xA7])) = .refused .byteCountOverflow
    ∧ step (presented (.reset .bw) (stuck State.reset)) = .refused .resetDuringCommand :=
  ⟨rfl, rfl, rfl⟩

/-- The same counts with bits that complete no byte: the command runs, so nothing but the increment is refused. -/
theorem test_last_count_runs :
    ((reached (exec (.w8 7 0x55) (atLastCount State.reset))).map fun t => (t.w.bitIndex, t.w.responses))
      = some (7, [⟨0, 0⟩])
    ∧ ((reached (exec (.r8 7) (atLastCount (readerOf [0xA7])))).map fun t => (t.r.bitIndex, t.r.responses))
      = some (7, [⟨0, 0x53⟩]) := by
  decide

/-- V-OBJ: what `WOBJN` and `ROBJN` issue. -/
theorem test_object_expansions :
    expandWobjn (some [.wint false 12 0xFFFFFFFFFFFFFC18, .wint true 5 21])
      = [.wbool 1, .wint false 12 0xFFFFFFFFFFFFFC18, .wint true 5 21]
    ∧ expandWobjn none = [.wbool 0]
    ∧ expandWobj none = .error .nullEncoder ∧ expandWriteObject none = .error .nullValue
    ∧ expandRobj none = .error .nullEncoder ∧ expandRobjn = [.rbool]
    ∧ continueRobjn 1 [.rint false 12] = [.rint false 12] ∧ continueRobjn 0 [.rint false 12] = []
    ∧ continueSequence ⟨6, 0⟩ [.wbool 1] = [] ∧ continueSequence ⟨0, 0⟩ [.wbool 1] = [.wbool 1] := by
  decide

/-! ### Every statement's hypotheses can be met

One theorem for each statement of Certificates/Slice0/Obligations.lean that has hypotheses: concrete states and
operands that meet all of them, each clause at a boundary of its range. -/

theorem meets_DecodeInvertsEncode :
    (Instr.wint false (-2 ^ 31) 0xFFFFFFFFFFFFFFFF).wellFormed = true ∧ (Instr.ralign (2 ^ 31 - 1)).wellFormed = true := by
  decide

theorem meets_EncodeInvertsDecode : decode 0x84010000FFFFFFFF0000000000000000 = .ok (.rlong true (-1)) := by decide

theorem meets_StepRunsDecodedCommand :
    (presented (.command .bw 0x01000000000000090000000000000000) State.reset).host
      = .command .bw 0x01000000000000090000000000000000 :: []
    ∧ decodeFor .bw 0x01000000000000090000000000000000 = .ok (.w8 9 0)
    ∧ decodeFor .br 0x8C000000000000000000000000000000 = .ok .rstatus := by
  decide

theorem meets_IllegalWordRaisesIllegalCommand :
    State.reset.w.ready ∧ (presented (.command .bw 0) State.reset).host = .command .bw 0 :: []
    ∧ decodeFor .bw 0 = .error .unknownOpcode
    ∧ State.reset.r.ready
    ∧ (presented (.command .br 0x0A000000000000000000000000000000) State.reset).host
      = .command .br 0x0A000000000000000000000000000000 :: []
    ∧ decodeFor .br 0x0A000000000000000000000000000000 = .error .otherUnit := by
  decide

/-- One state for both units, with a word for each of the four answers of the writer. -/
theorem meets_FaultedUnitRefuses :
    (faulted 1 State.reset).w.busy = false ∧ (faulted 1 State.reset).w.fault ≠ 0
    ∧ (faulted 1 State.reset).r.busy = false ∧ (faulted 1 State.reset).r.fault ≠ 0
    ∧ (presented (.command .bw 0x0A000000000000000000000000000000) (faulted 1 State.reset)).host
      = .command .bw 0x0A000000000000000000000000000000 :: []
    ∧ decodeFor .bw 0x0A000000000000000000000000000000 = .ok .wcount
    ∧ decodeFor .bw 0x0B000000000000000000000000000000 = .ok .windex
    ∧ decodeFor .bw 0x0C000000000000000000000000000000 = .ok .wstatus
    ∧ decodeFor .bw 0x0A000000000000000000000000000001 = .error .unusedValue
    ∧ decodeFor .br 0x8A000000000000000000000000000000 = .ok .rcount
    ∧ decodeFor .br 0x8B000000000000000000000000000000 = .ok .rindex
    ∧ decodeFor .br 0x8C000000000000000000000000000000 = .ok .rstatus
    ∧ decodeFor .br 0x85000000000000000000000000000000 = .ok .rbool := by
  decide

theorem meets_BusyUnitTakesNoWord :
    (presented (.command .bw 0) (stuck State.reset)).host = .command .bw 0 :: []
    ∧ (stuck State.reset).w.busy = true
    ∧ (presented (.command .br 0) (stuck State.reset)).host = .command .br 0 :: []
    ∧ (stuck State.reset).r.busy = true := by
  decide

/-- `BR` right after reset with a source that yields the bytes and then never answers. -/
def silentReader (bytes : List Byte) : State :=
  { State.reset with r := { State.reset.r with source := bytes.map .byte ++ [.noReply] } }

/-- Both outcomes of both units: a response, and a far end that never answers, after one reply and at once. -/
theorem meets_OneResponsePerCommand :
    (∃ t, step (presented (.command .bw 0x05000000000000000000000000000001) State.reset) = .next t
      ∧ t.w.busy = false)
    ∧ (∃ t, step (presented (.command .bw 0x0200000000000010000000000000BEEF) (writerWith 7 [.ok, .noReply])) = .next t
      ∧ t.w.busy = true)
    ∧ (∃ t, step (presented (.command .br 0x85000000000000000000000000000000) (readerOf [0xA0])) = .next t
      ∧ t.r.busy = false)
    ∧ (∃ t, step (presented (.command .br 0x82000000000000100000000000000000) (silentReader [0xA0])) = .next t
      ∧ t.r.busy = true)
    ∧ (∃ t, step (presented (.command .br 0x85000000000000000000000000000000) (silentReader [])) = .next t
      ∧ t.r.busy = true)
    ∧ State.reset.w.busy = false ∧ (writerWith 7 [.ok, .noReply]).w.busy = false
    ∧ (readerOf [0xA0]).r.busy = false ∧ (silentReader [0xA0]).r.busy = false ∧ (silentReader []).r.busy = false :=
  ⟨⟨_, rfl, by decide⟩, ⟨_, rfl, by decide⟩, ⟨_, rfl, by decide⟩, ⟨_, rfl, by decide⟩, ⟨_, rfl, by decide⟩,
    by decide⟩

theorem meets_ResetEventClearsItsUnit :
    (presented (.reset .bw) (faulted 6 (writerAt 3 2))).host = .reset .bw :: []
    ∧ (presented (.reset .bw) (faulted 6 (writerAt 3 2))).w.busy = false
    ∧ (presented (.reset .br) (faulted 5 (readerInside 0xB6 5 2 []))).host = .reset .br :: []
    ∧ (presented (.reset .br) (faulted 5 (readerInside 0xB6 5 2 []))).r.busy = false := by
  decide

theorem meets_ResetDuringCommandIsOutside :
    (presented (.reset .bw) (stuck State.reset)).host = .reset .bw :: []
    ∧ (presented (.reset .bw) (stuck State.reset)).w.busy = true
    ∧ (presented (.reset .br) (stuck State.reset)).host = .reset .br :: []
    ∧ (presented (.reset .br) (stuck State.reset)).r.busy = true := by
  decide

theorem meets_OnlyResetClearsFault :
    (∃ t, step (presented (.reset .bw) (faulted 6 State.reset)) = .next t ∧ t.w.fault ≠ 6)
    ∧ (∃ t, step (presented (.reset .br) (faulted 6 State.reset)) = .next t ∧ t.r.fault ≠ 6)
    ∧ (faulted 6 State.reset).w.fault = 6 ∧ (faulted 6 State.reset).r.fault = 6 ∧ (6 : BitVec 8) ≠ 0 :=
  ⟨⟨_, rfl, by decide⟩, ⟨_, rfl, by decide⟩, by decide⟩

/-- Two machines that share one unit and differ in the other. -/
theorem meets_UnitsAreIndependent :
    (∃ t, exec (.w8 3 5) State.reset = .next t) ∧ (Instr.w8 3 5).unit = .bw
    ∧ State.reset.w = (readerOf [0xB6]).w ∧ State.reset ≠ readerOf [0xB6]
    ∧ (∃ t, exec (.r8 3) (readerOf [0xB6]) = .next t) ∧ (Instr.r8 3).unit = .br
    ∧ (readerOf [0xB6]).r = (presented (.reset .bw) (readerOf [0xB6])).r :=
  ⟨⟨_, rfl⟩, by decide, by decide, by decide, ⟨_, rfl⟩, by decide, by decide⟩

/-- Off both byte boundaries, with a command that crosses one. -/
theorem meets_StepKeepsStreamsInStep :
    StreamsInStep (presented (.command .bw 0x010000000000000800000000000000A7) (writerAt 3 2))
    ∧ (∃ t, step (presented (.command .bw 0x010000000000000800000000000000A7) (writerAt 3 2)) = .next t)
    ∧ StreamsInStep (presented (.command .br 0x81000000000000080000000000000000) (readerInside 0xB6 5 2 [0xA0]))
    ∧ (∃ t, step (presented (.command .br 0x81000000000000080000000000000000) (readerInside 0xB6 5 2 [0xA0]))
      = .next t) :=
  ⟨⟨by decide, by decide, fun _ h => absurd rfl h⟩, ⟨_, rfl⟩,
    ⟨by decide, by decide, fun _ _ => ⟨[0, 0], 0xB6, rfl, rfl⟩⟩, ⟨_, rfl⟩⟩

/-- A faulted machine that has answered with its fault. -/
theorem meets_StepKeepsAnswersLegal :
    let s := faulted 6 State.reset
    let t : State := { s with
      w := { s.w with responses := [⟨0, 21⟩, ⟨6, 0⟩] }, host := [.command .bw 0] }
    AnswersLegal t ∧ ∃ u, step t = .next u :=
  ⟨⟨by decide, by decide, by decide, by decide⟩, ⟨_, rfl⟩⟩

theorem meets_ByteCountsOnlyRise :
    (∃ t, exec (.w8 8 0xA7) (writerAt 3 2) = .next t ∧ preciseCode t.w.fault)
    ∧ (∃ t, exec (.r8 8) (readerInside 0xB6 5 2 [0xA0]) = .next t ∧ preciseCode t.r.fault) :=
  ⟨⟨_, rfl, by decide⟩, ⟨_, rfl, by decide⟩⟩

/-- Every command's sizes just outside its range, at 0 and below. -/
theorem meets_InvalidWidthIsPrecise :
    (writerAt 3 2).w.ready ∧ (readerInside 0xB6 5 2 []).r.ready
    ∧ (∀ n ∈ [(-2 ^ 31 : Int), -1, 0, 9], ¬(1 ≤ n ∧ n ≤ 8))
    ∧ (∀ n ∈ [(-2 ^ 31 : Int), -1, 0, 17], ¬(1 ≤ n ∧ n ≤ 16))
    ∧ (∀ n ∈ [(-2 ^ 31 : Int), -1, 0, 33], ¬(1 ≤ n ∧ n ≤ 32))
    ∧ (∀ n ∈ [(-2 ^ 31 : Int), -1, 0, 32], ¬(1 ≤ n ∧ n ≤ 31))
    ∧ (∀ n ∈ [(-2 ^ 31 : Int), -1, 0, 65], ¬(1 ≤ n ∧ n ≤ 64))
    ∧ (∀ n ∈ [(-2 ^ 31 : Int), -1, 0, 64], ¬(1 ≤ n ∧ n ≤ 63)) := by
  decide

theorem meets_InvalidArgumentIsPrecise :
    (writerAt 3 5).w.ready ∧ (readerInside 0xB6 3 5 []).r.ready ∧ (0 : Int) ≤ 0
    ∧ (∃ t, exec (.walign 0) (writerAt 3 5) = .next t ∧ t.w.fault = 2) ∧ (writerAt 3 5).w.fault ≠ 2
    ∧ (∃ t, exec (.ralign (-1)) (writerAt 3 5) = .next t ∧ t.r.fault = 2) ∧ (writerAt 3 5).r.fault ≠ 2 :=
  ⟨by decide, by decide, by decide, ⟨_, rfl, by decide⟩, by decide, ⟨_, rfl, by decide⟩, by decide⟩

/-- The smallest size and every procedure's largest, off a byte boundary, with a sink that refuses a byte. -/
theorem meets_WriteProceduresAreFlat :
    ∃ (size₁ size₂ size₃ size₄ : Nat) (w : Writer), w = (writerWith 5 [.ok, .ioFail]).w
      ∧ size₁ = 1 ∧ size₂ = 8 ∧ size₃ = 16 ∧ size₄ = 64 ∧ 1 ≤ size₁ ∧ size₂ ≤ 8 ∧ size₃ ≤ 16 ∧ size₄ ≤ 64 :=
  ⟨_, _, _, _, _, rfl, rfl, rfl, rfl, rfl, by decide, by decide, by decide, by decide⟩

theorem meets_PrimitiveWritesAppend :
    (writerWith 5 [.ok, .ok, .ioFail]).w.ready ∧ (writerWith 5 [.ok, .ok, .ioFail]).w.accepts 1
    ∧ (writerWith 5 [.ok, .ok, .ioFail]).w.accepts 8 ∧ (writerWith 5 [.ok, .ok, .ioFail]).w.accepts 16 := by
  decide

theorem meets_IntegerWritesAppend :
    (writerAt 7 2).w.ready ∧ (writerAt 7 2).w.accepts 1 ∧ (writerAt 7 2).w.accepts 31
    ∧ (writerAt 7 2).w.accepts 32 ∧ (writerAt 7 2).w.accepts 63 ∧ (writerAt 7 2).w.accepts 64 := by
  decide

theorem meets_TypedWritesAppend :
    (writerAt 7 2).w.ready ∧ (writerAt 7 2).w.accepts 1 ∧ (writerAt 7 2).w.accepts 32
    ∧ (writerAt 7 2).w.accepts 64 := by
  decide

/-- Both a pad that is needed and one that is not, up to the largest boundary. -/
theorem meets_AlignWriterPads :
    (writerAt 3 5).w.ready ∧ (writerAt 3 5).w.accepts ((writerAt 3 5).w.alignBits 4)
    ∧ State.reset.w.accepts (State.reset.w.alignBits (2 ^ 31 - 1)) ∧ (writerAt 3 5).w.alignBits 4 = 21
    ∧ State.reset.w.alignBits (2 ^ 31 - 1) = 0 := by
  decide

theorem meets_AlignWriterTwicePadsNothing :
    (writerAt 3 5).w.ready ∧ ∃ t, exec (.walign 4) (writerAt 3 5) = .next t ∧ t.w.ready :=
  ⟨by decide, ⟨_, rfl, by decide⟩⟩

theorem meets_WriterStatusReads :
    (writerAt 3 5).w.busy = false ∧ (faulted 6 (writerAt 3 5)).w.busy = false := by decide

/-- Values that differ above the size. -/
theorem meets_WritesReadOnlyLowBits :
    topDown 4 0xFFFFFFFFFFFFF1F5 = topDown 4 0x5 ∧ (0xFFFFFFFFFFFFF1F5 : Value) ≠ 0x5
    ∧ topDown 32 0xFFFFFFFF4048F5C3 = topDown 32 0x4048F5C3 ∧ topDown 1 3 = topDown 1 1 := by
  decide

/-- The first byte refused, and the third of four (95_test_vectors.md V-FLT a). -/
theorem meets_RefusedByteEndsWrite :
    (writerWith 3 [.ok, .ok, .ioFail]).w.ready
    ∧ writtenBits (writerWith 3 [.ok, .ok, .ioFail]).w.toUnitState (.wint true 32 0xDEADBEEF)
      = some (topDown 32 0xDEADBEEF)
    ∧ (writerWith 3 [.ok, .ok, .ioFail]).w.sink = List.replicate 2 .ok ++ .ioFail :: []
    ∧ 2 < (writerWith 3 [.ok, .ok, .ioFail]).w.completes (topDown 32 0xDEADBEEF).length
    ∧ (writerWith 3 [.ok, .ok, .ioFail]).w.byteCount.toNat + 2 < 2 ^ 64
    ∧ (writerWith 0 [.ioFail]).w.ready
    ∧ writtenBits (writerWith 0 [.ioFail]).w.toUnitState (.w8 8 0xA7) = some (topDown 8 0xA7)
    ∧ (writerWith 0 [.ioFail]).w.sink = List.replicate 0 .ok ++ .ioFail :: []
    ∧ 0 < (writerWith 0 [.ioFail]).w.completes (topDown 8 0xA7).length := by
  decide

theorem meets_SilentSinkKeepsUnitBusy :
    (writerWith 3 [.ok, .noReply]).w.ready
    ∧ writtenBits (writerWith 3 [.ok, .noReply]).w.toUnitState (.walign 4) = some (List.replicate 29 false)
    ∧ (writerWith 3 [.ok, .noReply]).w.sink = List.replicate 1 .ok ++ .noReply :: []
    ∧ 1 < (writerWith 3 [.ok, .noReply]).w.completes (List.replicate 29 false).length
    ∧ (writerWith 3 [.ok, .noReply]).w.byteCount.toNat + 1 < 2 ^ 64 := by
  decide

theorem meets_WriteCommandsFrame :
    (Instr.w16 16 0xBEEF).unit = .bw ∧ (∃ t, exec (.w16 16 0xBEEF) (writerWith 5 [.ok, .ioFail]) = .next t)
    ∧ Instr.wcount.unit = .bw ∧ Instr.wcount.isStatusRead = true ∧ ∃ t, exec .wcount (writerAt 3 2) = .next t :=
  ⟨by decide, ⟨_, rfl⟩, by decide, by decide, ⟨_, rfl⟩⟩

theorem meets_ReadProceduresAreFlat :
    ∃ (size₁ size₂ size₃ size₄ : Nat) (r : Reader), r = (readerInside 0xB6 5 0 [0xA0]).r
      ∧ size₁ = 1 ∧ size₂ = 8 ∧ size₃ = 16 ∧ size₄ = 64 ∧ 1 ≤ size₁ ∧ size₂ ≤ 8 ∧ size₃ ≤ 16 ∧ size₄ ≤ 64 :=
  ⟨_, _, _, _, _, rfl, rfl, rfl, rfl, rfl, by decide, by decide, by decide, by decide⟩

/-- Eleven bits are left: sizes 1 and 8, and 11 of the 16, as far as the source goes. -/
theorem meets_PrimitiveReadsConsume :
    (readerInside 0xB6 5 0 [0xA0]).r.ready ∧ (readerInside 0xB6 5 0 [0xA0]).r.yields 1
    ∧ (readerInside 0xB6 5 0 [0xA0]).r.yields 8 ∧ (readerInside 0xB6 5 0 [0xA0]).r.yields 11
    ∧ (readerInside 0xB6 5 0 [0xA0, 0xC3]).r.yields 16 := by
  decide

theorem meets_IntegerReadsConsume :
    let s := readerInside 0xB6 7 0 [0xFF, 0x80, 0, 0, 1, 0x7F, 0xFF, 0xFF]
    s.r.ready ∧ s.r.yields 1 ∧ s.r.yields 31 ∧ s.r.yields 32 ∧ s.r.yields 57
      ∧ (readerOf [1, 2, 3, 4, 5, 6, 7, 8]).r.yields 63 ∧ (readerOf [1, 2, 3, 4, 5, 6, 7, 8]).r.yields 64 := by
  decide

theorem meets_TypedReadsConsume :
    (readerInside 0xB6 7 0 []).r.ready ∧ (readerInside 0xB6 7 0 []).r.yields 1
    ∧ (readerOf [1, 2, 3, 4, 5, 6, 7, 8]).r.yields 32 ∧ (readerOf [1, 2, 3, 4, 5, 6, 7, 8]).r.yields 64 := by
  decide

theorem meets_AlignReaderDiscards :
    (readerInside 0xBF 3 5 [0xFF, 0x11]).r.ready
    ∧ (readerInside 0xBF 3 5 [0xFF, 0x11]).r.yields ((readerInside 0xBF 3 5 [0xFF, 0x11]).r.alignBits 4)
    ∧ State.reset.r.yields (State.reset.r.alignBits (2 ^ 31 - 1)) := by
  decide

theorem meets_ReaderStatusReads :
    (readerInside 0xB6 5 0 []).r.busy = false ∧ (faulted 5 State.reset).r.busy = false := by decide

/-- End of data at the first byte a command needs, at the last byte count, and after one byte; an I/O failure. -/
theorem meets_EndedSourceEndsRead :
    let empty := atLastCount { State.reset with r := { State.reset.r with source := [.endOfData] } }
    let ended : State := { State.reset with r := { State.reset.r with source := [.byte 0x56, .endOfData] } }
    let failed : State := { State.reset with r := { State.reset.r with source := [.byte 0x56, .ioFail] } }
    empty.r.ready ∧ consumedSize empty.r.toUnitState .rbool = some 1 ∧ ([] : List Byte).length < empty.r.fetches 1
    ∧ empty.r.byteCount.toNat + (if 0 < empty.r.bitIndex.toNat then 1 else 0) + ([] : List Byte).length < 2 ^ 64
    ∧ empty.r.source = [].map .byte ++ .endOfData :: []
    ∧ ended.r.ready ∧ consumedSize ended.r.toUnitState (.rint true 32) = some 32
    ∧ [(0x56 : Byte)].length < ended.r.fetches 32
    ∧ ended.r.byteCount.toNat + (if 0 < ended.r.bitIndex.toNat then 1 else 0) + [(0x56 : Byte)].length < 2 ^ 64
    ∧ ended.r.source = [0x56].map .byte ++ .endOfData :: []
    ∧ failed.r.ready ∧ consumedSize failed.r.toUnitState .rdouble = some 64
    ∧ [(0x56 : Byte)].length < failed.r.fetches 64
    ∧ failed.r.byteCount.toNat + (if 0 < failed.r.bitIndex.toNat then 1 else 0) + [(0x56 : Byte)].length < 2 ^ 64
    ∧ failed.r.source = [0x56].map .byte ++ .ioFail :: [] := by
  decide

theorem meets_UnlistedReplyEndsRead :
    let s := readerInside 0xAA 4 0 []
    s.r.ready ∧ consumedSize s.r.toUnitState (.r16 9) = some 9 ∧ ([] : List Byte).length < s.r.fetches 9
    ∧ s.r.byteCount.toNat + (if 0 < s.r.bitIndex.toNat then 1 else 0) + ([] : List Byte).length < 2 ^ 64
    ∧ s.r.source = [].map .byte := by
  decide

/-- After one byte, and at once at the last byte count. -/
theorem meets_SilentSourceKeepsUnitBusy :
    let s := silentReader [0x56]
    let last := atLastCount (silentReader [])
    s.r.ready ∧ consumedSize s.r.toUnitState .rfloat = some 32 ∧ [(0x56 : Byte)].length < s.r.fetches 32
    ∧ s.r.byteCount.toNat + (if 0 < s.r.bitIndex.toNat then 1 else 0) + [(0x56 : Byte)].length < 2 ^ 64
    ∧ s.r.source = [0x56].map .byte ++ .noReply :: []
    ∧ last.r.ready ∧ consumedSize last.r.toUnitState .rbool = some 1 ∧ ([] : List Byte).length < last.r.fetches 1
    ∧ last.r.byteCount.toNat + (if 0 < last.r.bitIndex.toNat then 1 else 0) + ([] : List Byte).length < 2 ^ 64
    ∧ last.r.source = [].map .byte ++ .noReply :: [] := by
  decide

theorem meets_ReadCommandsFrame :
    (Instr.r16 16).unit = .br ∧ (∃ t, exec (.r16 16) (readerInside 0xB6 5 0 [0xA0]) = .next t)
    ∧ Instr.rcount.unit = .br ∧ Instr.rcount.isStatusRead = true
    ∧ ∃ t, exec .rcount (readerInside 0xB6 5 0 []) = .next t :=
  ⟨by decide, ⟨_, rfl⟩, by decide, by decide, ⟨_, rfl⟩⟩

/-- The lowest signed 63-bit value, and the highest unsigned 64-bit one, each written three bits into a byte. -/
theorem meets_LongRoundTrip :
    (∃ s₁ s₂ : State, exec (.wlong false 63 0xC000000000000000) (writerAt 3 0) = .next s₁
      ∧ exec (.walign 1) s₁ = .next s₂ ∧ s₂.w.ready
      ∧ (readerInside 0xB0 3 0 [0, 0, 0, 0, 0, 0, 0, 0]).r.upcoming
        = (bitsOfBytes s₂.w.out).drop (writerAt 3 0).w.stream.length)
    ∧ (∃ s₁ s₂ : State, exec (.wlong true 64 0xFFFFFFFFFFFFFFFF) (writerAt 3 0) = .next s₁
      ∧ exec (.walign 1) s₁ = .next s₂ ∧ s₂.w.ready
      ∧ (readerInside 0xBF 3 0 [0xFF, 0xFF, 0xFF, 0xFF, 0xFF, 0xFF, 0xFF, 0xE0]).r.upcoming
        = (bitsOfBytes s₂.w.out).drop (writerAt 3 0).w.stream.length)
    ∧ (writerAt 3 0).w.ready
    ∧ -2 ^ (63 - 1) ≤ (0xC000000000000000 : Value).toInt ∧ (0xC000000000000000 : Value).toInt < 2 ^ (63 - 1)
    ∧ (0xFFFFFFFFFFFFFFFF : Value).toNat < 2 ^ 64
    ∧ (readerInside 0xB0 3 0 [0, 0, 0, 0, 0, 0, 0, 0]).r.ready
    ∧ (readerInside 0xB0 3 0 [0, 0, 0, 0, 0, 0, 0, 0]).r.countFits 63
    ∧ (readerInside 0xBF 3 0 [0xFF, 0xFF, 0xFF, 0xFF, 0xFF, 0xFF, 0xFF, 0xE0]).r.countFits 64 :=
  ⟨⟨_, _, rfl, rfl, by decide, by decide⟩, ⟨_, _, rfl, rfl, by decide, by decide⟩, by decide⟩

/-- A present value and an absent one. -/
theorem meets_PresenceBitDecidesRobjn :
    State.reset.w.ready ∧ State.reset.w.accepts 1
    ∧ expandWobjn (some [.wint true 5 21]) = .wbool 1 :: [.wint true 5 21] ∧ expandWobjn none = .wbool 0 :: []
    ∧ (readerInside 0xE0 7 0 [0xC5]).r.ready ∧ (readerInside 0xE0 7 0 [0xC5]).r.countFits 1
    ∧ (readerInside 0xE0 7 0 []).r.upcoming = false :: [] ∧ (readerInside 0xE1 7 0 []).r.upcoming = true :: [] := by
  decide

end Sys2Proof.Tests
end

section
/-! ### The writer under every reply of its sink

One inversion says how a procedure that writes a given bit sequence can end (41_writer_primitives.md R90, R91): it is
proved once for each procedure, by the procedure's own composition, and then for every bit-writing command. -/

namespace Sys2Proof.Machine

/-! #### Ending inside a bit sequence -/

/-- From `w` to `x` the sink accepted the first `j` bytes of the bits being written, and a byte they still need was not
accepted; the accumulator is not constrained (41_writer_primitives.md R91, 60_exceptions.md R203). -/
structure Stopped (bits : List Bool) (j : Nat) (w x : Writer) : Prop where
  inside : j < w.completes bits.length
  stored : x.out.length = w.out.length + j
  kept : bitsOfBytes x.out = (w.stream ++ bits).take (8 * (w.out.length + j))
  fault : x.fault = w.fault
  busy : x.busy = w.busy
  draws : x.draws = w.draws
  responses : x.responses = w.responses

/-- Each way a procedure that writes `bits` from `w` can end, by the sink's replies: all bits appended, stopped at the
first reply that is no `ok`, or stopped at a byte that cannot be counted. -/
def Emits {α : Type} (bits : List Bool) (w : Writer) : Micro Writer α → Prop
  | .done _ x => w.accepts bits.length ∧ Pushed bits w x
  | .raised c x => c = .ioFailure ∧ ∃ j, w.sink = List.replicate j .ok ++ .ioFail :: x.sink ∧ Stopped bits j w x
  | .hung x => ∃ j later, w.sink = List.replicate j .ok ++ .noReply :: later ∧ Stopped bits j w x
  | .overflow => ∃ j, (∀ r ∈ w.sink.take (j + 1), r = SinkReply.ok) ∧ 2 ^ 64 ≤ w.byteCount.toNat + (j + 1)

theorem stream_length (w : Writer) : w.stream.length = 8 * w.out.length + w.bitIndex.toNat := by
  simp [Writer.stream, live_length]

/-- A byte needed by the first bits is needed by all of them. -/
theorem stopped_of_first {bs : List Bool} {j : Nat} {w x : Writer} (h : Stopped bs j w x) (cs : List Bool) :
    Stopped (bs ++ cs) j w x where
  inside := by
    have := h.inside
    simp only [UnitState.completes, List.length_append] at *
    omega
  stored := h.stored
  kept := by
    have := h.inside
    simp only [UnitState.completes] at this
    rw [h.kept, ← List.append_assoc, List.take_append_of_le_length (l₁ := w.stream ++ bs)]
    rw [List.length_append, stream_length]
    omega
  fault := h.fault
  busy := h.busy
  draws := h.draws
  responses := h.responses

/-- Stopped inside the later bits, the bytes of the first bits were accepted too. -/
theorem stopped_of_rest {bs cs : List Bool} {j : Nat} {w x y : Writer} (p : Pushed bs w x) (h : Stopped cs j x y) :
    Stopped (bs ++ cs) (w.completes bs.length + j) w y := by
  have hout : x.out.length = w.out.length + w.completes bs.length := by
    obtain ⟨added, hadded, hlen⟩ := p.stored
    rw [hadded, List.length_append, hlen]
  exact {
    inside := by
      rw [List.length_append, pushed_completes_add p]
      exact Nat.add_lt_add_left h.inside _
    stored := by rw [h.stored, hout, Nat.add_assoc]
    kept := by rw [h.kept, hout, p.stream, List.append_assoc, Nat.add_assoc]
    fault := h.fault.trans p.fault
    busy := h.busy.trans p.busy
    draws := h.draws.trans p.draws
    responses := h.responses.trans p.responses }

/-! #### The sink's replies -/

/-- Accepted replies, then accepted replies up to another one, are accepted replies up to that one. -/
theorem oks_before_reply {l later : List SinkReply} {k j : Nat} {r : SinkReply} (hk : ∀ y ∈ l.take k, y = .ok)
    (hj : l.drop k = List.replicate j .ok ++ r :: later) : l = List.replicate (k + j) .ok ++ r :: later := by
  have hlen : k ≤ l.length := by
    by_contra hlt
    rw [List.drop_eq_nil_of_le (by omega)] at hj
    simp at hj
  have hfirst : l.take k = List.replicate k .ok :=
    List.eq_replicate_iff.mpr ⟨List.length_take_of_le hlen, hk⟩
  rw [← List.take_append_drop k l, hj, hfirst, List.replicate_add, List.append_assoc]

/-- The first reply that is no `ok` comes after every accepted one. -/
theorem oks_le {later : List SinkReply} {k j : Nat} {r : SinkReply} (hr : r ≠ .ok)
    (h : ∀ y ∈ (List.replicate j SinkReply.ok ++ r :: later).take k, y = .ok) : k ≤ j := by
  by_contra hlt
  refine hr (h r (List.mem_take_iff_getElem.mpr ⟨j, ?_, ?_⟩))
  · simp; omega
  · simp

/-- A list of replies has one first reply that is no `ok`. -/
theorem first_refusal_unique {l l' : List SinkReply} {j k : Nat} {r r' : SinkReply} (hr : r ≠ .ok) (hr' : r' ≠ .ok)
    (h : List.replicate j SinkReply.ok ++ r :: l = List.replicate k SinkReply.ok ++ r' :: l') :
    j = k ∧ r = r' ∧ l = l' := by
  have hjk : j = k := by
    apply Nat.le_antisymm
    · exact oks_le hr' (later := l') (by rw [← h]; simp)
    · exact oks_le hr (later := l) (by rw [h]; simp)
  subst hjk
  simpa using h

/-! #### Composition -/

/-- In sequence, two procedures write the bits of the first and then those of the second. -/
theorem Emits.bind {α β : Type} {bs cs : List Bool} {w : Writer} {m : Micro Writer α}
    {f : α → Writer → Micro Writer β} (hm : Emits bs w m)
    (hf : ∀ a x, Pushed bs w x → Emits cs x (f a x)) : Emits (bs ++ cs) w (m.bind f) := by
  cases m with
  | done a x =>
    obtain ⟨⟨hoks, hfits⟩, p⟩ := hm
    have hrest := hf a x p
    rw [Micro.bind_done]
    cases hfx : f a x with
    | done b y =>
      rw [hfx] at hrest
      obtain ⟨⟨hoks', hfits'⟩, q⟩ := hrest
      have hc := pushed_completes_add p cs.length
      refine ⟨⟨?_, ?_⟩, pushed_append p q⟩
      · rw [List.length_append, hc, List.take_add, ← p.replies]
        intro r hr
        exact (List.mem_append.mp hr).elim (hoks r) (hoks' r)
      · simp only [UnitState.countFits, List.length_append, hc, p.count] at *
        omega
    | raised c y =>
      rw [hfx] at hrest
      obtain ⟨hc, j, hsink, hstop⟩ := hrest
      exact ⟨hc, _, oks_before_reply hoks (p.replies ▸ hsink), stopped_of_rest p hstop⟩
    | hung y =>
      rw [hfx] at hrest
      obtain ⟨j, later, hsink, hstop⟩ := hrest
      exact ⟨_, later, oks_before_reply hoks (p.replies ▸ hsink), stopped_of_rest p hstop⟩
    | overflow =>
      rw [hfx] at hrest
      obtain ⟨j, hoks', hfull⟩ := hrest
      refine ⟨w.completes bs.length + j, ?_, by rw [p.count] at hfull; omega⟩
      rw [Nat.add_assoc, List.take_add, ← p.replies]
      intro r hr
      exact (List.mem_append.mp hr).elim (hoks r) (hoks' r)
  | raised c x =>
    obtain ⟨hc, j, hsink, hstop⟩ := hm
    exact ⟨hc, j, hsink, stopped_of_first hstop cs⟩
  | hung x =>
    obtain ⟨j, later, hsink, hstop⟩ := hm
    exact ⟨j, later, hsink, stopped_of_first hstop cs⟩
  | overflow => exact hm

theorem Emits.done_nil {α : Type} (a : α) (w : Writer) : Emits [] w (.done a w) := by
  have := w.bitIndex.isLt
  exact ⟨accepts_within (by simp; omega), pushed_nil w⟩

theorem Emits.map {α β : Type} {bits : List Bool} {w : Writer} {m : Micro Writer α} (f : α → β)
    (h : Emits bits w m) : Emits bits w (m.map f) := by
  have := h.bind (cs := []) fun a x _ => Emits.done_nil (f a) x
  rwa [List.append_nil] at this

/-! #### The micro-operations -/

/-- A byte made of the live cells and some bits, handed to the sink and counted, writes these bits: the eighth
`PushBit` of a byte and the fast path both do this (41_writer_primitives.md R81, R84). -/
theorem emits_handOver {w : Writer} {b : Byte} {bits : List Bool} (h : bitsOfByte b = w.live ++ bits)
    (cells : Vector Bool 8) :
    Emits bits w
      ((sinkPut b { w with pendingBits := cells }).bind fun _ x => countWritten { x with bitIndex := 0 }) := by
  have hlen : 8 = w.bitIndex.toNat + bits.length := by
    simpa [live_length] using congrArg List.length h
  have hc : w.completes bits.length = 1 := by simp only [UnitState.completes]; omega
  have stopped : ∀ sink, Stopped bits 0 w { w with pendingBits := cells, sink := sink } := by
    intro sink
    have : bitsOfBytes w.out = (w.stream ++ bits).take (8 * w.out.length) := by
      rw [Writer.stream, List.append_assoc, List.take_left' (by simp)]
    constructor <;> simp [hc, this]
  rcases sinkPut_cases b { w with pendingBits := cells }
    with ⟨hoks, hput⟩ | ⟨rest, hsink, hput⟩ | ⟨rest, hsink, hput⟩
  · rw [hput, Micro.bind_done]
    rcases countWritten_cases (w := { w with
      pendingBits := cells, bitIndex := 0, out := w.out ++ [b], sink := w.sink.drop 1 })
      with ⟨hfits, hcount⟩ | ⟨hfull, hcount⟩
    · rw [hcount]
      refine ⟨⟨by rw [hc]; exact hoks, by simpa only [UnitState.countFits, hc] using hfits⟩, ?_⟩
      have hsucc : (w.byteCount + 1).toNat = w.byteCount.toNat + 1 := by
        rw [BitVec.toNat_add]; simp at hfits ⊢; omega
      constructor <;> simp [hc]
      · simp [Writer.stream, Writer.live, h]
      · omega
      · simpa using hsucc
    · rw [hcount]
      refine ⟨0, hoks, ?_⟩
      simp at hfull
      omega
  · rw [hput]
    exact ⟨rfl, 0, hsink, stopped rest⟩
  · rw [hput]
    exact ⟨0, rest, hsink, stopped w.sink⟩

theorem emits_pushBit (b : Bool) (w : Writer) : Emits [b] w (pushBit b w) := by
  by_cases hi : w.bitIndex.toNat < 7
  · have ha : w.accepts 1 := accepts_within (by omega)
    obtain ⟨x, hx, p⟩ := pushBit_accepts b ha
    rw [hx]
    exact ⟨ha, p⟩
  · unfold pushBit
    simp only [hi, if_false]
    exact emits_handOver (by rw [bitsOfByte_assembleByte, eighth_setCell hi]) _

theorem emits_emitWhole (v : Value) {w : Writer} (h : w.bitIndex = 0) : Emits (topDown 8 v) w (emitWhole v w) := by
  have hlive : w.live = [] := by simp [Writer.live, h]
  have hand := emits_handOver (w := w) (b := v.setWidth 8) (bits := topDown 8 v)
    (by rw [hlive, topDown_eight, List.nil_append]) w.pendingBits
  have hzero : emitWhole v w = (sinkPut (v.setWidth 8) w).bind fun _ x => countWritten { x with bitIndex := 0 } := by
    unfold emitWhole
    rcases sinkPut_cases (v.setWidth 8) w with ⟨_, hput⟩ | ⟨_, _, hput⟩ | ⟨_, _, hput⟩ <;> rw [hput]
    · simp only [Micro.bind_done, ← h]
    · rfl
    · rfl
  rw [hzero]
  exact hand

/-! #### The procedures -/

theorem emits_pushDown (size : Nat) (v : Value) (w : Writer) : Emits (topDown size v) w (pushDown size v w) := by
  induction size generalizing w with
  | zero => exact Emits.done_nil _ _
  | succ k ih => exact (emits_pushBit (v.getLsbD k) w).bind (cs := topDown k v) fun _ x _ => ih x

theorem emits_write8Fits (size : Nat) (v : Value) (w : Writer) : Emits (topDown size v) w (write8Fits size v w) := by
  unfold write8Fits
  split
  · next h => rw [h.1]; exact emits_emitWhole v h.2
  · exact emits_pushDown size v w

theorem emits_write8 (size : Nat) (v : Value) (w : Writer) : Emits (topDown size v) w (write8 size v w) := by
  unfold write8
  simp only
  split
  · next h =>
    have hsplit := topDown_add (8 - w.bitIndex.toNat) (size - (8 - w.bitIndex.toNat)) v
    rw [Nat.add_sub_cancel' h.le] at hsplit
    rw [hsplit]
    exact (emits_write8Fits _ _ w).bind fun _ x _ => emits_write8Fits _ v x
  · exact emits_write8Fits size v w

/-- A decomposition writes the bits of the value where its chunks write theirs (41_writer_primitives.md R88, R90). -/
theorem emits_decompose {width : Nat} {prim : Nat → Value → Writer → Micro Writer Unit} (hw : 0 < width)
    (hp : ∀ n v w, n ≤ width → Emits (topDown n v) w (prim n v w)) (size : Nat) (v : Value) (w : Writer) :
    Emits (topDown size v) w (decompose width prim size v w) := by
  have chunks : ∀ q w, Emits (topDown (width * q) v) w (fullChunks width prim q v w) := by
    intro q
    induction q with
    | zero => exact Emits.done_nil _
    | succ j ih =>
      intro w
      rw [Nat.mul_succ, Nat.add_comm, topDown_add]
      exact (hp width _ w le_rfl).bind fun _ x _ => ih x
  have hsize : size = size % width + width * (size / width) := (Nat.mod_add_div size width).symm
  unfold decompose
  simp only
  split
  · conv => arg 1; rw [hsize, topDown_add]
    exact (hp _ _ w (Nat.mod_lt _ hw).le).bind fun _ x _ => chunks _ x
  · conv => arg 1; rw [hsize, show size % width = 0 by omega, Nat.zero_add]
    exact chunks _ w

theorem emits_write16 (size : Nat) (v : Value) (w : Writer) : Emits (topDown size v) w (write16 size v w) :=
  emits_decompose (by decide) (fun n v w _ => emits_write8 n v w) size v w

theorem emits_writeIntUnsigned (size : Nat) (v : Value) (w : Writer) :
    Emits (topDown size v) w (writeIntUnsigned size v w) :=
  emits_decompose (by decide) (fun n v w _ => emits_write16 n v w) size v w

theorem emits_writeLongUnsigned (size : Nat) (v : Value) (w : Writer) :
    Emits (topDown size v) w (writeLongUnsigned size v w) := by
  refine emits_decompose (by decide) (fun n v w hn => ?_) size v w
  rw [← topDown_lowField hn]
  exact emits_writeIntUnsigned n _ w

/-- The sign bit, then the magnitude (42_writer_values.md R101, R104). -/
theorem emits_writeSigned {magnitude : Nat → Value → Writer → Micro Writer Unit}
    (hm : ∀ n v w, Emits (topDown n v) w (magnitude n v w)) {size : Nat} (hs : 1 ≤ size) (v : Value) (w : Writer) :
    Emits (topDown size v) w (writeSigned magnitude size v w) := by
  have hsplit := topDown_add 1 (size - 1) v
  rw [Nat.add_sub_cancel' hs] at hsplit
  rw [hsplit]
  refine (emits_write8 1 _ w).bind fun _ x _ => ?_
  split
  · exact hm _ v x
  · next h => rw [show size - 1 = 0 by omega]; exact Emits.done_nil _ x

theorem emits_writeInt (unsigned : Bool) {size : Nat} (hs : 1 ≤ size) (v : Value) (w : Writer) :
    Emits (topDown size v) w (writeInt unsigned size v w) := by
  cases unsigned with
  | false => exact emits_writeSigned emits_writeIntUnsigned hs v w
  | true => exact emits_writeIntUnsigned size v w

theorem emits_writeLong (unsigned : Bool) {size : Nat} (hs : 1 ≤ size) (v : Value) (w : Writer) :
    Emits (topDown size v) w (writeLong unsigned size v w) := by
  cases unsigned with
  | false => exact emits_writeSigned emits_writeLongUnsigned hs v w
  | true => exact emits_writeLongUnsigned size v w

/-- The whole bytes that bring a count `c` to a multiple of `n` (43_writer_align_status.md R121). -/
def padsFor (n c : Nat) : Nat := (n - c % n) % n

theorem padsFor_aligned {n c : Nat} (h : c % n = 0) : padsFor n c = 0 := by
  simp [padsFor, h]

theorem padsFor_le {n : Nat} (hn : 0 < n) (c : Nat) : padsFor n c ≤ n := (Nat.mod_lt _ hn).le

/-- A byte counted is one byte less to pad. -/
theorem padsFor_unaligned {n c : Nat} (hn : 0 < n) (h : c % n ≠ 0) : padsFor n c = padsFor n (c + 1) + 1 := by
  have hlt := Nat.mod_lt c hn
  have hpads : padsFor n c = n - c % n := Nat.mod_eq_of_lt (by omega)
  rcases Nat.lt_or_ge (c % n + 1) n with hnext | hlast
  · have hmod : (c + 1) % n = c % n + 1 := by
      rw [← Nat.mod_add_mod, Nat.mod_eq_of_lt hnext]
    have hpads' : padsFor n (c + 1) = n - (c % n + 1) := by
      rw [padsFor, hmod]
      exact Nat.mod_eq_of_lt (by omega)
    omega
  · have hmod : (c + 1) % n = 0 := by
      rw [← Nat.mod_add_mod, show c % n + 1 = n by omega, Nat.mod_self]
    rw [hpads, padsFor_aligned hmod]
    omega

theorem emits_zeros (size : Nat) (w : Writer) : Emits (List.replicate size false) w (write8 size 0 w) :=
  topDown_zeros size ▸ emits_write8 size 0 w

/-- Zero bits that reach the end of the current byte, at most eight of them, complete one byte. -/
theorem zeros_count_succ {size : Nat} {w x : Writer} (p : Pushed (List.replicate size false) w x)
    (hlow : 8 - w.bitIndex.toNat ≤ size) (hhigh : size ≤ 8) : x.byteCount.toNat = w.byteCount.toNat + 1 := by
  rw [p.count, UnitState.completes, List.length_replicate]
  have := w.bitIndex.isLt
  omega

theorem emits_padBytes {n : Nat} (hn : 0 < n) {rounds : Nat} {w : Writer}
    (h : padsFor n w.byteCount.toNat ≤ rounds) (v : Value) :
    Emits (List.replicate (8 * padsFor n w.byteCount.toNat) false) w (padBytes n rounds v w) := by
  induction rounds generalizing w v with
  | zero =>
    rw [Nat.le_zero.mp h]
    exact Emits.done_nil v w
  | succ r ih =>
    unfold padBytes
    split
    · next hm =>
      rw [padsFor_aligned hm]
      exact Emits.done_nil v w
    · next hm =>
      have hpads := padsFor_unaligned hn hm
      rw [hpads, Nat.mul_succ, Nat.add_comm, List.replicate_add]
      refine (emits_zeros 8 w).bind fun _ x p => ?_
      have hcount := zeros_count_succ p (by omega) (by omega)
      rw [← hcount]
      exact ih (by rw [hcount]; omega) _

theorem emits_alignWriter {n : Nat} (hn : 0 < n) (w : Writer) :
    Emits (List.replicate (w.alignBits n) false) w (alignWriter n w) := by
  unfold alignWriter UnitState.alignBits
  split
  · next hi =>
    simp only [hi, if_true]
    rw [List.replicate_add]
    refine (emits_zeros _ w).bind fun _ x p => ?_
    have hcount := zeros_count_succ p (by omega) (by omega)
    rw [← hcount]
    exact emits_padBytes hn (padsFor_le hn _) _
  · next hi =>
    simp only [hi, if_false, Nat.zero_add, Nat.add_zero]
    exact emits_padBytes hn (padsFor_le hn _) _

/-! #### The commands -/

theorem serveWriter_ready {α : Type} {g : Except Cause α} {a : α} {s : State} (hr : s.w.ready) (hg : g = .ok a)
    (body : α → Writer → Micro Writer Value) : serveWriter g body s = finishWriter s (body a s.w) := by
  obtain ⟨hb, hf⟩ := hr
  simp [serveWriter, hb, hf, hg]

/-- The slice of `VALUE` a command takes has the bits the command writes (30_encoding.md R53). -/
theorem Emits.of_operand {α : Type} {k n : Nat} {v : Value} {w : Writer} {m : Micro Writer α} (h : k ≤ n)
    (hm : Emits (topDown k (lowField n v)) w m) : Emits (topDown k v) w m :=
  topDown_lowField h v ▸ hm

/-- A sized write of a ready unit whose size is legal runs its procedure. -/
theorem serveWriter_sized_emits {s : State} {unsigned : Bool} {e : Nat} {max n : Int} {v : Value} {bits : List Bool}
    {body : Int → Writer → Micro Writer Value} (hr : s.w.ready) (hmax : maxSize unsigned e = max)
    (hb : (if 1 ≤ n ∧ n ≤ max then some (topDown n.toNat v) else none) = some bits)
    (hbody : 1 ≤ n → n ≤ max → Emits (topDown n.toNat v) s.w (body n s.w)) :
    ∃ m, serveWriter (requireValidSize unsigned e n) body s = finishWriter s m ∧ Emits bits s.w m := by
  obtain ⟨⟨hlow, hhigh⟩, hbits⟩ := Option.ite_none_right_eq_some.mp hb
  obtain rfl := Option.some.inj hbits
  exact ⟨_, serveWriter_ready hr (requireValidSize_ok ⟨hlow, hmax ▸ hhigh⟩) body, hbody hlow hhigh⟩

theorem maxSize_int (unsigned : Bool) : maxSize unsigned exponentInt = if unsigned then 32 else 31 := by
  cases unsigned <;> decide

theorem maxSize_long (unsigned : Bool) : maxSize unsigned exponentLong = if unsigned then 64 else 63 := by
  cases unsigned <;> decide

/-- Every bit-writing command of a ready unit ends as a procedure that writes its bits. -/
theorem exec_emits {i : Instr} {s : State} {bits : List Bool} (hr : s.w.ready)
    (hb : writtenBits s.w.toUnitState i = some bits) :
    ∃ m : Micro Writer Value, exec i s = finishWriter s m ∧ Emits bits s.w m := by
  obtain ⟨max8, max16, -⟩ := maxSize_values
  cases i with
  | w8 n v =>
    simp only [exec, execW8]
    exact serveWriter_sized_emits hr max8 hb fun _ hn =>
      (Emits.of_operand (n := 8) (by omega) (emits_write8 _ _ _)).map _
  | w16 n v =>
    simp only [exec, execW16]
    exact serveWriter_sized_emits hr max16 hb fun _ hn =>
      (Emits.of_operand (n := 16) (by omega) (emits_write16 _ _ _)).map _
  | wchar n v =>
    simp only [exec, execWchar]
    exact serveWriter_sized_emits hr max16 hb fun _ hn =>
      (Emits.of_operand (n := 16) (by omega) (emits_write16 _ _ _)).map _
  | wint unsigned n v =>
    simp only [exec, execWint]
    exact serveWriter_sized_emits hr (maxSize_int unsigned) hb fun hlow hn =>
      (Emits.of_operand (n := 32) (by split at hn <;> omega) (emits_writeInt unsigned (by omega) _ _)).map _
  | wlong unsigned n v =>
    simp only [exec, execWlong]
    exact serveWriter_sized_emits hr (maxSize_long unsigned) hb fun hlow _ =>
      (emits_writeLong unsigned (size := n.toNat) (by omega) v _).map _
  | wbool v =>
    simp only [exec, execWbool]
    obtain rfl := Option.some.inj hb
    exact ⟨_, serveWriter_ready (g := noGate) hr rfl _, (Emits.of_operand le_rfl (emits_write8 1 _ _)).map _⟩
  | wfloat v =>
    simp only [exec, execWfloat]
    obtain rfl := Option.some.inj hb
    exact ⟨_, serveWriter_ready (g := noGate) hr rfl _,
      (Emits.of_operand le_rfl (emits_writeInt false (by decide) _ _)).map _⟩
  | wdouble v =>
    simp only [exec, execWdouble]
    obtain rfl := Option.some.inj hb
    exact ⟨_, serveWriter_ready (g := noGate) hr rfl _, (emits_writeLong false (by decide) v _).map _⟩
  | walign n =>
    simp only [exec, execWalign]
    obtain ⟨hn, hbits⟩ := Option.ite_none_right_eq_some.mp hb
    obtain rfl := Option.some.inj hbits
    exact ⟨_, serveWriter_ready hr (requirePositive_ok hn) _, emits_alignWriter (by omega) _⟩
  | _ => cases hb

/-! #### The first reply that is no `ok` -/

/-- Where the sink accepts `j` bytes and answers the next one needed otherwise, the procedure stops there, raising
`IOFailure` or waiting (20_memory.md R31, 41_writer_primitives.md R91). -/
theorem Emits.stops_at {α : Type} {bits : List Bool} {w : Writer} {m : Micro Writer α} {j : Nat} {r : SinkReply}
    {later : List SinkReply} (h : Emits bits w m) (hr : r ≠ .ok) (hsink : w.sink = List.replicate j .ok ++ r :: later)
    (hj : j < w.completes bits.length) (hfits : w.byteCount.toNat + j < 2 ^ 64) :
    ∃ x, Stopped bits j w x
      ∧ (r = .ioFail ∧ m = .raised .ioFailure x ∧ x.sink = later ∨ r = .noReply ∧ m = .hung x) := by
  cases m with
  | done a x =>
    obtain ⟨⟨hoks, -⟩, -⟩ := h
    have := oks_le hr (hsink ▸ hoks)
    omega
  | raised c x =>
    obtain ⟨rfl, k, hk, hstop⟩ := h
    obtain ⟨rfl, rfl, rfl⟩ := first_refusal_unique hr (by decide) (hsink.symm.trans hk)
    exact ⟨x, hstop, .inl ⟨rfl, rfl, rfl⟩⟩
  | hung x =>
    obtain ⟨k, l, hk, hstop⟩ := h
    obtain ⟨rfl, rfl, rfl⟩ := first_refusal_unique hr (by decide) (hsink.symm.trans hk)
    exact ⟨x, hstop, .inr ⟨rfl, rfl⟩⟩
  | overflow =>
    obtain ⟨k, hoks, hfull⟩ := h
    have := oks_le hr (hsink ▸ hoks)
    omega

/-- Settles O33: a bit-writing command ends as a procedure that writes its bits, and such a procedure raises
`IOFailure` at the first byte the sink refuses. -/
theorem refusedByteEndsWrite : Obligations.RefusedByteEndsWrite := by
  unfold Obligations.RefusedByteEndsWrite
  intro s i bits j later hr hbits hsink hj hfits
  obtain ⟨m, hexec, hm⟩ := exec_emits hr hbits
  obtain ⟨x, hstop, ⟨-, rfl, hlater⟩ | ⟨hcontra, -⟩⟩ := hm.stops_at (by decide) hsink hj hfits
  · refine ⟨_, hexec, rfl, ?_, ?_, hstop.stored, hstop.kept, hlater, rfl, rfl⟩
    · exact (UnitState.raise_busy _ _ _).trans (hstop.busy.trans hr.1)
    · exact (UnitState.raise_responses _ _ _).trans (by rw [hstop.responses]; rfl)
  · cases hcontra

/-! ### The assembled byte -/

/-- The bits of a byte, most significant first, spell its value (20_memory.md R33). -/
theorem bitsToNat_bitsOfByte (b : Byte) : bitsToNat (bitsOfByte b) = b.toNat := by
  have hspell : BitVec.ofNat 64 (bitsToNat (bitsOfByte b)) = b.setWidth 64 := by
    rw [← accum_toNat, accum_byte]
  have hlt : bitsToNat (bitsOfByte b) < 2 ^ 8 := bitsToNat_lt (bitsOfByte b)
  have hval := congrArg BitVec.toNat hspell
  rw [BitVec.toNat_ofNat, BitVec.toNat_setWidth] at hval
  omega

/-- Eight cells spell the sum of their weights, cell 0 weighing most (41_writer_primitives.md R82). -/
theorem bitsToNat_cells (cells : Vector Bool 8) :
    bitsToNat cells.toList = ∑ i : Fin 8, (cells[i]).toNat * 2 ^ (7 - i.val) := by
  obtain ⟨⟨l⟩, hl⟩ := cells
  match l, hl with
  | [c0, c1, c2, c3, c4, c5, c6, c7], _ =>
    simp [bitsToNat, Fin.sum_univ_eight]
    omega

/-- Settles O24: the bits of the assembled byte are the cells in order. -/
theorem assembledByteAsNumber : Obligations.AssembledByteAsNumber := by
  unfold Obligations.AssembledByteAsNumber
  intro cells
  rw [← bitsToNat_bitsOfByte, bitsOfByte_assembleByte, bitsToNat_cells]

end Sys2Proof.Machine
end

section
/-! ### The reader under every reply of its source

One inversion says how a procedure that consumes a given number of bits can end (44_reader_primitives.md R138, R139):
it is proved once for each procedure, by the procedure's own composition, and then for every bit-consuming command. -/

namespace Sys2Proof.Machine

/-! #### The source past its bytes -/

/-- How a source answers the first request after its bytes: the cause raised and the replies left, none where it never
answers (20_memory.md R35). -/
def sourceEnd : List SourceReply → Option (Cause × List SourceReply)
  | [] => some (.unexpectedEndOfInput, [])
  | .byte _ :: rest => sourceEnd rest
  | .endOfData :: rest => some (.unexpectedEndOfInput, rest)
  | .ioFail :: rest => some (.ioFailure, rest)
  | .noReply :: _ => none

theorem sourceEnd_map (bs : List Byte) (tail : List SourceReply) :
    sourceEnd (bs.map .byte ++ tail) = sourceEnd tail := by
  induction bs with
  | nil => rfl
  | cons b bs ih => exact ih

theorem sourceEnd_drop (l : List SourceReply) (k : Nat) (h : k ≤ (sourceBytes l).length) :
    sourceEnd (l.drop k) = sourceEnd l := by
  induction k generalizing l with
  | zero => rfl
  | succ k ih =>
    match l with
    | .byte _ :: rest => exact ih rest (Nat.le_of_succ_le_succ h)
    | [] | .endOfData :: _ | .ioFail :: _ | .noReply :: _ => simp [sourceBytes] at h

/-- A source yields its next byte, or has none and ends the command or keeps it waiting (20_memory.md R35). -/
theorem srcNext_cases (r : Reader) :
    (∃ b rest, r.source = .byte b :: rest ∧ srcNext r = .done b { r with taken := r.taken ++ [b], source := rest })
    ∨ sourceBytes r.source = []
      ∧ ((∃ c rest, sourceEnd r.source = some (c, rest) ∧ srcNext r = .raised c { r with source := rest })
        ∨ sourceEnd r.source = none ∧ srcNext r = .hung r) := by
  obtain ⟨u, taken, source⟩ := r
  match source with
  | .byte b :: rest => exact .inl ⟨b, rest, rfl, rfl⟩
  | [] | .endOfData :: _ | .ioFail :: _ => exact .inr ⟨rfl, .inl ⟨_, _, rfl, rfl⟩⟩
  | .noReply :: _ => exact .inr ⟨rfl, .inr ⟨rfl, rfl⟩⟩

/-! #### What consuming bits keeps -/

/-- The bytes loaded since reset: those counted, and the one being consumed (10_state.md R16, R17). -/
def UnitState.loaded (u : UnitState) : Nat := u.byteCount.toNat + (if 0 < u.bitIndex.toNat then 1 else 0)

/-- More bits need no fewer fetches. -/
theorem fetches_le_add (u : UnitState) (k l : Nat) : u.fetches k ≤ u.fetches (k + l) := by
  unfold UnitState.fetches
  by_cases hk : k = 0
  · simp [hk]
  · have hkl : k + l ≠ 0 := by omega
    simp only [hk, hkl, if_false]
    omega

theorem fetches_boundary_pos {u : UnitState} (h : u.bitIndex = 0) {n : Nat} (hn : 0 < n) : 0 < u.fetches n := by
  simp [UnitState.fetches, h, hn.ne']

/-- Each byte fetched is one more loaded. -/
theorem pulled_loaded {bits : List Bool} {r x : Reader} (p : Pulled bits r x) :
    x.loaded = r.loaded + r.fetches bits.length := by
  have hlt := r.bitIndex.isLt
  simp only [UnitState.loaded, p.count, p.index, UnitState.completes, UnitState.fetches]
  split <;> split <;> split <;> omega

theorem pulled_sourceBytes {bits : List Bool} {r x : Reader} (p : Pulled bits r x) :
    sourceBytes x.source = (sourceBytes r.source).drop (r.fetches bits.length) := by
  rw [p.source, sourceBytes_drop _ _ p.enough]

/-- The bytes taken and those still listed are together as before. -/
theorem pulled_taken_append {bits : List Bool} {r x : Reader} (p : Pulled bits r x) :
    x.taken ++ sourceBytes x.source = r.taken ++ sourceBytes r.source := by
  rw [p.taken, pulled_sourceBytes p, List.append_assoc, List.take_append_drop]

theorem pulled_sourceEnd {bits : List Bool} {r x : Reader} (p : Pulled bits r x) :
    sourceEnd x.source = sourceEnd r.source := by
  rw [p.source, sourceEnd_drop _ _ p.enough]

/-! #### Ending inside a number of bits -/

/-- From `r` to `x` every byte the source yields was taken, and `n` bits need more; the accumulator is not
constrained (44_reader_primitives.md R139, 60_exceptions.md R203). -/
structure Starved (n : Nat) (r x : Reader) : Prop where
  short : (sourceBytes r.source).length < r.fetches n
  taken : x.taken = r.taken ++ sourceBytes r.source
  fault : x.fault = r.fault
  busy : x.busy = r.busy
  draws : x.draws = r.draws
  responses : x.responses = r.responses

/-- Each way a procedure that consumes `n` bits from `r` can end, by the source's replies: all bits consumed, stopped
at the first reply that is no byte, or stopped at a byte that cannot be counted. -/
def Consumes {α : Type} (n : Nat) (r : Reader) : Micro Reader α → Prop
  | .done _ x => ∃ bits, bits.length = n ∧ Pulled bits r x
  | .raised c x => sourceEnd r.source = some (c, x.source) ∧ Starved n r x
  | .hung x => sourceEnd r.source = none ∧ Starved n r x
  | .overflow => 2 ^ 64 ≤ r.loaded + (sourceBytes r.source).length

/-- A byte needed by the first bits is needed by all of them. -/
theorem starved_of_first {k : Nat} {r x : Reader} (h : Starved k r x) (l : Nat) : Starved (k + l) r x :=
  { h with short := h.short.trans_le (fetches_le_add _ k l) }

/-- A byte needed by the later bits is needed by all of them. -/
theorem starved_of_rest {bits : List Bool} {l : Nat} {r x y : Reader} (p : Pulled bits r x) (h : Starved l x y) :
    Starved (bits.length + l) r y where
  short := by
    have hshort := h.short
    rw [pulled_sourceBytes p, List.length_drop] at hshort
    rw [pulled_fetches_add p]
    omega
  taken := h.taken.trans (pulled_taken_append p)
  fault := h.fault.trans p.fault
  busy := h.busy.trans p.busy
  draws := h.draws.trans p.draws
  responses := h.responses.trans p.responses

/-- On a byte boundary any bit needs a byte (44_reader_primitives.md R131, R133). -/
theorem starved_at_boundary {r : Reader} (h : r.bitIndex = 0) {n : Nat} (hn : 0 < n) (hs : sourceBytes r.source = [])
    (rest : List SourceReply) : Starved n r { r with source := rest } where
  short := by simpa [hs] using fetches_boundary_pos h hn
  taken := by simp [hs]
  fault := rfl
  busy := rfl
  draws := rfl
  responses := rfl

/-! #### Composition -/

/-- In sequence, two procedures consume the bits of the first and then those of the second. -/
theorem Consumes.bind {α β : Type} {k l : Nat} {r : Reader} {m : Micro Reader α} {f : α → Reader → Micro Reader β}
    (hm : Consumes k r m) (hf : ∀ a x bits, bits.length = k → Pulled bits r x → Consumes l x (f a x)) :
    Consumes (k + l) r (m.bind f) := by
  cases m with
  | done a x =>
    obtain ⟨bits, rfl, p⟩ := hm
    have hrest := hf a x bits rfl p
    rw [Micro.bind_done]
    cases hfx : f a x with
    | done b y =>
      rw [hfx] at hrest
      obtain ⟨bits', rfl, q⟩ := hrest
      exact ⟨bits ++ bits', List.length_append, pulled_append p q⟩
    | raised c y =>
      rw [hfx] at hrest
      exact ⟨pulled_sourceEnd p ▸ hrest.1, starved_of_rest p hrest.2⟩
    | hung y =>
      rw [hfx] at hrest
      exact ⟨pulled_sourceEnd p ▸ hrest.1, starved_of_rest p hrest.2⟩
    | overflow =>
      rw [hfx] at hrest
      have hfull : 2 ^ 64 ≤ x.loaded + (sourceBytes x.source).length := hrest
      have henough := p.enough
      rw [pulled_loaded p, pulled_sourceBytes p, List.length_drop] at hfull
      show 2 ^ 64 ≤ r.loaded + (sourceBytes r.source).length
      omega
  | raised c x => exact ⟨hm.1, starved_of_first hm.2 l⟩
  | hung x => exact ⟨hm.1, starved_of_first hm.2 l⟩
  | overflow => exact hm

theorem Consumes.done_zero {α : Type} (a : α) (r : Reader) : Consumes 0 r (.done a r) := ⟨[], rfl, pulled_nil r⟩

theorem Consumes.map {α β : Type} {n : Nat} {r : Reader} {m : Micro Reader α} (f : α → β) (h : Consumes n r m) :
    Consumes n r (m.map f) :=
  h.bind (l := 0) fun a x _ _ _ => Consumes.done_zero (f a) x

/-! #### The micro-operations -/

theorem consumes_pullBit_of_yields {r : Reader} (h : r.yields 1) : Consumes 1 r (pullBit r) := by
  obtain ⟨b, x, hx⟩ := pullBit_yields h
  rw [hx]
  exact ⟨[b], rfl, pullBit_done hx⟩

/-- One more bit does not fit only where it completes the byte that cannot be counted (10_state.md R14, U6). -/
theorem last_bit_of_last_count {u : UnitState} (h : ¬ u.countFits 1) :
    u.bitIndex.toNat = 7 ∧ u.byteCount.toNat + 1 = 2 ^ 64 := by
  simp only [UnitState.countFits, UnitState.completes] at h
  omega

theorem pullBit_overflow {r : Reader} (h : ¬ r.countFits 1) : pullBit r = .overflow := by
  obtain ⟨hi, hcount⟩ := last_bit_of_last_count h
  have h0 : r.bitIndex ≠ 0 := fun h0 => by simp [h0] at hi
  rw [pullBit_eq, fetchByte, if_neg h0, Micro.bind_done, consumeBit, if_neg (by omega)]
  rcases countRead_cases { r with bitIndex := 0 } with ⟨hmore, -⟩ | ⟨-, hfull⟩
  · exact absurd hcount hmore.ne
  · rw [hfull, Micro.map_overflow]

theorem consumes_pullBit (r : Reader) : Consumes 1 r (pullBit r) := by
  by_cases hfits : r.countFits 1
  · by_cases h0 : r.bitIndex = 0
    · have hfetch : pullBit r
          = ((srcNext r).bind fun b x => .done () { x with pendingBits := cellsOfByte b }).bind
            fun _ x => consumeBit x := by
        rw [pullBit_eq, fetchByte, if_pos h0]
      rcases srcNext_cases r with ⟨b, rest, hs, -⟩ | ⟨hs, ⟨c, rest, hend, hnext⟩ | ⟨hend, hnext⟩⟩
      · refine consumes_pullBit_of_yields ⟨?_, hfits⟩
        simp only [Reader.upcoming, hs, sourceBytes, bitsOfBytes, bitsOfByte, List.flatMap_cons, List.length_append,
          List.length_cons]
        omega
      · rw [hfetch, hnext]
        exact ⟨hend, starved_at_boundary h0 one_pos hs rest⟩
      · rw [hfetch, hnext]
        exact ⟨hend, starved_at_boundary h0 one_pos hs r.source⟩
    · refine consumes_pullBit_of_yields ⟨?_, hfits⟩
      rw [Reader.upcoming, Reader.unconsumed, if_neg h0, drop_cells]
      simp
  · obtain ⟨hi, hcount⟩ := last_bit_of_last_count hfits
    rw [pullBit_overflow hfits]
    show 2 ^ 64 ≤ r.loaded + (sourceBytes r.source).length
    rw [UnitState.loaded, hi, if_pos (by decide)]
    omega

/-- A whole byte taken on a byte boundary consumes its bits (44_reader_primitives.md R133). -/
theorem pulled_takeWhole {r : Reader} {b : Byte} {rest : List SourceReply} (h0 : r.bitIndex = 0)
    (hs : r.source = .byte b :: rest) (hfits : r.byteCount.toNat + 1 < 2 ^ 64) :
    Pulled (bitsOfByte b) r
      { r with taken := r.taken ++ [b], source := rest, byteCount := r.byteCount + 1 } := by
  have hf : r.fetches 8 = 1 := by simp [UnitState.fetches, h0]
  have hc : r.completes 8 = 1 := by simp [UnitState.completes, h0]
  have hsucc : (r.byteCount + 1).toNat = r.byteCount.toNat + 1 := by
    rw [BitVec.toNat_add]; simp at hfits ⊢; omega
  constructor
  · simp [Reader.upcoming, Reader.unconsumed, h0, hs, sourceBytes, bitsOfBytes]
  · simp [h0]
  · rw [bitsOfByte_length, hc]; exact hsucc
  all_goals simp [hf, hs, sourceBytes]

theorem consumes_takeWhole {r : Reader} (h0 : r.bitIndex = 0) : Consumes 8 r (takeWhole r) := by
  unfold takeWhole
  rcases srcNext_cases r with ⟨b, rest, hs, hnext⟩ | ⟨hs, ⟨c, rest, hend, hnext⟩ | ⟨hend, hnext⟩⟩
  · rw [hnext, Micro.bind_done]
    rcases countRead_cases { r with taken := r.taken ++ [b], source := rest } with ⟨hfits, hcount⟩ | ⟨hfull, hcount⟩
    · rw [hcount]
      exact ⟨bitsOfByte b, rfl, pulled_takeWhole h0 hs hfits⟩
    · rw [hcount]
      show 2 ^ 64 ≤ r.loaded + (sourceBytes r.source).length
      rw [UnitState.loaded, hs, sourceBytes, List.length_cons]
      simp only at hfull
      omega
  · rw [hnext]
    exact ⟨hend, starved_at_boundary h0 (by decide) hs rest⟩
  · rw [hnext]
    exact ⟨hend, starved_at_boundary h0 (by decide) hs r.source⟩

/-! #### The procedures -/

theorem consumes_pullBits (size : Nat) (v : Value) (r : Reader) : Consumes size r (pullBits size v r) := by
  induction size generalizing v r with
  | zero => exact Consumes.done_zero v r
  | succ k ih =>
    conv => arg 1; rw [Nat.add_comm]
    exact (consumes_pullBit r).bind fun b x _ _ _ => ih _ x

theorem consumes_read8Fits (size : Nat) (r : Reader) : Consumes size r (read8Fits size r) := by
  unfold read8Fits
  split
  · next h => rw [h.1]; exact consumes_takeWhole h.2
  · exact consumes_pullBits size 0 r

theorem consumes_read8 (size : Nat) (r : Reader) : Consumes size r (read8 size r) := by
  unfold read8
  simp only
  split
  · next h =>
    conv => arg 1; rw [← Nat.add_sub_cancel' h.le]
    exact (consumes_read8Fits _ r).bind fun _ x _ _ _ => (consumes_read8Fits _ x).map _
  · exact consumes_read8Fits size r

/-- A recomposition consumes its size where its chunks consume theirs (44_reader_primitives.md R136). -/
theorem consumes_recompose {width : Nat} {prim : Nat → Reader → Micro Reader Value}
    (hp : ∀ n r, Consumes n r (prim n r)) (size : Nat) (r : Reader) :
    Consumes size r (recompose width prim size r) := by
  have chunks : ∀ q v r, Consumes (width * q) r (joinChunks width prim q v r) := by
    intro q
    induction q with
    | zero => exact Consumes.done_zero
    | succ j ih =>
      intro v r
      rw [Nat.mul_succ, Nat.add_comm]
      exact (hp width r).bind fun _ x _ _ _ => ih _ x
  have hsize : size = size % width + width * (size / width) := (Nat.mod_add_div size width).symm
  unfold recompose
  simp only
  split
  · conv => arg 1; rw [hsize]
    exact (hp _ r).bind fun v x _ _ _ => chunks _ v x
  · conv => arg 1; rw [hsize, show size % width = 0 by omega, Nat.zero_add]
    exact chunks _ 0 r

theorem consumes_read16 (size : Nat) (r : Reader) : Consumes size r (read16 size r) :=
  consumes_recompose consumes_read8 size r

theorem consumes_readIntUnsigned (size : Nat) (r : Reader) : Consumes size r (readIntUnsigned size r) :=
  consumes_recompose consumes_read16 size r

theorem consumes_readLongUnsigned (size : Nat) (r : Reader) : Consumes size r (readLongUnsigned size r) :=
  consumes_recompose consumes_readIntUnsigned size r

/-- The sign bit, then the magnitude (45_reader_values.md R151, R154). -/
theorem consumes_readSigned {magnitude : Nat → Reader → Micro Reader Value}
    (hm : ∀ n r, Consumes n r (magnitude n r)) {size : Nat} (hs : 1 ≤ size) (r : Reader) :
    Consumes size r (readSigned magnitude size r) := by
  conv => arg 1; rw [← Nat.add_sub_cancel' hs]
  refine (consumes_read8 1 r).bind fun s x _ _ _ => ?_
  split
  · exact (hm _ x).map _
  · next h => rw [show size - 1 = 0 by omega]; exact Consumes.done_zero s x

theorem consumes_readInt (unsigned : Bool) {size : Nat} (hs : 1 ≤ size) (r : Reader) :
    Consumes size r (readInt unsigned size r) := by
  cases unsigned with
  | false => exact (consumes_readSigned consumes_readIntUnsigned hs r).map _
  | true => exact consumes_readIntUnsigned size r

theorem consumes_readLong (unsigned : Bool) {size : Nat} (hs : 1 ≤ size) (r : Reader) :
    Consumes size r (readLong unsigned size r) := by
  cases unsigned with
  | false => exact (consumes_readSigned consumes_readLongUnsigned hs r).map _
  | true => exact consumes_readLongUnsigned size r

/-- Bits that reach the end of the current byte, at most eight of them, complete one byte. -/
theorem pulled_count_succ {bits : List Bool} {r x : Reader} (p : Pulled bits r x)
    (hlow : 8 - r.bitIndex.toNat ≤ bits.length) (hhigh : bits.length ≤ 8) :
    x.byteCount.toNat = r.byteCount.toNat + 1 := by
  rw [p.count, UnitState.completes]
  have := r.bitIndex.isLt
  omega

theorem consumes_skipBytes {n : Nat} (hn : 0 < n) {rounds : Nat} {r : Reader}
    (h : padsFor n r.byteCount.toNat ≤ rounds) (v : Value) :
    Consumes (8 * padsFor n r.byteCount.toNat) r (skipBytes n rounds v r) := by
  induction rounds generalizing r v with
  | zero =>
    rw [Nat.le_zero.mp h]
    exact Consumes.done_zero v r
  | succ k ih =>
    unfold skipBytes
    split
    · next hm =>
      rw [padsFor_aligned hm]
      exact Consumes.done_zero v r
    · next hm =>
      have hpads := padsFor_unaligned hn hm
      rw [hpads, Nat.mul_succ, Nat.add_comm]
      refine (consumes_read8 8 r).bind fun _ x bits hlen p => ?_
      have hcount := pulled_count_succ p (by omega) (by omega)
      rw [← hcount]
      exact ih (by rw [hcount]; omega) _

theorem consumes_alignReader {n : Nat} (hn : 0 < n) (r : Reader) : Consumes (r.alignBits n) r (alignReader n r) := by
  unfold alignReader UnitState.alignBits
  split
  · next hi =>
    simp only [hi, if_true]
    refine (consumes_read8 _ r).bind fun _ x bits hlen p => ?_
    have hcount := pulled_count_succ p (by omega) (by omega)
    rw [← hcount]
    exact consumes_skipBytes hn (padsFor_le hn _) _
  · next hi =>
    simp only [hi, if_false, Nat.zero_add, Nat.add_zero]
    exact consumes_skipBytes hn (padsFor_le hn _) _

/-! #### The commands -/

theorem serveReader_ready {α : Type} {g : Except Cause α} {a : α} {s : State} (hr : s.r.ready) (hg : g = .ok a)
    (body : α → Reader → Micro Reader Value) : serveReader g body s = finishReader s (body a s.r) := by
  obtain ⟨hb, hf⟩ := hr
  simp [serveReader, hb, hf, hg]

/-- A sized read of a ready unit whose size is legal runs its procedure. -/
theorem serveReader_sized_consumes {s : State} {unsigned : Bool} {e k : Nat} {max n : Int}
    {body : Int → Reader → Micro Reader Value} (hr : s.r.ready) (hmax : maxSize unsigned e = max)
    (hk : (if 1 ≤ n ∧ n ≤ max then some n.toNat else none) = some k)
    (hbody : 1 ≤ n → Consumes n.toNat s.r (body n s.r)) :
    ∃ m, serveReader (requireValidSize unsigned e n) body s = finishReader s m ∧ Consumes k s.r m := by
  obtain ⟨⟨hlow, hhigh⟩, hsize⟩ := Option.ite_none_right_eq_some.mp hk
  obtain rfl := Option.some.inj hsize
  exact ⟨_, serveReader_ready hr (requireValidSize_ok ⟨hlow, hmax ▸ hhigh⟩) body, hbody hlow⟩

/-- Every bit-consuming command of a ready unit ends as a procedure that consumes its bits. -/
theorem exec_consumes {i : Instr} {s : State} {k : Nat} (hr : s.r.ready)
    (hk : consumedSize s.r.toUnitState i = some k) :
    ∃ m : Micro Reader Value, exec i s = finishReader s m ∧ Consumes k s.r m := by
  obtain ⟨max8, max16, -⟩ := maxSize_values
  cases i with
  | r8 n =>
    simp only [exec, execR8]
    exact serveReader_sized_consumes hr max8 hk fun _ => consumes_read8 _ _
  | r16 n =>
    simp only [exec, execR16]
    exact serveReader_sized_consumes hr max16 hk fun _ => consumes_read16 _ _
  | rchar n =>
    simp only [exec, execRchar]
    exact serveReader_sized_consumes hr max16 hk fun _ => consumes_read16 _ _
  | rint unsigned n =>
    simp only [exec, execRint]
    exact serveReader_sized_consumes hr (maxSize_int unsigned) hk fun hlow =>
      consumes_readInt unsigned (by omega) _
  | rlong unsigned n =>
    simp only [exec, execRlong]
    exact serveReader_sized_consumes hr (maxSize_long unsigned) hk fun hlow =>
      consumes_readLong unsigned (by omega) _
  | rbool =>
    simp only [exec, execRbool]
    obtain rfl := Option.some.inj hk
    exact ⟨_, serveReader_ready (g := noGate) hr rfl _, consumes_read8 1 _⟩
  | rfloat =>
    simp only [exec, execRfloat]
    obtain rfl := Option.some.inj hk
    exact ⟨_, serveReader_ready (g := noGate) hr rfl _, consumes_readSigned consumes_readIntUnsigned (by decide) _⟩
  | rdouble =>
    simp only [exec, execRdouble]
    obtain rfl := Option.some.inj hk
    exact ⟨_, serveReader_ready (g := noGate) hr rfl _, consumes_readSigned consumes_readLongUnsigned (by decide) _⟩
  | ralign n =>
    simp only [exec, execRalign]
    obtain ⟨hn, hbits⟩ := Option.ite_none_right_eq_some.mp hk
    obtain rfl := Option.some.inj hbits
    exact ⟨_, serveReader_ready hr (requirePositive_ok hn) _, consumes_alignReader (by omega) _⟩
  | _ => cases hk

/-! #### The first reply that is no byte -/

/-- Where the source yields too few bytes, the procedure stops when they are taken: it raises what the source answers
next, or waits (20_memory.md R35, 44_reader_primitives.md R139). -/
theorem Consumes.starves {α : Type} {n : Nat} {r : Reader} {m : Micro Reader α} (h : Consumes n r m)
    (hshort : (sourceBytes r.source).length < r.fetches n)
    (hfits : r.loaded + (sourceBytes r.source).length < 2 ^ 64) :
    ∃ x, Starved n r x
      ∧ ((∃ c, m = .raised c x ∧ sourceEnd r.source = some (c, x.source)) ∨ m = .hung x ∧ sourceEnd r.source = none) := by
  cases m with
  | done a x =>
    obtain ⟨bits, rfl, p⟩ := h
    exact absurd p.enough (Nat.not_le.mpr hshort)
  | raised c x => exact ⟨x, h.2, .inl ⟨c, rfl, h.1⟩⟩
  | hung x => exact ⟨x, h.2, .inr ⟨rfl, h.1⟩⟩
  | overflow => exact absurd h (Nat.not_le.mpr hfits)

/-- A bit-consuming command whose source ends or fails after too few bytes takes these and raises the cause. -/
theorem exec_starved {s : State} {i : Instr} {n : Nat} {bs : List Byte} {tail later : List SourceReply} {c : Cause}
    (hr : s.r.ready) (hn : consumedSize s.r.toUnitState i = some n) (hshort : bs.length < s.r.fetches n)
    (hfits : s.r.loaded + bs.length < 2 ^ 64) (hsource : s.r.source = bs.map .byte ++ tail)
    (hbytes : sourceBytes tail = []) (hend : sourceEnd tail = some (c, later)) :
    ∃ t, exec i s = .next t ∧ t.r.fault = c.code ∧ t.r.busy = false
      ∧ t.r.responses = s.r.responses ++ [⟨c.code, 0⟩]
      ∧ t.r.taken = s.r.taken ++ bs ∧ t.r.source = later ∧ t.w = s.w ∧ t.host = s.host := by
  have hbs : sourceBytes s.r.source = bs := hsource ▸ sourceBytes_map bs tail hbytes
  have hend' : sourceEnd s.r.source = some (c, later) := by rw [hsource, sourceEnd_map, hend]
  obtain ⟨m, hexec, hm⟩ := exec_consumes hr hn
  obtain ⟨x, hx, ⟨d, rfl, hd⟩ | ⟨-, hnone⟩⟩ := hm.starves (hbs ▸ hshort) (hbs ▸ hfits)
  · obtain ⟨rfl, rfl⟩ := Prod.mk.inj (Option.some.inj (hend'.symm.trans hd))
    refine ⟨_, hexec, rfl, ?_, ?_, hx.taken.trans (by rw [hbs]), rfl, rfl, rfl⟩
    · exact (UnitState.raise_busy _ _ _).trans (hx.busy.trans hr.1)
    · exact (UnitState.raise_responses _ _ _).trans (by rw [hx.responses])
  · rw [hend'] at hnone
    cases hnone

/-- Settles O42: a bit-consuming command ends as a procedure that consumes its bits, and such a procedure raises at the
first fetch the source answers with no byte. -/
theorem endedSourceEndsRead : Obligations.EndedSourceEndsRead := by
  unfold Obligations.EndedSourceEndsRead
  intro s i n bs later hr hn hshort hfits
  exact ⟨fun hsource => exec_starved hr hn hshort hfits hsource rfl rfl,
    fun hsource => exec_starved hr hn hshort hfits hsource rfl rfl⟩

end Sys2Proof.Machine
end

section
/-! ### The alignment of a reader whose source yields enough

Where the source yields the bits asked for, `Read8` runs to its end; so do the whole bytes `RALIGN` skips, which add up
to the number it answers (46_reader_align_status.md R170, R171). -/

namespace Sys2Proof.Machine

/-! #### Running to the end -/

theorem takeWhole_yields {r : Reader} (h0 : r.bitIndex = 0) (h : r.yields 8) : ∃ c x, takeWhole r = .done c x := by
  obtain ⟨hbits, hfits⟩ := h
  rcases srcNext_cases r with ⟨b, rest, -, hnext⟩ | ⟨hnone, -⟩
  · rcases countRead_cases { r with taken := r.taken ++ [b], source := rest } with ⟨-, hcount⟩ | ⟨hfull, -⟩
    · exact ⟨_, _, by rw [takeWhole, hnext, Micro.bind_done, hcount, Micro.map_done]⟩
    · simp only [UnitState.countFits, UnitState.completes] at hfits hfull
      omega
  · simp [Reader.upcoming, Reader.unconsumed, h0, hnone] at hbits

theorem read8Fits_yields {size : Nat} {r : Reader} (h : r.yields size) : ∃ c x, read8Fits size r = .done c x := by
  unfold read8Fits
  split
  · next hwhole =>
    obtain ⟨rfl, h0⟩ := hwhole
    exact takeWhole_yields h0 h
  · obtain ⟨x, hx, -⟩ := pullBits_yields size 0 h
    exact ⟨_, x, hx⟩

/-- After the first `k` bits, the source yields the rest. -/
theorem yields_after {bits : List Bool} {k n : Nat} {r x : Reader} (h : r.yields (k + n)) (hlen : bits.length = k)
    (p : Pulled bits r x) : x.yields n := by
  subst hlen
  exact yields_rest h p

/-- A procedure that consumes `n` bits and ran to its end consumed them. -/
theorem Consumes.pulled {α : Type} {n : Nat} {r x : Reader} {m : Micro Reader α} {a : α} (h : Consumes n r m)
    (hm : m = .done a x) : ∃ bits, bits.length = n ∧ Pulled bits r x := by
  subst hm
  exact h

/-- `Read8` with a yielding source consumes its bits, in one chunk or in the two of the split
(44_reader_primitives.md R132, R134). -/
theorem read8_yields {size : Nat} {r : Reader} (h : r.yields size) :
    ∃ c x bits, read8 size r = .done c x ∧ bits.length = size ∧ Pulled bits r x := by
  suffices ∃ c x, read8 size r = .done c x by
    obtain ⟨c, x, hx⟩ := this
    obtain ⟨bits, hlen, p⟩ := (consumes_read8 size r).pulled hx
    exact ⟨c, x, bits, hx, hlen, p⟩
  unfold read8
  simp only
  split
  · next hsplit =>
    rw [← Nat.add_sub_cancel' hsplit.le] at h
    obtain ⟨hi, y, hy⟩ := read8Fits_yields (yields_first h)
    obtain ⟨bits, hlen, p⟩ := (consumes_read8Fits _ r).pulled hy
    obtain ⟨lo, x, hx⟩ := read8Fits_yields (yields_after h hlen p)
    exact ⟨_, x, by rw [hy, Micro.bind_done, hx, Micro.map_done]⟩
  · exact read8Fits_yields h

/-! #### The number answered -/

/-- The whole bytes skipped add eight bits each to the number `RALIGN` answers (46_reader_align_status.md R170). -/
theorem skipBytes_yields {n : Nat} (hn : 0 < n) {rounds : Nat} {r : Reader}
    (hrounds : padsFor n r.byteCount.toNat ≤ rounds) (h : r.yields (8 * padsFor n r.byteCount.toNat)) (v : Value) :
    ∃ x, skipBytes n rounds v r = .done (v + BitVec.ofNat 64 (8 * padsFor n r.byteCount.toNat)) x := by
  induction rounds generalizing r v with
  | zero =>
    rw [Nat.le_zero.mp hrounds]
    exact ⟨r, by simp [skipBytes]⟩
  | succ k ih =>
    unfold skipBytes
    split
    · next hm =>
      rw [padsFor_aligned hm]
      exact ⟨r, by simp⟩
    · next hm =>
      have hpads := padsFor_unaligned hn hm
      rw [hpads, Nat.mul_succ, Nat.add_comm] at h ⊢
      obtain ⟨c, y, bits, hread, hlen, p⟩ := read8_yields (yields_first h)
      have hcount := pulled_count_succ p (by omega) (by omega)
      rw [← hcount] at h ⊢
      obtain ⟨x, hx⟩ := ih (by rw [hcount]; omega) (yields_after h hlen p) (v + 8)
      exact ⟨x, by rw [hread, Micro.bind_done, hx, BitVec.ofNat_add, BitVec.add_assoc]; rfl⟩

/-- The bits left of the current byte, then whole bytes: `p + 8 * z` (46_reader_align_status.md R171). -/
theorem alignBits_eq (n : Nat) (u : UnitState) :
    u.alignBits n = (if 0 < u.bitIndex.toNat then 8 - u.bitIndex.toNat else 0) + 8 * padsFor n u.loaded := rfl

/-- `RALIGN` with a yielding source answers the number of bits it consumes. -/
theorem alignReader_yields {n : Nat} (hn : 0 < n) {r : Reader} (h : r.yields (r.alignBits n)) :
    ∃ x, alignReader n r = .done (BitVec.ofNat 64 (r.alignBits n)) x := by
  rw [alignBits_eq, UnitState.loaded] at h ⊢
  unfold alignReader
  split
  · next hi =>
    simp only [hi, if_true] at h ⊢
    obtain ⟨c, y, bits, hread, hlen, p⟩ := read8_yields (yields_first h)
    have hcount := pulled_count_succ p (by omega) (by omega)
    rw [← hcount] at h ⊢
    rw [hread, Micro.bind_done, BitVec.ofNat_add]
    exact skipBytes_yields hn (padsFor_le hn _) (yields_after h hlen p) _
  · next hi =>
    simp only [hi, if_false, Nat.zero_add, Nat.add_zero] at h ⊢
    obtain ⟨x, hx⟩ := skipBytes_yields hn (padsFor_le hn _) h 0
    exact ⟨x, by simpa using hx⟩

/-! #### The stream position after alignment -/

/-- The padding brings the count to a multiple of the boundary. -/
theorem add_padsFor_mod {n : Nat} (hn : 0 < n) (c : Nat) : (c + padsFor n c) % n = 0 := by
  rw [padsFor, Nat.add_mod_mod, ← Nat.mod_add_mod, Nat.add_sub_cancel' (Nat.mod_lt c hn).le, Nat.mod_self]

theorem alignBits_ends_on_boundary (n : Nat) (u : UnitState) : (u.bitIndex.toNat + u.alignBits n) % 8 = 0 := by
  have hlt := u.bitIndex.isLt
  rw [alignBits_eq]
  split <;> omega

theorem completes_alignBits (n : Nat) (u : UnitState) :
    u.byteCount.toNat + u.completes (u.alignBits n) = u.loaded + padsFor n u.loaded := by
  have hlt := u.bitIndex.isLt
  rw [alignBits_eq, UnitState.completes]
  generalize padsFor n u.loaded = z
  unfold UnitState.loaded
  split <;> omega

theorem fetches_alignBits (n : Nat) (u : UnitState) : u.fetches (u.alignBits n) = padsFor n u.loaded := by
  have hlt := u.bitIndex.isLt
  rw [alignBits_eq]
  generalize padsFor n u.loaded = z
  unfold UnitState.fetches
  split <;> split <;> omega

/-! #### The command -/

/-- A procedure that consumed bits and answers a value ends its command in the state `Consumed` describes. -/
theorem finishReader_consumed {bits : List Bool} {s : State} {x : Reader} (p : Pulled bits s.r x) (v : Value) :
    ∃ t, finishReader s (.done v x) = .next t ∧ Consumed bits.length v s t :=
  ⟨_, rfl, {
    upcoming := by rw [p.upcoming, List.drop_left]; rfl
    index := p.index
    count := p.count
    fetched := p.taken
    replies := p.source
    answered := congrArg (· ++ _) p.responses
    fault := p.fault
    busy := p.busy
    draws := p.draws
    writer := rfl
    host := rfl }⟩

/-- Settles O40: the alignment runs to its end with the number `p + 8z`, having consumed as many bits, and these end on
a byte boundary whose count is the loaded bytes with their padding. -/
theorem alignReaderDiscards : Obligations.AlignReaderDiscards := by
  unfold Obligations.AlignReaderDiscards
  intro s n hn hr hy
  obtain ⟨x, hx⟩ := alignReader_yields hn hy
  obtain ⟨bits, hlen, p⟩ := (consumes_alignReader hn s.r).pulled hx
  obtain ⟨t, ht, hc⟩ := finishReader_consumed p (BitVec.ofNat 64 (s.r.alignBits n))
  rw [hlen] at hc
  have hexec : exec (.ralign n) s = finishReader s (alignReader n s.r) :=
    serveReader_ready hr (requirePositive_ok (by omega)) fun k r => alignReader k.toNat r
  have hcount : t.r.byteCount.toNat = s.r.loaded + padsFor n s.r.loaded := hc.count.trans (completes_alignBits n _)
  have henough := p.enough
  rw [hlen] at henough
  refine ⟨t, by rw [hexec, hx, ht], hc, ?_, ?_, hcount, ?_⟩
  · exact BitVec.eq_of_toNat_eq (hc.index.trans (alignBits_ends_on_boundary n _))
  · rw [hcount, add_padsFor_mod hn]
  · rw [hc.fetched, List.length_append, List.length_take_of_le henough, fetches_alignBits]
    rfl

end Sys2Proof.Machine
end

section
/-! ### Faults raised before any effect

A word or an operand that fails its test makes a ready unit latch the cause and answer with it, and do nothing else
(60_exceptions.md R192, R193, R199). The causes a command can latch are those of its gate and those of its far end. -/

namespace Sys2Proof.Machine

/-! #### The raise of a precise cause -/

theorem onWriter_raise_answered {c : Cause} (hc : c.imprecise = false) (s : State) :
    WriterAnswered c.code 0 c.code s (State.onWriter (UnitState.raise .bw c) s) := by
  rw [State.onWriter, UnitState.raise_precise _ hc]
  rfl

theorem onReader_raise_answered {c : Cause} (hc : c.imprecise = false) (s : State) :
    ReaderAnswered c.code 0 c.code s (State.onReader (UnitState.raise .br c) s) := by
  rw [State.onReader, UnitState.raise_precise _ hc]
  rfl

/-! #### Illegal words -/

theorem step_of_illegal {s : State} {u : UnitId} {word : CommandWord} {rest : List HostEvent} {e : DecodeError}
    (hh : s.host = .command u word :: rest) (hd : decodeFor u word = .error e) :
    step s = rejectWord u { s with host := rest } := by
  simp [step, fetch, hh, hd]

theorem reject_of_ready (id : UnitId) {u : UnitState} (hr : u.ready) : u.reject id = u.raise id .illegalCommand := by
  obtain ⟨hb, hf⟩ := hr
  simp [UnitState.reject, hb, hf]

/-- Settles O7: the step is the rejection of the word, which in a ready unit is the raise of a precise cause. -/
theorem illegalWordRaisesIllegalCommand : Obligations.IllegalWordRaisesIllegalCommand := by
  unfold Obligations.IllegalWordRaisesIllegalCommand
  intro s word rest e
  constructor
  · intro hr hh hd
    refine ⟨_, step_of_illegal hh hd, ?_⟩
    rw [State.onWriter, reject_of_ready .bw hr]
    exact onWriter_raise_answered rfl { s with host := rest }
  · intro hr hh hd
    refine ⟨_, step_of_illegal hh hd, ?_⟩
    rw [State.onReader, reject_of_ready .br hr]
    exact onReader_raise_answered rfl { s with host := rest }

/-! #### Invalid operands -/

theorem serveWriter_invalid {α : Type} {g : Except Cause α} {c : Cause} {s : State} (hr : s.w.ready)
    (hg : g = .error c) (hc : c.imprecise = false) (body : α → Writer → Micro Writer Value) :
    ∃ t, serveWriter g body s = .next t ∧ WriterAnswered c.code 0 c.code s t := by
  obtain ⟨hb, hf⟩ := hr
  exact ⟨_, by simp [serveWriter, hb, hf, hg], onWriter_raise_answered hc s⟩

theorem serveReader_invalid {α : Type} {g : Except Cause α} {c : Cause} {s : State} (hr : s.r.ready)
    (hg : g = .error c) (hc : c.imprecise = false) (body : α → Reader → Micro Reader Value) :
    ∃ t, serveReader g body s = .next t ∧ ReaderAnswered c.code 0 c.code s t := by
  obtain ⟨hb, hf⟩ := hr
  exact ⟨_, by simp [serveReader, hb, hf, hg], onReader_raise_answered hc s⟩

theorem requireValidSize_invalid {unsigned : Bool} {e : Nat} {max n : Int} (hmax : maxSize unsigned e = max)
    (hn : ¬(1 ≤ n ∧ n ≤ max)) : requireValidSize unsigned e n = .error .invalidWidth := by
  rcases requireValidSize_cases unsigned e n with ⟨-, hvalid⟩ | ⟨herror, -⟩
  · exact absurd (hmax ▸ hvalid) hn
  · exact herror

theorem requirePositive_invalid {n : Int} (hn : n ≤ 0) : requirePositive n = .error .invalidArgument := if_pos hn

/-- Settles O22: the gate of each sized command refuses the size, and a refused operand is a precise cause raised. -/
theorem invalidWidthIsPrecise : Obligations.InvalidWidthIsPrecise := by
  unfold Obligations.InvalidWidthIsPrecise
  intro s size v i
  obtain ⟨max8, max16, maxIntU, maxIntS, maxLongU, maxLongS⟩ := maxSize_values
  constructor
  · intro hr hcommand
    have refused {unsigned : Bool} {e : Nat} {max : Int} (hmax : maxSize unsigned e = max)
        (hsize : ¬(1 ≤ size ∧ size ≤ max)) :=
      serveWriter_invalid hr (requireValidSize_invalid hmax hsize) rfl
    rcases hcommand with ⟨rfl, h⟩ | ⟨rfl, h⟩ | ⟨rfl, h⟩ | ⟨rfl, h⟩ | ⟨rfl, h⟩ | ⟨rfl, h⟩ | ⟨rfl, h⟩
    · simp only [exec, execW8]
      exact refused max8 h _
    · simp only [exec, execW16]
      exact refused max16 h _
    · simp only [exec, execWchar]
      exact refused max16 h _
    · simp only [exec, execWint]
      exact refused maxIntU h _
    · simp only [exec, execWint]
      exact refused maxIntS h _
    · simp only [exec, execWlong]
      exact refused maxLongU h _
    · simp only [exec, execWlong]
      exact refused maxLongS h _
  · intro hr hcommand
    have refused {unsigned : Bool} {e : Nat} {max : Int} (hmax : maxSize unsigned e = max)
        (hsize : ¬(1 ≤ size ∧ size ≤ max)) :=
      serveReader_invalid hr (requireValidSize_invalid hmax hsize) rfl
    rcases hcommand with ⟨rfl, h⟩ | ⟨rfl, h⟩ | ⟨rfl, h⟩ | ⟨rfl, h⟩ | ⟨rfl, h⟩ | ⟨rfl, h⟩ | ⟨rfl, h⟩
    · exact refused max8 h _
    · exact refused max16 h _
    · exact refused max16 h _
    · exact refused maxIntU h _
    · exact refused maxIntS h _
    · exact refused maxLongU h _
    · exact refused maxLongS h _

/-! #### What a command of `BW` can latch -/

/-- A procedure of `BW` leaves the fault register to the end of its command, and raises only what its sink answers
(20_memory.md R31). -/
theorem Emits.ends_fault {α : Type} {bits : List Bool} {w : Writer} {m : Micro Writer α} (h : Emits bits w m) :
    m.ends (fun x => x.fault = w.fault) (fun c _ => c = .ioFailure) (fun x => x.fault = w.fault) := by
  cases m with
  | done a x => exact h.2.fault
  | raised c x => exact h.1
  | hung x =>
    obtain ⟨_, _, _, hstop⟩ := h
    exact hstop.fault
  | overflow => trivial

theorem finishWriter_fault {s t : State} {m : Micro Writer Value}
    (hm : m.ends (fun x => x.fault = s.w.fault) (fun c _ => c = .ioFailure) (fun x => x.fault = s.w.fault))
    (h : finishWriter s m = .next t) :
    t.r = s.r ∧ (t.w.fault = s.w.fault ∨ t.w.fault = Cause.ioFailure.code) := by
  cases m with
  | done v x => cases h; exact ⟨rfl, .inl hm⟩
  | raised c x => cases h; cases hm; exact ⟨rfl, .inr rfl⟩
  | hung x => cases h; exact ⟨rfl, .inl hm⟩
  | overflow => cases h

/-- A command of `BW` leaves the reader alone and keeps the fault register, or latches what its gate or its sink
raised (60_exceptions.md R200). -/
theorem exec_writer_fault {i : Instr} {s t : State} (hu : i.unit = .bw) (h : exec i s = .next t) :
    t.r = s.r ∧ (t.w.fault = s.w.fault ∨ s.w.fault = 0 ∧ ∃ c : Cause, t.w.fault = c.code
      ∧ (c = .invalidWidth ∨ (c = .invalidArgument ∧ ∃ n : Int, n ≤ 0 ∧ i = .walign n) ∨ c = .ioFailure)) := by
  have composes : Composes (fun w x : Writer => x.fault = w.fault) (fun c _ _ => c = .ioFailure)
      (fun w x => x.fault = w.fault) :=
    ⟨fun _ => rfl, fun h k => k.trans h, fun _ k => k, fun h k => k.trans h⟩
  rcases exec_writer_cases composes (fun b w => (emits_pushBit b w).ends_fault)
    (fun v w h0 => (emits_emitWhole v h0).ends_fault) i s hu
    with ⟨-, hx⟩ | ⟨-, -, v, hx⟩ | ⟨-, -, -, hx⟩ | ⟨hr, -, c, hc, hx⟩ | ⟨hr, -, m, hx, hm⟩
  · cases hx.symm.trans h
    exact ⟨rfl, .inl rfl⟩
  · cases hx.symm.trans h
    exact ⟨rfl, .inl rfl⟩
  · cases hx.symm.trans h
    exact ⟨rfl, .inl rfl⟩
  · cases hx.symm.trans h
    exact ⟨rfl, .inr ⟨hr.2, c, rfl, hc.imp_right .inl⟩⟩
  · obtain ⟨hreader, hfault⟩ := finishWriter_fault hm (hx.symm.trans h)
    exact ⟨hreader, hfault.imp_right fun hf => ⟨hr.2, .ioFailure, hf, .inr (.inr rfl)⟩⟩

/-! #### What a command of `BR` can latch -/

theorem sourceEnd_cause {l rest : List SourceReply} {c : Cause} (h : sourceEnd l = some (c, rest)) :
    c = .unexpectedEndOfInput ∨ c = .ioFailure := by
  induction l with
  | nil => cases h; exact .inl rfl
  | cons x l ih =>
    cases x with
    | byte b => exact ih h
    | endOfData => cases h; exact .inl rfl
    | ioFail => cases h; exact .inr rfl
    | noReply => cases h

/-- A procedure of `BR` leaves the fault register to the end of its command, and raises only what its source answers
(20_memory.md R35). -/
theorem Consumes.ends_fault {α : Type} {n : Nat} {r : Reader} {m : Micro Reader α} (h : Consumes n r m) :
    m.ends (fun x => x.fault = r.fault) (fun c _ => c = .unexpectedEndOfInput ∨ c = .ioFailure)
      (fun x => x.fault = r.fault) := by
  cases m with
  | done a x =>
    obtain ⟨_, _, p⟩ := h
    exact p.fault
  | raised c x => exact sourceEnd_cause h.1
  | hung x => exact h.2.fault
  | overflow => trivial

theorem finishReader_fault {s t : State} {m : Micro Reader Value}
    (hm : m.ends (fun x => x.fault = s.r.fault) (fun c _ => c = .unexpectedEndOfInput ∨ c = .ioFailure)
      (fun x => x.fault = s.r.fault))
    (h : finishReader s m = .next t) :
    t.w = s.w ∧ (t.r.fault = s.r.fault
      ∨ ∃ c : Cause, t.r.fault = c.code ∧ (c = .unexpectedEndOfInput ∨ c = .ioFailure)) := by
  cases m with
  | done v x => cases h; exact ⟨rfl, .inl hm⟩
  | raised c x => cases h; exact ⟨rfl, .inr ⟨c, rfl, hm⟩⟩
  | hung x => cases h; exact ⟨rfl, .inl hm⟩
  | overflow => cases h

/-- A command of `BR` leaves the writer alone and keeps the fault register, or latches what its gate or its source
raised (60_exceptions.md R200). -/
theorem exec_reader_fault {i : Instr} {s t : State} (hu : i.unit = .br) (h : exec i s = .next t) :
    t.w = s.w ∧ (t.r.fault = s.r.fault ∨ s.r.fault = 0 ∧ ∃ c : Cause, t.r.fault = c.code
      ∧ (c = .invalidWidth ∨ (c = .invalidArgument ∧ ∃ n : Int, n ≤ 0 ∧ i = .ralign n)
        ∨ c = .unexpectedEndOfInput ∨ c = .ioFailure)) := by
  have composes : Composes (fun r x : Reader => x.fault = r.fault)
      (fun c _ _ => c = .unexpectedEndOfInput ∨ c = .ioFailure) (fun r x => x.fault = r.fault) :=
    ⟨fun _ => rfl, fun h k => k.trans h, fun _ k => k, fun h k => k.trans h⟩
  rcases exec_reader_cases composes (fun r => (consumes_pullBit r).ends_fault)
    (fun r h0 => (consumes_takeWhole h0).ends_fault) i s hu
    with ⟨-, hx⟩ | ⟨-, -, v, hx⟩ | ⟨-, -, -, hx⟩ | ⟨hr, -, c, hc, hx⟩ | ⟨hr, -, m, hx, hm⟩
  · cases hx.symm.trans h
    exact ⟨rfl, .inl rfl⟩
  · cases hx.symm.trans h
    exact ⟨rfl, .inl rfl⟩
  · cases hx.symm.trans h
    exact ⟨rfl, .inl rfl⟩
  · cases hx.symm.trans h
    exact ⟨rfl, .inr ⟨hr.2, c, rfl, hc.imp_right .inl⟩⟩
  · obtain ⟨hwriter, hfault⟩ := finishReader_fault hm (hx.symm.trans h)
    exact ⟨hwriter, hfault.imp_right fun ⟨c, hf, hc⟩ => ⟨hr.2, c, hf, .inr (.inr hc)⟩⟩

/-! #### Who latches `InvalidArgument` -/

theorem exec_latches_writer_invalidArgument {i : Instr} {s t : State} (h : exec i s = .next t) (hs : s.w.fault ≠ 2)
    (ht : t.w.fault = 2) : ∃ n : Int, n ≤ 0 ∧ i = .walign n := by
  cases hu : i.unit with
  | bw =>
    obtain ⟨-, hkept | ⟨-, c, hc, rfl | ⟨-, hn⟩ | rfl⟩⟩ := exec_writer_fault hu h
    · exact absurd (hkept.symm.trans ht) hs
    · exact absurd (hc.symm.trans ht) (by decide)
    · exact hn
    · exact absurd (hc.symm.trans ht) (by decide)
  | br => exact absurd ((exec_reader_fault hu h).1 ▸ ht) hs

theorem exec_latches_reader_invalidArgument {i : Instr} {s t : State} (h : exec i s = .next t) (hs : s.r.fault ≠ 2)
    (ht : t.r.fault = 2) : ∃ n : Int, n ≤ 0 ∧ i = .ralign n := by
  cases hu : i.unit with
  | bw => exact absurd ((exec_writer_fault hu h).1 ▸ ht) hs
  | br =>
    obtain ⟨-, hkept | ⟨-, c, hc, rfl | ⟨-, hn⟩ | rfl | rfl⟩⟩ := exec_reader_fault hu h
    · exact absurd (hkept.symm.trans ht) hs
    · exact absurd (hc.symm.trans ht) (by decide)
    · exact hn
    · exact absurd (hc.symm.trans ht) (by decide)
    · exact absurd (hc.symm.trans ht) (by decide)

/-- Settles O23: the gate of an alignment refuses the boundary, a precise cause raised; and no other command has a gate
or a far end that raises this cause. -/
theorem invalidArgumentIsPrecise : Obligations.InvalidArgumentIsPrecise := by
  unfold Obligations.InvalidArgumentIsPrecise
  refine ⟨fun s n hn => ⟨fun hr => ?_, fun hr => ?_⟩, fun i s t h => ⟨?_, ?_⟩⟩
  · exact serveWriter_invalid hr (requirePositive_invalid hn) rfl _
  · exact serveReader_invalid hr (requirePositive_invalid hn) rfl _
  · exact exec_latches_writer_invalidArgument h
  · exact exec_latches_reader_invalidArgument h

end Sys2Proof.Machine
end

section
/-! ### The command word

A word decodes to a command exactly when its fields are those of the command (30_encoding.md R52, R53, R55, R56); both
directions of the round trip, the opcode table and the illegal words of a unit are read off this. -/

namespace Sys2Proof.Machine

/-! #### The unused fields of a command -/

/-- The fields R56 asks of a word that carries the opcode: reserved bits 0, and every unused field 0. -/
structure Clean (o : Opcode) (f : Fields) : Prop where
  rsv1 : f.rsv1 = 0
  rsv2 : f.rsv2 = 0
  u : o.usesU = false → f.u = false
  arg : o.usesArg = false → f.arg = 0
  value : o.usesValue = false → f.value = 0

theorem fieldsError_eq_none_iff (o : Opcode) (f : Fields) : fieldsError o f = none ↔ Clean o f := by
  unfold fieldsError
  constructor
  · intro h
    split at h
    · cases h
    split at h
    · cases h
    split at h
    · cases h
    split at h
    · cases h
    split at h
    · cases h
    next h1 h2 hu ha hv =>
      exact ⟨not_not.mp h1, not_not.mp h2, fun ho => by simpa [ho] using hu, fun ho => by simpa [ho] using ha,
        fun ho => by simpa [ho] using hv⟩
  · rintro ⟨h1, h2, hu, ha, hv⟩
    rw [if_neg (by simp [h1]), if_neg (by simp [h2]), if_neg (by rintro ⟨h, ho⟩; simp [hu ho] at h),
      if_neg (by rintro ⟨h, ho⟩; exact h (ha ho)), if_neg (by rintro ⟨h, ho⟩; exact h (hv ho))]

/-- A word decodes to the command of its opcode and fields where R56 has nothing against them. -/
theorem decode_eq_ok_iff (w : CommandWord) (i : Instr) :
    decode w = .ok i
      ↔ ∃ o : Opcode, (fieldsOf w).op = o.byte ∧ Clean o (fieldsOf w) ∧ buildInstr o (fieldsOf w) = i := by
  constructor
  · intro h
    obtain ⟨-, hw⟩ | ⟨o, hop, ⟨e, -, hw⟩ | ⟨hnone, hw⟩⟩ := decode_cases w
    · rw [hw] at h; cases h
    · rw [hw] at h; cases h
    · rw [hw] at h
      exact ⟨o, hop, (fieldsError_eq_none_iff _ _).mp hnone, Except.ok.inj h⟩
  · rintro ⟨o, hop, hclean, rfl⟩
    simp only [decode, hop, ofByte_byte, (fieldsError_eq_none_iff _ _).mpr hclean]

/-- A command has 0 in every field it does not use (30_encoding.md R53). -/
theorem fields_clean (i : Instr) : Clean i.opcode i.fields where
  rsv1 := rfl
  rsv2 := rfl
  u := by cases i <;> simp [Instr.opcode, Opcode.usesU, Instr.fields, Instr.uField]
  arg := by cases i <;> simp [Instr.opcode, Opcode.usesArg, Instr.fields, Instr.argField]
  value := by cases i <;> simp [Instr.opcode, Opcode.usesValue, Instr.fields, Instr.valueField]

/-! #### The round trip -/

theorem argInRange_argField {i : Instr} (h : i.wellFormed = true) : argInRange i.argField = true := by
  cases i <;> simp_all [Instr.wellFormed, Instr.argField, argInRange]

/-- A well-formed command is built back from the fields of its word (30_encoding.md R53, R57). -/
theorem buildInstr_fields {i : Instr} (h : i.wellFormed = true) : buildInstr i.opcode i.fields = i := by
  have harg : i.fields.arg.toInt = i.argField := toInt_ofInt_arg (argInRange_argField h)
  cases i <;> simp only [buildInstr, Instr.opcode, harg] <;> rfl

/-- Settles O2: the fields of the word are those of the command, and R56 has nothing against them. -/
theorem decodeInvertsEncode : Obligations.DecodeInvertsEncode := by
  unfold Obligations.DecodeInvertsEncode
  intro i h
  rw [decode_eq_ok_iff, fieldsOf_encode]
  exact ⟨i.opcode, rfl, fields_clean i, buildInstr_fields h⟩

theorem opcode_buildInstr (o : Opcode) (f : Fields) : (buildInstr o f).opcode = o := by
  cases o <;> rfl

/-- The signed value of `ARG` is in its range (30_encoding.md R57). -/
theorem argInRange_toInt (a : BitVec 32) : argInRange a.toInt = true := by
  have hlow := BitVec.le_toInt a
  have hhigh := BitVec.toInt_lt (x := a)
  simp only [argInRange, Bool.and_eq_true, decide_eq_true_eq]
  omega

theorem wellFormed_buildInstr (o : Opcode) (f : Fields) : (buildInstr o f).wellFormed = true := by
  cases o <;> simp [buildInstr, Instr.wellFormed, argInRange_toInt]

theorem uField_buildInstr (o : Opcode) (f : Fields) : (buildInstr o f).uField = if o.usesU then f.u else false := by
  cases o <;> rfl

theorem argField_buildInstr (o : Opcode) (f : Fields) :
    (buildInstr o f).argField = if o.usesArg then f.arg.toInt else 0 := by
  cases o <;> rfl

theorem valueField_buildInstr (o : Opcode) (f : Fields) :
    (buildInstr o f).valueField = if o.usesValue then f.value else 0 := by
  cases o <;> rfl

/-- The command built from clean fields has these fields: no bit is ignored (30_encoding.md R56). -/
theorem fields_buildInstr {o : Opcode} {f : Fields} (hop : f.op = o.byte) (h : Clean o f) :
    (buildInstr o f).fields = f := by
  obtain ⟨h1, h2, hu, ha, hv⟩ := h
  obtain ⟨op, rsv1, u, rsv2, arg, value⟩ := f
  rw [Instr.fields, opcode_buildInstr, uField_buildInstr, argField_buildInstr, valueField_buildInstr, Fields.mk.injEq]
  refine ⟨hop.symm, h1.symm, ?_, h2.symm, ?_, ?_⟩
  · cases ho : o.usesU
    · exact (hu ho).symm
    · rfl
  · cases ho : o.usesArg
    · exact (ha ho).symm
    · exact BitVec.ofInt_toInt
  · cases ho : o.usesValue
    · exact (hv ho).symm
    · rfl

/-- Settles O3: the word is that of its fields, which are the fields of the command built from them. -/
theorem encodeInvertsDecode : Obligations.EncodeInvertsDecode := by
  unfold Obligations.EncodeInvertsDecode
  intro w i h
  obtain ⟨o, hop, hclean, rfl⟩ := (decode_eq_ok_iff w i).mp h
  exact ⟨wellFormed_buildInstr o _, by rw [encode, fields_buildInstr hop hclean, wordOf_fieldsOf]⟩

/-! #### The opcode table -/

/-- A word carries a command of an opcode where it has the opcode's byte and clean fields. -/
theorem decodes_to_opcode_iff (w : CommandWord) (o : Opcode) :
    (∃ i, decode w = .ok i ∧ i.opcode = o) ↔ (fieldsOf w).op = o.byte ∧ Clean o (fieldsOf w) := by
  constructor
  · rintro ⟨i, h, rfl⟩
    obtain ⟨o, hop, hclean, rfl⟩ := (decode_eq_ok_iff w i).mp h
    rw [opcode_buildInstr]
    exact ⟨hop, hclean⟩
  · rintro ⟨hop, hclean⟩
    exact ⟨_, (decode_eq_ok_iff w _).mpr ⟨o, hop, hclean, rfl⟩, opcode_buildInstr o _⟩

/-- The bits of a word the row of an opcode fixes: `OP`, the reserved fields and the unused ones (30_encoding.md
R53). -/
def maskFields (o : Opcode) : Fields where
  op := BitVec.allOnes 8
  rsv1 := BitVec.allOnes 7
  u := !o.usesU
  rsv2 := BitVec.allOnes 16
  arg := if o.usesArg then 0 else BitVec.allOnes 32
  value := if o.usesValue then 0 else BitVec.allOnes 64

/-- The value the row of an opcode fixes them to: the opcode's byte and zeros (30_encoding.md R55). -/
def matchFields (o : Opcode) : Fields where
  op := o.byte
  rsv1 := 0
  u := false
  rsv2 := 0
  arg := 0
  value := 0

theorem tableRow_eq (o : Opcode) : tableRow o = (wordOf (matchFields o), wordOf (maskFields o)) := by
  cases o <;> decide

/-- Settles O4: masking a word masks its fields, and the masked fields are those of the match exactly where the word has
the opcode's byte and clean fields. -/
theorem wordSelectsItsTableRow : Obligations.WordSelectsItsTableRow := by
  unfold Obligations.WordSelectsItsTableRow
  intro w o
  rw [decodes_to_opcode_iff, tableRow_eq]
  conv => rhs; rw [← wordOf_fieldsOf w, wordOf_and, wordOf_inj]
  simp only [matchFields, maskFields, Fields.mk.injEq, BitVec.and_allOnes]
  constructor
  · rintro ⟨hop, h1, h2, hu, ha, hv⟩
    refine ⟨hop, h1, ?_, h2, ?_, ?_⟩
    · cases ho : o.usesU <;> simp [hu, ho]
    · cases ho : o.usesArg <;> simp [ha, ho]
    · cases ho : o.usesValue <;> simp [hv, ho]
  · rintro ⟨hop, h1, hu, h2, ha, hv⟩
    refine ⟨hop, h1, h2, fun ho => ?_, fun ho => ?_, fun ho => ?_⟩
    · simpa [ho] using hu
    · rwa [ho, if_neg Bool.false_ne_true, BitVec.and_allOnes] at ha
    · rwa [ho, if_neg Bool.false_ne_true, BitVec.and_allOnes] at hv

/-! #### The illegal words of a unit -/

/-- A unit refuses a word that carries no command of its own. -/
theorem decodeFor_error_iff (u : UnitId) (w : CommandWord) :
    (∃ e, decodeFor u w = .error e)
      ↔ ¬ ∃ o : Opcode, o.unit = u ∧ (fieldsOf w).op = o.byte ∧ Clean o (fieldsOf w) := by
  constructor
  · rintro ⟨e, he⟩ ⟨o, hu, h⟩
    obtain ⟨i, hi, rfl⟩ := (decodes_to_opcode_iff w o).mpr h
    simp only [decodeFor, hi, Instr.unit, hu, if_true] at he
    cases he
  · intro h
    cases hd : decodeFor u w with
    | error e => exact ⟨e, rfl⟩
    | ok i =>
      obtain ⟨hi, hu⟩ := decodeFor_ok hd
      exact absurd ⟨i.opcode, hu, (decodes_to_opcode_iff w _).mp ⟨i, hi, rfl⟩⟩ h

/-- Settles O5: no opcode of the unit has the word's byte, or the one that has it finds a field that is not clean. -/
theorem illegalWordsOfAUnit : Obligations.IllegalWordsOfAUnit := by
  unfold Obligations.IllegalWordsOfAUnit
  intro u w
  rw [decodeFor_error_iff]
  constructor
  · intro hno
    by_contra hlegal
    obtain ⟨hop, h1, h2, hunused⟩ : _ ∧ _ ∧ _ ∧ _ := by simpa only [not_or, not_not] using hlegal
    push Not at hop hunused
    obtain ⟨o, hu, hop⟩ := hop
    obtain ⟨hfu, hfa, hfv⟩ := hunused o hop
    exact hno ⟨o, hu, hop, h1, h2, fun ho => Bool.eq_false_iff.mpr (hfu ho), hfa, hfv⟩
  · rintro hillegal ⟨o, hu, hop, h1, h2, hfu, hfa, hfv⟩
    rcases hillegal with hnone | hr1 | hr2 | ⟨p, hp, hunused⟩
    · exact hnone o hu hop
    · exact hr1 h1
    · exact hr2 h2
    · obtain rfl := byte_inj (hop.symm.trans hp)
      rcases hunused with ⟨ho, hne⟩ | ⟨ho, hne⟩ | ⟨ho, hne⟩
      · exact Bool.noConfusion ((hfu ho).symm.trans hne)
      · exact hne (hfa ho)
      · exact hne (hfv ho)

/-- Settles O1: each word is decoded as 30_encoding.md section 8 writes it out. -/
theorem specWordsDecode : Obligations.SpecWordsDecode := by
  unfold Obligations.SpecWordsDecode
  decide

end Sys2Proof.Machine
end

section
/-! ### How a command of the writer ends

Every micro-operation of `BW` hands bytes over in the order of the sink's replies and counts each one; so does every
procedure made of them. A command then ends in one of seven ways, and what it leaves unchanged is read off them. -/

namespace Sys2Proof.Machine

/-! #### What a procedure of `BW` hands over -/

/-- From `w` to `x` the sink accepted some bytes, its replies used from the front: one `ok` for each byte while any are
listed, then `tail` (20_memory.md R31, R32; an unlisted reply is `ok`, log entry 6). -/
def StoresBytes (tail : List SinkReply) (w x : Writer) : Prop :=
  ∃ (j : Nat) (added : List Byte), x.out = w.out ++ added ∧ w.sink = List.replicate j .ok ++ tail ++ x.sink
    ∧ j ≤ added.length ∧ (tail ++ x.sink ≠ [] → added.length = j)

/-- From `w` to `x` bytes were stored and counted, and nothing was answered or latched. -/
structure HandsOver (tail : List SinkReply) (w x : Writer) : Prop where
  stored : StoresBytes tail w x
  counted : x.out.length + w.byteCount.toNat = w.out.length + x.byteCount.toNat
  fault : x.fault = w.fault
  busy : x.busy = w.busy
  responses : x.responses = w.responses

theorem StoresBytes.refl (w : Writer) : StoresBytes [] w w := ⟨0, [], by simp⟩

theorem StoresBytes.trans {tail : List SinkReply} {w x y : Writer} (h : StoresBytes [] w x)
    (k : StoresBytes tail x y) : StoresBytes tail w y := by
  obtain ⟨j, added, hout, hsink, hle, hall⟩ := h
  obtain ⟨j', added', hout', hsink', hle', hall'⟩ := k
  refine ⟨j + j', added ++ added', by simp [hout, hout'], ?_, by simp; omega, fun hne => ?_⟩
  · rw [hsink, hsink', List.replicate_add]
    simp only [List.append_nil, List.append_assoc]
  · have hlisted : [] ++ x.sink ≠ [] := by
      rw [hsink', List.nil_append, List.append_assoc]
      exact List.append_ne_nil_of_right_ne_nil _ hne
    rw [List.length_append, hall hlisted, hall' hne]

theorem HandsOver.refl (w : Writer) : HandsOver [] w w := ⟨.refl w, rfl, rfl, rfl, rfl⟩

theorem HandsOver.trans {tail : List SinkReply} {w x y : Writer} (h : HandsOver [] w x) (k : HandsOver tail x y) :
    HandsOver tail w y where
  stored := h.stored.trans k.stored
  counted := by have := h.counted; have := k.counted; omega
  fault := k.fault.trans h.fault
  busy := k.busy.trans h.busy
  responses := k.responses.trans h.responses

/-- The ways a procedure of `BW` ends, each with the replies it has used. -/
abbrev EndsHandingOver {α : Type} (w : Writer) (m : Micro Writer α) : Prop :=
  m.ends (HandsOver [] w) (fun c x => c = .ioFailure ∧ HandsOver [.ioFail] w x)
    (fun x => HandsOver [] w x ∧ ∃ later, x.sink = .noReply :: later)

theorem handsOver_composes : Composes (HandsOver []) (fun c w x => c = .ioFailure ∧ HandsOver [.ioFail] w x)
    (fun w x => HandsOver [] w x ∧ ∃ later, x.sink = .noReply :: later) where
  refl := .refl
  done := .trans
  raised h k := ⟨k.1, h.trans k.2⟩
  hung h k := ⟨h.trans k.1, k.2⟩

/-- The fast path hands the byte over as the eighth `PushBit` does (41_writer_primitives.md R81, R84). -/
theorem emitWhole_eq (v : Value) {w : Writer} (h : w.bitIndex = 0) :
    emitWhole v w = (sinkPut (v.setWidth 8) w).bind fun _ x => countWritten { x with bitIndex := 0 } := by
  unfold emitWhole
  rcases sinkPut_cases (v.setWidth 8) w with ⟨-, hput⟩ | ⟨_, -, hput⟩ | ⟨_, -, hput⟩ <;> rw [hput]
  · simp only [Micro.bind_done, ← h]
  · rfl
  · rfl

/-- A count below its last value rises by one (10_state.md R14). -/
theorem count_succ {c : BitVec 64} (h : c.toNat + 1 < 2 ^ 64) : (c + 1).toNat = c.toNat + 1 := by
  rw [BitVec.toNat_add]; simp; omega

/-- A byte handed over is stored and counted, or its reply is the last one used. -/
theorem handOver_ends (b : Byte) (cells : Vector Bool 8) (w : Writer) :
    EndsHandingOver w
      ((sinkPut b { w with pendingBits := cells }).bind fun _ x => countWritten { x with bitIndex := 0 }) := by
  rcases sinkPut_cases b { w with pendingBits := cells }
    with ⟨hoks, hput⟩ | ⟨rest, hsink, hput⟩ | ⟨rest, hsink, hput⟩
  · rw [hput, Micro.bind_done]
    rcases countWritten_cases (w := { w with
      pendingBits := cells, bitIndex := 0, out := w.out ++ [b], sink := w.sink.drop 1 })
      with ⟨hfits, hcount⟩ | ⟨-, hcount⟩
    · rw [hcount]
      refine ⟨⟨(w.sink.take 1).length, [b], rfl, ?_, by simp, ?_⟩, ?_, rfl, rfl, rfl⟩
      · have htake : w.sink.take 1 = List.replicate (w.sink.take 1).length .ok := List.eq_replicate_iff.mpr ⟨rfl, hoks⟩
        rw [← htake, List.append_nil, List.take_append_drop]
      · intro hne
        cases hs : w.sink with
        | nil => simp [hs] at hne
        | cons a l => simp
      · have hsucc : (w.byteCount + 1).toNat = w.byteCount.toNat + 1 := count_succ hfits
        simp only [List.length_append, List.length_singleton, hsucc]
        omega
    · rw [hcount]
      trivial
  · rw [hput]
    exact ⟨rfl, ⟨0, [], by simp, by simpa using hsink, by simp, by simp⟩, rfl, rfl, rfl, rfl⟩
  · rw [hput]
    exact ⟨⟨.refl w, rfl, rfl, rfl, rfl⟩, rest, hsink⟩

theorem pushBit_ends (b : Bool) (w : Writer) : EndsHandingOver w (pushBit b w) := by
  unfold pushBit
  simp only
  split
  · exact ⟨.refl w, rfl, rfl, rfl, rfl⟩
  · exact handOver_ends _ _ w

theorem emitWhole_ends (v : Value) {w : Writer} (h : w.bitIndex = 0) : EndsHandingOver w (emitWhole v w) := by
  rw [emitWhole_eq v h]
  exact handOver_ends _ w.pendingBits w

/-! #### The seven ways -/

/-- The causes a word or its operands can raise before any effect (60_exceptions.md R192, R193, R199). -/
def Cause.RaisedByWord (c : Cause) : Prop := c = .invalidWidth ∨ c = .invalidArgument ∨ c = .illegalCommand

theorem Cause.RaisedByWord.precise {c : Cause} (h : c.RaisedByWord) : c.imprecise = false := by
  rcases h with rfl | rfl | rfl <;> rfl

/-- What a word does to the writer, in the order of 30_encoding.md R61: the unit takes no word, answers (a status read),
refuses, finds the word or an operand invalid, or runs a procedure that ends, fails or waits for ever. `status` says
whether the word is a status read. -/
inductive WriterEnds (status : Bool) (w : Writer) : Writer → Prop
  | waits (hb : w.busy = true) : WriterEnds status w w
  | reads (hb : w.busy = false) (v : Value) : WriterEnds status w { w with toUnitState := w.respond v }
  | refuses (hb : w.busy = false) (hi : status = false) (hf : w.fault ≠ 0) :
    WriterEnds status w { w with toUnitState := w.refuse }
  | invalid (hr : w.ready) (hi : status = false) (c : Cause) (hc : c.RaisedByWord) :
    WriterEnds status w { w with toUnitState := w.raise .bw c }
  | done (hr : w.ready) (hi : status = false) {x : Writer} (hx : HandsOver [] w x) (v : Value) :
    WriterEnds status w { x with toUnitState := x.respond v }
  | fails (hr : w.ready) (hi : status = false) {x : Writer} (hx : HandsOver [.ioFail] w x) :
    WriterEnds status w { x with toUnitState := x.raise .bw .ioFailure }
  | hangs (hr : w.ready) (hi : status = false) {x : Writer} (hx : HandsOver [] w x)
    (hs : ∃ later, x.sink = .noReply :: later) : WriterEnds status w { x with busy := true }

/-- A command of `BW` ends in one of the seven ways and leaves the reader and the hosts' list alone. -/
theorem exec_writer_ends {i : Instr} {s t : State} (hu : i.unit = .bw) (h : exec i s = .next t) :
    WriterEnds i.isStatusRead s.w t.w ∧ t.r = s.r ∧ t.host = s.host := by
  rcases exec_writer_cases handsOver_composes pushBit_ends (fun v _ h0 => emitWhole_ends v h0) i s hu
    with ⟨hb, hx⟩ | ⟨hb, -, v, hx⟩ | ⟨hb, hi, hf, hx⟩ | ⟨hr, hi, c, hc, hx⟩ | ⟨hr, hi, m, hx, hm⟩
  · cases hx.symm.trans h
    exact ⟨.waits hb, rfl, rfl⟩
  · cases hx.symm.trans h
    exact ⟨.reads hb v, rfl, rfl⟩
  · cases hx.symm.trans h
    exact ⟨.refuses hb hi hf, rfl, rfl⟩
  · cases hx.symm.trans h
    exact ⟨.invalid hr hi c (hc.imp_right fun h => .inl h.1), rfl, rfl⟩
  · have hend := hx.symm.trans h
    cases m with
    | done v x => cases hend; exact ⟨.done hr hi hm v, rfl, rfl⟩
    | raised c x => cases hend; cases hm.1; exact ⟨.fails hr hi hm.2, rfl, rfl⟩
    | hung x => cases hend; exact ⟨.hangs hr hi hm.1 hm.2, rfl, rfl⟩
    | overflow => cases hend

section
variable {status : Bool} {w x : Writer}

/-- Once latched, a cause stays latched (60_exceptions.md R201). -/
theorem WriterEnds.fault_of_ne_zero (h : WriterEnds status w x) (hf : w.fault ≠ 0) : x.fault = w.fault := by
  cases h with
  | waits hb => rfl
  | reads hb v => rfl
  | refuses hb hi hf => rfl
  | invalid hr | done hr | fails hr | hangs hr => exact absurd hr.2 hf

/-- However a command ends, the bytes stored are as the sink replied (20_memory.md R31, R32). -/
theorem WriterEnds.stores (h : WriterEnds status w x) :
    ∃ tail, StoresBytes tail w x ∧ (tail = [] ∨ tail = [.ioFail] ∧ x.fault = 6) := by
  cases h with
  | waits hb => exact ⟨[], .refl w, .inl rfl⟩
  | reads hb v => exact ⟨[], .refl w, .inl rfl⟩
  | refuses hb hi hf => exact ⟨[], .refl w, .inl rfl⟩
  | invalid hr hi c hc => exact ⟨[], .refl w, .inl rfl⟩
  | done hr hi hx v => exact ⟨[], hx.stored, .inl rfl⟩
  | fails hr hi hx => exact ⟨[.ioFail], hx.stored, .inr ⟨rfl, rfl⟩⟩
  | hangs hr hi hx hs => exact ⟨[], hx.stored, .inl rfl⟩

/-- Unless the accumulator has lost its meaning, each byte stored is counted (10_state.md R14). -/
theorem WriterEnds.counted (h : WriterEnds status w x) (hp : preciseCode x.fault) :
    x.out.length + w.byteCount.toNat = w.out.length + x.byteCount.toNat := by
  cases h with
  | waits hb => rfl
  | reads hb v => rfl
  | refuses hb hi hf => rfl
  | invalid hr hi c hc =>
    rw [UnitState.raise_precise _ hc.precise]
  | done hr hi hx v => exact hx.counted
  | fails hr hi hx => exact absurd rfl hp.2
  | hangs hr hi hx hs => exact hx.counted

/-- A unit that takes a word answers once, or its sink never answers (30_encoding.md R51, 20_memory.md R31). -/
theorem WriterEnds.answers (h : WriterEnds status w x) (hb : w.busy = false) :
    (x.busy = false ∧ ∃ y, x.responses = w.responses ++ [y])
    ∨ (x.busy = true ∧ x.responses = w.responses
      ∧ ∃ (j : Nat) (later : List SinkReply), w.sink = List.replicate j .ok ++ .noReply :: later
        ∧ x.sink = .noReply :: later ∧ x.out.length = w.out.length + j) := by
  cases h with
  | waits hb' => exact absurd hb' (by simp [hb])
  | reads => exact .inl ⟨hb, _, rfl⟩
  | refuses => exact .inl ⟨hb, _, rfl⟩
  | invalid hr hi c hc => exact .inl ⟨(UnitState.raise_busy _ _ _).trans hb, _, UnitState.raise_responses _ _ _⟩
  | done hr hi hx v => exact .inl ⟨hx.busy.trans hb, _, congrArg (· ++ _) hx.responses⟩
  | fails hr hi hx =>
    refine .inl ⟨(UnitState.raise_busy _ _ _).trans (hx.busy.trans hb), ⟨Cause.ioFailure.code, 0⟩, ?_⟩
    rw [UnitState.raise_responses, hx.responses]
  | hangs hr hi hx hs =>
    obtain ⟨later, hs⟩ := hs
    obtain ⟨j, added, hout, hsink, -, hall⟩ := hx.stored
    refine .inr ⟨rfl, hx.responses, j, later, by simpa [hs] using hsink, hs, ?_⟩
    rw [hout, List.length_append, hall (by simp [hs])]
end

/-- Settles O35: the command ends in one of the seven ways, and the sink's replies say what it stored in each. -/
theorem writeCommandsFrame : Obligations.WriteCommandsFrame := by
  unfold Obligations.WriteCommandsFrame
  intro i s t hu h
  obtain ⟨hend, hr, hhost⟩ := exec_writer_ends hu h
  obtain ⟨tail, ⟨j, added, hout, hsink, hle, hall⟩, htail⟩ := hend.stores
  have hlen : t.w.out.length = s.w.out.length + added.length := by rw [hout, List.length_append]
  refine ⟨fun k hk => ?_, by omega, ⟨j, tail, hsink, htail, by omega, fun hne => ?_⟩, hr, hhost, fun hi => ?_⟩
  · rw [hout, List.getElem?_append_left hk]
  · rw [hlen, hall hne]
  · rw [hi] at hend
    generalize t.w = x at hend
    cases hend with
    | waits => simp
    | reads => simp
    | refuses hb hi' | invalid hr hi' | done hr hi' | fails hr hi' | hangs hr hi' => cases hi'

end Sys2Proof.Machine
end

section
/-! ### How a command of the reader ends

Every micro-operation of `BR` takes bytes in the order of the source's replies and keeps the count and the cells in step
with them; so does every procedure made of them. A command then ends in one of seven ways. -/

namespace Sys2Proof.Machine

/-! #### What a procedure of `BR` takes -/

/-- From `r` to `x` the source yielded some bytes, and then the replies `tail` were used (20_memory.md R35). -/
def TakesBytes (tail : List SourceReply) (r x : Reader) : Prop :=
  ∃ bs : List Byte, x.taken = r.taken ++ bs ∧ r.source = bs.map .byte ++ tail ++ x.source

/-- The cells hold the last byte taken (10_state.md R16). -/
def Reader.HoldsLast (r : Reader) : Prop :=
  ∃ earlier b, r.taken = earlier ++ [b] ∧ r.pendingBits.toList = bitsOfByte b

/-- The bytes taken are those consumed and the one being consumed, which the cells hold (10_state.md R16, R17). -/
structure Reader.InStep (r : Reader) : Prop where
  fetched : r.taken.length = r.loaded
  holds : r.bitIndex ≠ 0 → r.HoldsLast

/-- From `r` to `x` bytes were taken and bits consumed, and nothing was answered or latched. -/
structure Takes (tail : List SourceReply) (r x : Reader) : Prop where
  taken : TakesBytes tail r x
  counted : r.byteCount.toNat ≤ x.byteCount.toNat
  inStep : r.InStep → x.InStep
  fault : x.fault = r.fault
  busy : x.busy = r.busy
  responses : x.responses = r.responses

/-- The cause a source that has no byte raises, by the reply it gave, if one was listed (20_memory.md R35, log
entry 7). -/
def RaisedBy (c : Cause) (tail : List SourceReply) : Prop :=
  c = .unexpectedEndOfInput ∧ (tail = [] ∨ tail = [.endOfData]) ∨ c = .ioFailure ∧ tail = [.ioFail]

theorem TakesBytes.refl (r : Reader) : TakesBytes [] r r := ⟨[], by simp⟩

theorem TakesBytes.trans {tail : List SourceReply} {r x y : Reader} (h : TakesBytes [] r x)
    (k : TakesBytes tail x y) : TakesBytes tail r y := by
  obtain ⟨bs, htaken, hsource⟩ := h
  obtain ⟨bs', htaken', hsource'⟩ := k
  exact ⟨bs ++ bs', by simp [htaken, htaken'], by simp [hsource, hsource']⟩

theorem Takes.refl (r : Reader) : Takes [] r r := ⟨.refl r, le_rfl, id, rfl, rfl, rfl⟩

theorem Takes.trans {tail : List SourceReply} {r x y : Reader} (h : Takes [] r x) (k : Takes tail x y) :
    Takes tail r y where
  taken := h.taken.trans k.taken
  counted := h.counted.trans k.counted
  inStep := k.inStep ∘ h.inStep
  fault := k.fault.trans h.fault
  busy := k.busy.trans h.busy
  responses := k.responses.trans h.responses

/-- The ways a procedure of `BR` ends that does `D` where it runs to its end, each with the replies it has used. -/
abbrev EndsTaking {α : Type} (D : Reader → Prop) (r : Reader) (m : Micro Reader α) : Prop :=
  m.ends D (fun c x => ∃ tail, RaisedBy c tail ∧ Takes tail r x)
    (fun x => Takes [] r x ∧ ∃ later, x.source = .noReply :: later)

theorem takes_composes : Composes (Takes []) (fun c r x => ∃ tail, RaisedBy c tail ∧ Takes tail r x)
    (fun r x => Takes [] r x ∧ ∃ later, x.source = .noReply :: later) where
  refl := .refl
  done := .trans
  raised h k := k.imp fun _ hk => ⟨hk.1, h.trans hk.2⟩
  hung h k := ⟨h.trans k.1, k.2⟩

/-- A source yields a byte, or its reply is the last one used. -/
theorem srcNext_replies (r : Reader) :
    (∃ b rest, r.source = .byte b :: rest ∧ srcNext r = .done b { r with taken := r.taken ++ [b], source := rest })
    ∨ (∃ c tail rest, RaisedBy c tail ∧ r.source = tail ++ rest ∧ srcNext r = .raised c { r with source := rest })
    ∨ (∃ later, r.source = .noReply :: later ∧ srcNext r = .hung r) := by
  obtain ⟨u, taken, source⟩ := r
  match source with
  | .byte b :: rest => exact .inl ⟨b, rest, rfl, rfl⟩
  | [] => exact .inr (.inl ⟨_, [], [], .inl ⟨rfl, .inl rfl⟩, rfl, rfl⟩)
  | .endOfData :: rest => exact .inr (.inl ⟨_, [.endOfData], rest, .inl ⟨rfl, .inr rfl⟩, rfl, rfl⟩)
  | .ioFail :: rest => exact .inr (.inl ⟨_, [.ioFail], rest, .inr ⟨rfl, rfl⟩, rfl, rfl⟩)
  | .noReply :: later => exact .inr (.inr ⟨later, rfl, rfl⟩)

/-- A reply that is no byte takes nothing. -/
theorem takes_reply {tail rest : List SourceReply} {r : Reader} (h : r.source = tail ++ rest) :
    Takes tail r { r with source := rest } :=
  ⟨⟨[], by simp, by simpa using h⟩, le_rfl, fun hs => ⟨hs.fetched, hs.holds⟩, rfl, rfl, rfl⟩

/-- From `r` to `x` the byte to consume from is loaded, taken now or before (44_reader_primitives.md R131). -/
structure Loads (r x : Reader) : Prop where
  taken : TakesBytes [] r x
  count : x.byteCount = r.byteCount
  length : r.InStep → x.taken.length = r.byteCount.toNat + 1
  holds : r.InStep → x.HoldsLast
  fault : x.fault = r.fault
  busy : x.busy = r.busy
  responses : x.responses = r.responses

theorem fetchByte_ends (r : Reader) : EndsTaking (Loads r) r (fetchByte r) := by
  unfold fetchByte
  split
  · next h0 =>
    rcases srcNext_replies r with ⟨b, rest, hs, hnext⟩ | ⟨c, tail, rest, hc, hs, hnext⟩ | ⟨later, hs, hnext⟩
    · rw [hnext]
      refine ⟨⟨[b], rfl, by simpa using hs⟩, rfl, fun hin => ?_, fun _ => ⟨r.taken, b, rfl, rfl⟩, rfl, rfl, rfl⟩
      simp [hin.fetched, UnitState.loaded, h0]
    · rw [hnext]
      exact ⟨tail, hc, takes_reply hs⟩
    · rw [hnext]
      exact ⟨.refl r, later, hs⟩
  · next h0 =>
    have hpos : 0 < r.bitIndex.toNat := Nat.pos_of_ne_zero fun e => h0 (BitVec.eq_of_toNat_eq e)
    exact ⟨.refl r, rfl, fun hin => by rw [hin.fetched, UnitState.loaded, if_pos hpos], fun hin => hin.holds h0,
      rfl, rfl, rfl⟩

/-- A bit of the loaded byte is consumed; after the eighth the byte is counted (44_reader_primitives.md R131). -/
theorem consumeBit_ends {r x : Reader} (h : Loads r x) : EndsTaking (Takes [] r) r (consumeBit x) := by
  unfold consumeBit
  split
  · next hi =>
    obtain ⟨hsucc, -⟩ := index_succ hi
    refine ⟨h.taken, h.count.symm ▸ le_rfl, fun hin => ⟨?_, fun _ => h.holds hin⟩, h.fault, h.busy, h.responses⟩
    show x.taken.length = x.byteCount.toNat + if 0 < (x.bitIndex + 1).toNat then 1 else 0
    rw [h.length hin, h.count, if_pos (by omega)]
  · rcases countRead_cases { x with bitIndex := 0 } with ⟨hfits, hcount⟩ | ⟨-, hcount⟩
    · have hsucc : (x.byteCount + 1).toNat = r.byteCount.toNat + 1 := by rw [count_succ hfits, h.count]
      rw [hcount]
      refine ⟨h.taken, ?_, fun hin => ⟨?_, fun hne => absurd rfl hne⟩, h.fault, h.busy, h.responses⟩
      · show r.byteCount.toNat ≤ (x.byteCount + 1).toNat
        omega
      · show x.taken.length = (x.byteCount + 1).toNat + 0
        rw [h.length hin, hsucc]
    · rw [hcount]
      trivial

theorem pullBit_ends (r : Reader) : EndsTaking (Takes [] r) r (pullBit r) := by
  have hfetch := fetchByte_ends r
  rw [pullBit_eq]
  cases hm : fetchByte r with
  | done a x => rw [hm] at hfetch; exact consumeBit_ends hfetch
  | raised c x => rw [hm] at hfetch; exact hfetch
  | hung x => rw [hm] at hfetch; exact hfetch
  | overflow => trivial

theorem takeWhole_ends {r : Reader} (h0 : r.bitIndex = 0) : EndsTaking (Takes [] r) r (takeWhole r) := by
  unfold takeWhole
  rcases srcNext_replies r with ⟨b, rest, hs, hnext⟩ | ⟨c, tail, rest, hc, hs, hnext⟩ | ⟨later, hs, hnext⟩
  · rw [hnext, Micro.bind_done]
    rcases countRead_cases { r with taken := r.taken ++ [b], source := rest } with ⟨hfits, hcount⟩ | ⟨-, hcount⟩
    · have hsucc : (r.byteCount + 1).toNat = r.byteCount.toNat + 1 := count_succ hfits
      rw [hcount]
      refine ⟨⟨[b], rfl, by simpa using hs⟩, ?_, fun hin => ⟨?_, fun hne => absurd h0 hne⟩, rfl, rfl, rfl⟩
      · show r.byteCount.toNat ≤ (r.byteCount + 1).toNat
        omega
      · have hlen := hin.fetched
        simp only [UnitState.loaded, h0] at hlen ⊢
        simp only [List.length_append, hlen, hsucc]
        rfl
    · rw [hcount]
      trivial
  · rw [hnext]
    exact ⟨tail, hc, takes_reply hs⟩
  · rw [hnext]
    exact ⟨.refl r, later, hs⟩

/-! #### The seven ways -/

/-- What a word does to the reader, in the order of 30_encoding.md R61, as `WriterEnds` says it of the writer. -/
inductive ReaderEnds (status : Bool) (r : Reader) : Reader → Prop
  | waits (hb : r.busy = true) : ReaderEnds status r r
  | reads (hb : r.busy = false) (v : Value) : ReaderEnds status r { r with toUnitState := r.respond v }
  | refuses (hb : r.busy = false) (hi : status = false) (hf : r.fault ≠ 0) :
    ReaderEnds status r { r with toUnitState := r.refuse }
  | invalid (hr : r.ready) (hi : status = false) (c : Cause) (hc : c.RaisedByWord) :
    ReaderEnds status r { r with toUnitState := r.raise .br c }
  | done (hr : r.ready) (hi : status = false) {x : Reader} (hx : Takes [] r x) (v : Value) :
    ReaderEnds status r { x with toUnitState := x.respond v }
  | fails (hr : r.ready) (hi : status = false) {x : Reader} (c : Cause) {tail : List SourceReply}
    (hc : RaisedBy c tail) (hx : Takes tail r x) : ReaderEnds status r { x with toUnitState := x.raise .br c }
  | hangs (hr : r.ready) (hi : status = false) {x : Reader} (hx : Takes [] r x)
    (hs : ∃ later, x.source = .noReply :: later) : ReaderEnds status r { x with busy := true }

/-- A command of `BR` ends in one of the seven ways and leaves the writer and the hosts' list alone. -/
theorem exec_reader_ends {i : Instr} {s t : State} (hu : i.unit = .br) (h : exec i s = .next t) :
    ReaderEnds i.isStatusRead s.r t.r ∧ t.w = s.w ∧ t.host = s.host := by
  rcases exec_reader_cases takes_composes pullBit_ends (fun _ h0 => takeWhole_ends h0) i s hu
    with ⟨hb, hx⟩ | ⟨hb, -, v, hx⟩ | ⟨hb, hi, hf, hx⟩ | ⟨hr, hi, c, hc, hx⟩ | ⟨hr, hi, m, hx, hm⟩
  · cases hx.symm.trans h
    exact ⟨.waits hb, rfl, rfl⟩
  · cases hx.symm.trans h
    exact ⟨.reads hb v, rfl, rfl⟩
  · cases hx.symm.trans h
    exact ⟨.refuses hb hi hf, rfl, rfl⟩
  · cases hx.symm.trans h
    exact ⟨.invalid hr hi c (hc.imp_right fun h => .inl h.1), rfl, rfl⟩
  · have hend := hx.symm.trans h
    cases m with
    | done v x => cases hend; exact ⟨.done hr hi hm v, rfl, rfl⟩
    | raised c x => cases hend; obtain ⟨tail, hc, hx⟩ := hm; exact ⟨.fails hr hi c hc hx, rfl, rfl⟩
    | hung x => cases hend; exact ⟨.hangs hr hi hm.1 hm.2, rfl, rfl⟩
    | overflow => cases hend

section
variable {status : Bool} {r x : Reader}

/-- Once latched, a cause stays latched (60_exceptions.md R201). -/
theorem ReaderEnds.fault_of_ne_zero (h : ReaderEnds status r x) (hf : r.fault ≠ 0) : x.fault = r.fault := by
  cases h with
  | waits hb => rfl
  | reads hb v => rfl
  | refuses hb hi hf => rfl
  | invalid hr | done hr | fails hr | hangs hr => exact absurd hr.2 hf

/-- However a command ends, the bytes taken are as the source replied (20_memory.md R35). -/
theorem ReaderEnds.takes (h : ReaderEnds status r x) :
    ∃ tail, TakesBytes tail r x
      ∧ (tail = [] ∨ tail = [.endOfData] ∧ x.fault = 5 ∨ tail = [.ioFail] ∧ x.fault = 6) := by
  cases h with
  | waits hb => exact ⟨[], .refl r, .inl rfl⟩
  | reads hb v => exact ⟨[], .refl r, .inl rfl⟩
  | refuses hb hi hf => exact ⟨[], .refl r, .inl rfl⟩
  | invalid hr hi c hc => exact ⟨[], .refl r, .inl rfl⟩
  | done hr hi hx v => exact ⟨[], hx.taken, .inl rfl⟩
  | @fails hr hi y c tail hc hx =>
    refine ⟨tail, hx.taken, ?_⟩
    rcases hc with ⟨rfl, rfl | rfl⟩ | ⟨rfl, rfl⟩
    · exact .inl rfl
    · exact .inr (.inl ⟨rfl, rfl⟩)
    · exact .inr (.inr ⟨rfl, rfl⟩)
  | hangs hr hi hx hs => exact ⟨[], hx.taken, .inl rfl⟩

theorem raisedBy_imprecise {c : Cause} {tail : List SourceReply} (h : RaisedBy c tail) : ¬ preciseCode c.code := by
  rcases h with ⟨rfl, -⟩ | ⟨rfl, -⟩ <;> decide

/-- Unless the accumulator has lost its meaning, the count does not fall and stays in step (10_state.md R17). -/
theorem ReaderEnds.counted (h : ReaderEnds status r x) (hp : preciseCode x.fault) :
    r.byteCount.toNat ≤ x.byteCount.toNat ∧ (r.InStep → x.InStep) := by
  cases h with
  | waits hb => exact ⟨le_rfl, id⟩
  | reads hb v => exact ⟨le_rfl, fun hin => ⟨hin.fetched, hin.holds⟩⟩
  | refuses hb hi hf => exact ⟨le_rfl, fun hin => ⟨hin.fetched, hin.holds⟩⟩
  | invalid hr hi c hc =>
    rw [UnitState.raise_precise _ hc.precise]
    exact ⟨le_rfl, fun hin => ⟨hin.fetched, hin.holds⟩⟩
  | done hr hi hx v => exact ⟨hx.counted, fun hin => ⟨(hx.inStep hin).fetched, (hx.inStep hin).holds⟩⟩
  | fails hr hi c hc hx => exact absurd hp (raisedBy_imprecise hc)
  | hangs hr hi hx hs => exact ⟨hx.counted, fun hin => ⟨(hx.inStep hin).fetched, (hx.inStep hin).holds⟩⟩

/-- A unit that takes a word answers once, or its source never answers (30_encoding.md R51, 20_memory.md R35). -/
theorem ReaderEnds.answers (h : ReaderEnds status r x) (hb : r.busy = false) :
    (x.busy = false ∧ ∃ y, x.responses = r.responses ++ [y])
    ∨ (x.busy = true ∧ x.responses = r.responses
      ∧ ∃ (bs : List Byte) (later : List SourceReply), r.source = bs.map .byte ++ .noReply :: later
        ∧ x.source = .noReply :: later ∧ x.taken = r.taken ++ bs) := by
  cases h with
  | waits hb' => exact absurd hb' (by simp [hb])
  | reads => exact .inl ⟨hb, _, rfl⟩
  | refuses => exact .inl ⟨hb, _, rfl⟩
  | invalid hr hi c hc => exact .inl ⟨(UnitState.raise_busy _ _ _).trans hb, _, UnitState.raise_responses _ _ _⟩
  | done hr hi hx v => exact .inl ⟨hx.busy.trans hb, _, congrArg (· ++ _) hx.responses⟩
  | fails hr hi c hc hx =>
    refine .inl ⟨(UnitState.raise_busy _ _ _).trans (hx.busy.trans hb), ⟨c.code, 0⟩, ?_⟩
    rw [UnitState.raise_responses, hx.responses]
  | hangs hr hi hx hs =>
    obtain ⟨later, hs⟩ := hs
    obtain ⟨bs, htaken, hsource⟩ := hx.taken
    exact .inr ⟨rfl, hx.responses, bs, later, by simpa [hs] using hsource, hs, htaken⟩
end

/-- Settles O45: the command ends in one of the seven ways, and the source's replies say what it took in each. -/
theorem readCommandsFrame : Obligations.ReadCommandsFrame := by
  unfold Obligations.ReadCommandsFrame
  intro i s t hu h
  obtain ⟨hend, hw, hhost⟩ := exec_reader_ends hu h
  obtain ⟨tail, ⟨bs, htaken, hsource⟩, htail⟩ := hend.takes
  refine ⟨fun k hk => by rw [htaken, List.getElem?_append_left hk], ⟨bs, tail, hsource, htaken, htail⟩, hw, hhost,
    fun hi => ?_⟩
  rw [hi] at hend
  generalize t.r = x at hend
  cases hend with
  | waits => simp
  | reads => simp
  | refuses hb hi' | invalid hr hi' | done hr hi' | fails hr hi' | hangs hr hi' => cases hi'

end Sys2Proof.Machine
end

section
/-! ### What a step keeps

A step leaves a unit alone, presents a word to it or resets it; the invariants of the whole machine are read off the
seven ways a word can end and the reset. -/

namespace Sys2Proof.Machine

/-! #### The step of one event -/

/-- Settles O6: the event is taken off the list and its word is decoded by the unit. -/
theorem stepRunsDecodedCommand : Obligations.StepRunsDecodedCommand := by
  unfold Obligations.StepRunsDecodedCommand
  intro s u word rest i hh hd
  simp only [step, fetch, hh, hd]

theorem step_of_reset {s : State} {u : UnitId} {rest : List HostEvent} (hh : s.host = .reset u :: rest) :
    step s = resetUnit u { s with host := rest } := by
  simp only [step, fetch, hh]

/-- What a word illegal for a unit does to its registers is one of the seven ways too (60_exceptions.md R199, R201). -/
theorem writerEnds_reject (w : Writer) : WriterEnds false w { w with toUnitState := w.reject .bw } := by
  rcases reject_cases .bw w.toUnitState with ⟨hb, hx⟩ | ⟨hb, hf, hx⟩ | ⟨hb, hf, hx⟩
  · rw [hx]; exact .waits hb
  · rw [hx]; exact .refuses hb rfl hf
  · rw [hx]; exact .invalid ⟨hb, hf⟩ rfl _ (.inr (.inr rfl))

theorem readerEnds_reject (r : Reader) : ReaderEnds false r { r with toUnitState := r.reject .br } := by
  rcases reject_cases .br r.toUnitState with ⟨hb, hx⟩ | ⟨hb, hf, hx⟩ | ⟨hb, hf, hx⟩
  · rw [hx]; exact .waits hb
  · rw [hx]; exact .refuses hb rfl hf
  · rw [hx]; exact .invalid ⟨hb, hf⟩ rfl _ (.inr (.inr rfl))

/-- A word presented to `BW`, legal or not, ends in one of the seven ways and leaves the reader alone. -/
theorem step_writer_word {s t : State} {word : CommandWord} {rest : List HostEvent} (h : step s = .next t)
    (hh : s.host = .command .bw word :: rest) : (∃ status, WriterEnds status s.w t.w) ∧ t.r = s.r := by
  cases hd : decodeFor .bw word with
  | ok i =>
    rw [stepRunsDecodedCommand s _ _ _ _ hh hd] at h
    obtain ⟨hend, hr, -⟩ := exec_writer_ends (decodeFor_ok hd).2 h
    exact ⟨⟨_, hend⟩, hr⟩
  | error e =>
    cases (step_of_illegal hh hd).symm.trans h
    exact ⟨⟨_, writerEnds_reject s.w⟩, rfl⟩

/-- A word presented to `BR`, legal or not, ends in one of the seven ways and leaves the writer alone. -/
theorem step_reader_word {s t : State} {word : CommandWord} {rest : List HostEvent} (h : step s = .next t)
    (hh : s.host = .command .br word :: rest) : (∃ status, ReaderEnds status s.r t.r) ∧ t.w = s.w := by
  cases hd : decodeFor .br word with
  | ok i =>
    rw [stepRunsDecodedCommand s _ _ _ _ hh hd] at h
    obtain ⟨hend, hw, -⟩ := exec_reader_ends (decodeFor_ok hd).2 h
    exact ⟨⟨_, hend⟩, hw⟩
  | error e =>
    cases (step_of_illegal hh hd).symm.trans h
    exact ⟨⟨_, readerEnds_reject s.r⟩, rfl⟩

/-- A reset of `BW` that answers a next state clears the writer and no more (70_reset_and_hazards.md R220, R221). -/
theorem step_writer_reset {s t : State} {rest : List HostEvent} (h : step s = .next t)
    (hh : s.host = .reset .bw :: rest) : t = { s with host := rest, w := s.w.resetEvent } := by
  rw [step_of_reset hh] at h
  rcases (resetUnit_cases { s with host := rest }).1 with ⟨-, hx⟩ | ⟨-, hx⟩ <;> cases hx.symm.trans h
  rfl

/-- A reset of `BR` that answers a next state clears the reader and no more (70_reset_and_hazards.md R220, R221). -/
theorem step_reader_reset {s t : State} {rest : List HostEvent} (h : step s = .next t)
    (hh : s.host = .reset .br :: rest) : t = { s with host := rest, r := s.r.resetEvent } := by
  rw [step_of_reset hh] at h
  rcases (resetUnit_cases { s with host := rest }).2 with ⟨-, hx⟩ | ⟨-, hx⟩ <;> cases hx.symm.trans h
  rfl

theorem step_idle {s t : State} (h : step s = .next t) (hh : s.host = []) : t = s := by
  simp only [step, fetch, hh] at h
  cases h
  rfl

/-- A step leaves the writer alone, presents a word to it, or resets it. -/
theorem step_writer_cases {s t : State} (h : step s = .next t) :
    t.w = s.w ∨ (∃ status, WriterEnds status s.w t.w)
      ∨ ((∃ rest, s.host = .reset .bw :: rest) ∧ t.w = s.w.resetEvent) := by
  match hh : s.host with
  | [] => exact .inl (by rw [step_idle h hh])
  | .command .bw word :: rest => exact .inr (.inl (step_writer_word h hh).1)
  | .command .br word :: rest => exact .inl (step_reader_word h hh).2
  | .reset .bw :: rest => exact .inr (.inr ⟨⟨rest, rfl⟩, by rw [step_writer_reset h hh]⟩)
  | .reset .br :: rest => exact .inl (by rw [step_reader_reset h hh])

/-- A step leaves the reader alone, presents a word to it, or resets it. -/
theorem step_reader_cases {s t : State} (h : step s = .next t) :
    t.r = s.r ∨ (∃ status, ReaderEnds status s.r t.r)
      ∨ ((∃ rest, s.host = .reset .br :: rest) ∧ t.r = s.r.resetEvent) := by
  match hh : s.host with
  | [] => exact .inl (by rw [step_idle h hh])
  | .command .bw word :: rest => exact .inl (step_writer_word h hh).2
  | .command .br word :: rest => exact .inr (.inl (step_reader_word h hh).1)
  | .reset .bw :: rest => exact .inl (by rw [step_writer_reset h hh])
  | .reset .br :: rest => exact .inr (.inr ⟨⟨rest, rfl⟩, by rw [step_reader_reset h hh]⟩)

/-! #### The streams -/

/-- The invariant is one condition on each unit. -/
theorem streamsInStep_iff (s : State) :
    StreamsInStep s ↔ (preciseCode s.w.fault → s.w.out.length = s.w.byteCount.toNat)
      ∧ (preciseCode s.r.fault → s.r.InStep) := by
  have hloaded : s.r.loaded = s.r.byteCount.toNat + if s.r.bitIndex = 0 then 0 else 1 := by
    rw [UnitState.loaded]
    by_cases h0 : s.r.bitIndex = 0
    · simp [h0]
    · rw [if_neg h0, if_pos (Nat.pos_of_ne_zero fun e => h0 (BitVec.eq_of_toNat_eq e))]
  constructor
  · rintro ⟨hw, hf, hl⟩
    exact ⟨hw, fun hp => ⟨(hf hp).trans hloaded.symm, hl hp⟩⟩
  · rintro ⟨hw, hr⟩
    exact ⟨hw, fun hp => (hr hp).fetched.trans hloaded, fun hp => (hr hp).holds⟩

/-- A cause that is precise after a word was precise before it. -/
theorem WriterEnds.precise {status : Bool} {w x : Writer} (h : WriterEnds status w x) (hp : preciseCode x.fault) :
    preciseCode w.fault := by
  by_cases hf : w.fault = 0
  · rw [hf]; decide
  · rwa [← h.fault_of_ne_zero hf]

theorem ReaderEnds.precise {status : Bool} {r x : Reader} (h : ReaderEnds status r x) (hp : preciseCode x.fault) :
    preciseCode r.fault := by
  by_cases hf : r.fault = 0
  · rw [hf]; decide
  · rwa [← h.fault_of_ne_zero hf]

/-- Settles O16: every way a word can end keeps the count and the stream in step, and a reset empties both. -/
theorem stepKeepsStreamsInStep : Obligations.StepKeepsStreamsInStep := by
  unfold Obligations.StepKeepsStreamsInStep
  intro s t hs h
  rw [streamsInStep_iff] at hs ⊢
  obtain ⟨hw, hr⟩ := hs
  constructor
  · rcases step_writer_cases h with heq | ⟨status, hend⟩ | ⟨-, heq⟩
    · rwa [heq]
    · intro hp
      have := hend.counted hp
      have := hw (hend.precise hp)
      omega
    · intro _
      rw [heq]
      rfl
  · rcases step_reader_cases h with heq | ⟨status, hend⟩ | ⟨-, heq⟩
    · rwa [heq]
    · exact fun hp => (hend.counted hp).2 (hr (hend.precise hp))
    · intro _
      rw [heq]
      exact ⟨rfl, fun hne => absurd rfl hne⟩

/-- Settles O17: after reset both streams are empty and both counts 0. -/
theorem resetStreamsInStep : Obligations.ResetStreamsInStep :=
  (streamsInStep_iff _).mpr ⟨fun _ => rfl, fun _ => ⟨rfl, fun hne => absurd rfl hne⟩⟩

/-! #### The causes and the responses -/

/-- A unit has latched one of these causes and given legal responses only (30_encoding.md R54,
60_exceptions.md R191). -/
def UnitState.Legal (causes : List (BitVec 8)) (u : UnitState) : Prop :=
  u.fault ∈ causes ∧ ∀ x ∈ u.responses, x.legal

/-- The causes `BW` can latch: no read ever ends its input (10_state.md R21, 60_exceptions.md R197). -/
def writerCauses : List (BitVec 8) := [0, 1, 2, 6, 7]

/-- The causes `BR` can latch (10_state.md R21). -/
def readerCauses : List (BitVec 8) := [0, 1, 2, 5, 6, 7]

section
variable {causes : List (BitVec 8)} {u v : UnitState}

theorem UnitState.Legal.congr (h : u.Legal causes) (hf : v.fault = u.fault) (hr : v.responses = u.responses) :
    v.Legal causes := by
  rwa [UnitState.Legal, hf, hr]

theorem UnitState.Legal.responded (h : u.Legal causes) {x : Response} (hx : x.legal) :
    ∀ y ∈ u.responses ++ [x], y.legal := by
  intro y hy
  rcases List.mem_append.mp hy with hy | hy
  · exact h.2 y hy
  · rwa [List.mem_singleton.mp hy]

theorem UnitState.Legal.respond (h : u.Legal causes) (v : Value) : (u.respond v).Legal causes :=
  ⟨h.1, h.responded ⟨by simp, by simp, by simp, fun hne => absurd rfl hne⟩⟩

theorem UnitState.Legal.refuse (h : u.Legal causes) : u.refuse.Legal causes := ⟨h.1, h.responded (by decide)⟩

/-- The host layer's causes are the ones no response may carry (60_exceptions.md R196). -/
theorem UnitState.Legal.raise (h : u.Legal causes) (id : UnitId) {c : Cause} (hc : c.code ∈ causes)
    (hx : Response.legal ⟨c.code, 0⟩) : (u.raise id c).Legal causes :=
  ⟨hc, by rw [UnitState.raise_responses]; exact h.responded hx⟩
end

theorem WriterEnds.legal {status : Bool} {w x : Writer} (h : WriterEnds status w x)
    (hw : w.toUnitState.Legal writerCauses) : x.toUnitState.Legal writerCauses := by
  cases h with
  | waits => exact hw
  | reads hb v => exact hw.respond v
  | refuses => exact hw.refuse
  | invalid hr hi c hc =>
    rcases hc with rfl | rfl | rfl
    · exact hw.raise .bw (by decide) (by decide)
    · exact hw.raise .bw (by decide) (by decide)
    · exact hw.raise .bw (by decide) (by decide)
  | done hr hi hx v => exact (hw.congr hx.fault hx.responses).respond v
  | fails hr hi hx => exact (hw.congr hx.fault hx.responses).raise .bw (by decide) (by decide)
  | hangs hr hi hx hs => exact hw.congr hx.fault hx.responses

theorem ReaderEnds.legal {status : Bool} {r x : Reader} (h : ReaderEnds status r x)
    (hr : r.toUnitState.Legal readerCauses) : x.toUnitState.Legal readerCauses := by
  cases h with
  | waits => exact hr
  | reads hb v => exact hr.respond v
  | refuses => exact hr.refuse
  | invalid hready hi c hc =>
    rcases hc with rfl | rfl | rfl
    · exact hr.raise .br (by decide) (by decide)
    · exact hr.raise .br (by decide) (by decide)
    · exact hr.raise .br (by decide) (by decide)
  | done hready hi hx v => exact (hr.congr hx.fault hx.responses).respond v
  | fails hready hi c hc hx =>
    rcases hc with ⟨rfl, -⟩ | ⟨rfl, -⟩
    · exact (hr.congr hx.fault hx.responses).raise .br (by decide) (by decide)
    · exact (hr.congr hx.fault hx.responses).raise .br (by decide) (by decide)
  | hangs hready hi hx hs => exact hr.congr hx.fault hx.responses

theorem answersLegal_iff (s : State) :
    AnswersLegal s ↔ s.w.toUnitState.Legal writerCauses ∧ s.r.toUnitState.Legal readerCauses := by
  simp only [UnitState.Legal, writerCauses, readerCauses, List.mem_cons, List.not_mem_nil, or_false]
  exact ⟨fun ⟨hwf, hrf, hwr, hrr⟩ => ⟨⟨hwf, hwr⟩, hrf, hrr⟩, fun ⟨⟨hwf, hwr⟩, hrf, hrr⟩ => ⟨hwf, hrf, hwr, hrr⟩⟩

/-- Settles O18: every way a word can end latches and answers only what its unit may, and a reset clears the cause. -/
theorem stepKeepsAnswersLegal : Obligations.StepKeepsAnswersLegal := by
  unfold Obligations.StepKeepsAnswersLegal
  intro s t hs h
  rw [answersLegal_iff] at hs ⊢
  obtain ⟨hw, hr⟩ := hs
  constructor
  · rcases step_writer_cases h with heq | ⟨status, hend⟩ | ⟨-, heq⟩
    · rwa [heq]
    · exact hend.legal hw
    · rw [heq]
      exact ⟨List.mem_cons_self, hw.2⟩
  · rcases step_reader_cases h with heq | ⟨status, hend⟩ | ⟨-, heq⟩
    · rwa [heq]
    · exact hend.legal hr
    · rw [heq]
      exact ⟨List.mem_cons_self, hr.2⟩

/-- Settles O19: after reset no cause is latched and no response given. -/
theorem resetAnswersLegal : Obligations.ResetAnswersLegal :=
  (answersLegal_iff _).mpr ⟨⟨by decide, by simp [State.reset, UnitState.reset]⟩,
    by decide, by simp [State.reset, UnitState.reset]⟩

/-! #### One unit's registers -/

/-- Settles O10: each of the seven ways answers once, or leaves the unit waiting for a reply. -/
theorem oneResponsePerCommand : Obligations.OneResponsePerCommand := by
  unfold Obligations.OneResponsePerCommand
  intro s t word rest h
  refine ⟨fun hh hb => ?_, fun hh hb => ?_⟩
  · obtain ⟨⟨status, hend⟩, -⟩ := step_writer_word h hh
    exact hend.answers hb
  · obtain ⟨⟨status, hend⟩, -⟩ := step_reader_word h hh
    exact hend.answers hb

/-- Settles O14: a word leaves a latched cause as it is, so only a reset is left. -/
theorem onlyResetClearsFault : Obligations.OnlyResetClearsFault := by
  unfold Obligations.OnlyResetClearsFault
  intro s t h
  refine ⟨fun hf hne => ?_, fun hf hne => ?_⟩
  · rcases step_writer_cases h with heq | ⟨status, hend⟩ | ⟨hreset, -⟩
    · exact absurd (by rw [heq]) hne
    · exact absurd (hend.fault_of_ne_zero hf) hne
    · exact hreset
  · rcases step_reader_cases h with heq | ⟨status, hend⟩ | ⟨hreset, -⟩
    · exact absurd (by rw [heq]) hne
    · exact absurd (hend.fault_of_ne_zero hf) hne
    · exact hreset

/-- Settles O21: in every way a command can end each byte stored is counted, and the reader's count only rises. -/
theorem byteCountsOnlyRise : Obligations.ByteCountsOnlyRise := by
  unfold Obligations.ByteCountsOnlyRise
  intro i s t h
  cases hu : i.unit with
  | bw =>
    obtain ⟨hend, hr, -⟩ := exec_writer_ends hu h
    refine ⟨fun hp => ?_, fun _ => by rw [hr]⟩
    obtain ⟨tail, ⟨j, added, hout, -⟩, -⟩ := hend.stores
    have hlen := congrArg List.length hout
    rw [List.length_append] at hlen
    have := hend.counted hp
    omega
  | br =>
    obtain ⟨hend, hw, -⟩ := exec_reader_ends hu h
    exact ⟨fun _ => by rw [hw]; exact ⟨le_rfl, rfl⟩, fun hp => (hend.counted hp).1⟩

/-! #### The forms of a command -/

/-- A command of `BW` is a status read, or a gate and a procedure, whatever the state (30_encoding.md R61). -/
inductive WriterForm (i : Instr) : Prop
  | reads (hi : i.isStatusRead = true) (register : UnitState → Value) (h : ∀ s, exec i s = readWriter register s)
  | serves (hi : i.isStatusRead = false) {α : Type} (gate : Except Cause α) (body : α → Writer → Micro Writer Value)
    (h : ∀ s, exec i s = serveWriter gate body s)

/-- A command of `BR` is a status read, or a gate and a procedure, whatever the state. -/
inductive ReaderForm (i : Instr) : Prop
  | reads (hi : i.isStatusRead = true) (register : UnitState → Value) (h : ∀ s, exec i s = readReader register s)
  | serves (hi : i.isStatusRead = false) {α : Type} (gate : Except Cause α) (body : α → Reader → Micro Reader Value)
    (h : ∀ s, exec i s = serveReader gate body s)

theorem exec_writer_form {i : Instr} (hu : i.unit = .bw) : WriterForm i := by
  cases i with
  | w8 | w16 | wint | wlong | wbool | wchar | wfloat | wdouble | walign =>
    apply WriterForm.serves rfl
    intro s
    simp only [exec, execW8, execW16, execWint, execWlong, execWbool, execWchar, execWfloat, execWdouble, execWalign]
    rfl
  | wcount | windex | wstatus => exact .reads rfl _ fun _ => rfl
  | _ => simp only [Instr.unit, Instr.opcode] at hu; exact absurd hu (by decide)

theorem exec_reader_form {i : Instr} (hu : i.unit = .br) : ReaderForm i := by
  cases i with
  | r8 | r16 | rint | rlong | rbool | rchar | rfloat | rdouble | ralign =>
    apply ReaderForm.serves rfl
    intro s
    simp only [exec, execR8, execR16, execRint, execRlong, execRbool, execRchar, execRfloat, execRdouble, execRalign]
    rfl
  | rcount | rindex | rstatus => exact .reads rfl _ fun _ => rfl
  | _ => simp only [Instr.unit, Instr.opcode] at hu; exact absurd hu (by decide)

/-- A unit inside a command takes no command (30_encoding.md R51). -/
theorem exec_writer_of_busy {i : Instr} {s : State} (hu : i.unit = .bw) (hb : s.w.busy = true) :
    exec i s = .next s := by
  cases exec_writer_form hu with
  | reads hi register h => rw [h]; exact if_pos hb
  | serves hi gate body h => rw [h]; exact if_pos hb

theorem exec_reader_of_busy {i : Instr} {s : State} (hu : i.unit = .br) (hb : s.r.busy = true) :
    exec i s = .next s := by
  cases exec_reader_form hu with
  | reads hi register h => rw [h]; exact if_pos hb
  | serves hi gate body h => rw [h]; exact if_pos hb

/-- A faulted unit refuses every command but its status reads (60_exceptions.md R201). -/
theorem exec_writer_of_faulted {i : Instr} {s : State} (hu : i.unit = .bw) (hi : i.isStatusRead = false)
    (hb : s.w.busy = false) (hf : s.w.fault ≠ 0) : exec i s = .next (State.onWriter UnitState.refuse s) := by
  cases exec_writer_form hu with
  | reads hi' => exact Bool.noConfusion (hi'.symm.trans hi)
  | serves hi gate body h => rw [h]; exact (if_neg (by simp [hb])).trans (if_pos hf)

theorem exec_reader_of_faulted {i : Instr} {s : State} (hu : i.unit = .br) (hi : i.isStatusRead = false)
    (hb : s.r.busy = false) (hf : s.r.fault ≠ 0) : exec i s = .next (State.onReader UnitState.refuse s) := by
  cases exec_reader_form hu with
  | reads hi' => exact Bool.noConfusion (hi'.symm.trans hi)
  | serves hi gate body h => rw [h]; exact (if_neg (by simp [hb])).trans (if_pos hf)

/-! #### Independence -/

/-- A procedure of `BW` that ends its command puts back a writer, whatever the rest of the machine. -/
theorem finishWriter_local {m : Micro Writer Value} {s s' t : State} (h : finishWriter s m = .next t) :
    finishWriter s' m = .next { s' with w := t.w } := by
  cases m <;> cases h <;> rfl

theorem finishReader_local {m : Micro Reader Value} {s s' t : State} (h : finishReader s m = .next t) :
    finishReader s' m = .next { s' with r := t.r } := by
  cases m <;> cases h <;> rfl

/-- A command of `BW` reads no more than its unit: on another machine with this unit it does the same to it. -/
theorem exec_writer_local {i : Instr} {s s' t : State} (hu : i.unit = .bw) (hw : s'.w = s.w) (h : exec i s = .next t) :
    exec i s' = .next { s' with w := t.w } := by
  have hon : ∀ f, State.onWriter f s' = { s' with w := (State.onWriter f s).w } := fun f => by
    rw [State.onWriter, State.onWriter, hw]
  cases exec_writer_form hu with
  | reads hi register hexec =>
    rw [hexec] at h ⊢
    cases hb : s.w.busy <;>
      simp only [readWriter, hw, hb, if_true, Bool.false_eq_true, if_false, Host.Outcome.next.injEq] at h ⊢
    · rw [← h, hon]
    · rw [← h, ← hw]
  | serves hi gate body hexec =>
    rcases serveWriter_cases gate body s with ⟨hb, -⟩ | ⟨hb, hf, -⟩ | ⟨hr, ⟨c, hg, hx⟩ | ⟨a, hg, hx⟩⟩
    · rw [exec_writer_of_busy hu hb] at h
      cases h
      rw [exec_writer_of_busy hu (hw ▸ hb), ← hw]
    · rw [exec_writer_of_faulted hu hi hb hf] at h
      cases h
      rw [exec_writer_of_faulted hu hi (hw ▸ hb) (hw ▸ hf), hon]
    · rw [hexec, hx] at h
      cases h
      obtain ⟨hb, hf⟩ := hr
      simp [hexec, serveWriter, hw, hb, hf, hg, hon]
    · rw [hexec, serveWriter_ready (hw ▸ hr) hg, hw]
      exact finishWriter_local (hx.symm.trans (hexec s ▸ h))

/-- A command of `BR` reads no more than its unit: on another machine with this unit it does the same to it. -/
theorem exec_reader_local {i : Instr} {s s' t : State} (hu : i.unit = .br) (hw : s'.r = s.r) (h : exec i s = .next t) :
    exec i s' = .next { s' with r := t.r } := by
  have hon : ∀ f, State.onReader f s' = { s' with r := (State.onReader f s).r } := fun f => by
    rw [State.onReader, State.onReader, hw]
  cases exec_reader_form hu with
  | reads hi register hexec =>
    rw [hexec] at h ⊢
    cases hb : s.r.busy <;>
      simp only [readReader, hw, hb, if_true, Bool.false_eq_true, if_false, Host.Outcome.next.injEq] at h ⊢
    · rw [← h, hon]
    · rw [← h, ← hw]
  | serves hi gate body hexec =>
    rcases serveReader_cases gate body s with ⟨hb, -⟩ | ⟨hb, hf, -⟩ | ⟨hr, ⟨c, hg, hx⟩ | ⟨a, hg, hx⟩⟩
    · rw [exec_reader_of_busy hu hb] at h
      cases h
      rw [exec_reader_of_busy hu (hw ▸ hb), ← hw]
    · rw [exec_reader_of_faulted hu hi hb hf] at h
      cases h
      rw [exec_reader_of_faulted hu hi (hw ▸ hb) (hw ▸ hf), hon]
    · rw [hexec, hx] at h
      cases h
      obtain ⟨hb, hf⟩ := hr
      simp [hexec, serveReader, hw, hb, hf, hg, hon]
    · rw [hexec, serveReader_ready (hw ▸ hr) hg, hw]
      exact finishReader_local (hx.symm.trans (hexec s ▸ h))

/-- Settles O15: a command leaves the other unit alone, and is a function of its own. -/
theorem unitsAreIndependent : Obligations.UnitsAreIndependent := by
  unfold Obligations.UnitsAreIndependent
  refine ⟨fun i s t h => ⟨fun hu => (exec_writer_ends hu h).2.1, fun hu => (exec_reader_ends hu h).2.1⟩, ?_, ?_⟩
  · exact fun i s s' t hu hw h => ⟨_, exec_writer_local hu hw.symm h, rfl, rfl, rfl⟩
  · exact fun i s s' t hu hr h => ⟨_, exec_reader_local hu hr.symm h, rfl, rfl, rfl⟩

/-! #### Status reads and faulted units -/

theorem writer_status_read {i : Instr} (hu : i.unit = .bw) (hi : i.isStatusRead = true) :
    i = .wcount ∨ i = .windex ∨ i = .wstatus := by
  cases i with
  | wcount | windex | wstatus => decide
  | rcount | rindex | rstatus => exact absurd hu (by decide)
  | _ => cases hi

theorem reader_status_read {i : Instr} (hu : i.unit = .br) (hi : i.isStatusRead = true) :
    i = .rcount ∨ i = .rindex ∨ i = .rstatus := by
  cases i with
  | rcount | rindex | rstatus => decide
  | wcount | windex | wstatus => exact absurd hu (by decide)
  | _ => cases hi

/-- Settles O31: a status read of a unit that is not busy answers its register. -/
theorem writerStatusReads : Obligations.WriterStatusReads := by
  unfold Obligations.WriterStatusReads
  intro s hb
  have hread : ∀ register, readWriter register s = .next (State.onWriter (fun u => u.respond (register u)) s) :=
    fun register => if_neg (by simp [hb])
  exact ⟨⟨_, hread countValue, rfl⟩, ⟨_, hread indexValue, rfl⟩, ⟨_, hread faultValue, rfl⟩⟩

/-- Settles O41: a status read of a unit that is not busy answers its register. -/
theorem readerStatusReads : Obligations.ReaderStatusReads := by
  unfold Obligations.ReaderStatusReads
  intro s hb
  have hread : ∀ register, readReader register s = .next (State.onReader (fun u => u.respond (register u)) s) :=
    fun register => if_neg (by simp [hb])
  exact ⟨⟨_, hread countValue, rfl⟩, ⟨_, hread indexValue, rfl⟩, ⟨_, hread faultValue, rfl⟩⟩

/-- An illegal word is refused too by a faulted unit (60_exceptions.md R201, R202). -/
theorem reject_of_faulted (id : UnitId) {u : UnitState} (hb : u.busy = false) (hf : u.fault ≠ 0) :
    u.reject id = u.refuse := by
  rw [UnitState.reject, if_neg (by simp [hb]), if_pos hf]

theorem step_writer_faulted {s : State} {word : CommandWord} {rest : List HostEvent} (hb : s.w.busy = false)
    (hf : s.w.fault ≠ 0) (hh : s.host = .command .bw word :: rest)
    (hi : ∀ i, decodeFor .bw word = .ok i → i.isStatusRead = false) :
    ∃ t, step s = .next t ∧ WriterAnswered 8 0 s.w.fault { s with host := rest } t := by
  cases hd : decodeFor .bw word with
  | ok i =>
    rw [stepRunsDecodedCommand s _ _ _ _ hh hd]
    exact ⟨_, exec_writer_of_faulted (decodeFor_ok hd).2 (hi i hd) hb hf, rfl⟩
  | error e =>
    refine ⟨_, step_of_illegal hh hd, ?_⟩
    rw [State.onWriter, reject_of_faulted .bw hb hf]
    rfl

theorem step_reader_faulted {s : State} {word : CommandWord} {rest : List HostEvent} (hb : s.r.busy = false)
    (hf : s.r.fault ≠ 0) (hh : s.host = .command .br word :: rest)
    (hi : ∀ i, decodeFor .br word = .ok i → i.isStatusRead = false) :
    ∃ t, step s = .next t ∧ ReaderAnswered 8 0 s.r.fault { s with host := rest } t := by
  cases hd : decodeFor .br word with
  | ok i =>
    rw [stepRunsDecodedCommand s _ _ _ _ hh hd]
    exact ⟨_, exec_reader_of_faulted (decodeFor_ok hd).2 (hi i hd) hb hf, rfl⟩
  | error e =>
    refine ⟨_, step_of_illegal hh hd, ?_⟩
    rw [State.onReader, reject_of_faulted .br hb hf]
    rfl

/-- Settles O8: a word is one of the unit's three status reads, which are answered, or it is refused. -/
theorem faultedUnitRefuses : Obligations.FaultedUnitRefuses := by
  unfold Obligations.FaultedUnitRefuses
  intro s word rest
  refine ⟨fun hb hf hh => ?_, fun hb hf hh => ?_⟩
  · by_cases hi : ∃ i, decodeFor .bw word = .ok i ∧ i.isStatusRead = true
    · obtain ⟨i, hd, hi⟩ := hi
      obtain ⟨⟨t₁, h₁, a₁⟩, ⟨t₂, h₂, a₂⟩, ⟨t₃, h₃, a₃⟩⟩ := writerStatusReads { s with host := rest } hb
      rw [stepRunsDecodedCommand s _ _ _ _ hh hd]
      rcases writer_status_read (decodeFor_ok hd).2 hi with rfl | rfl | rfl
      · exact ⟨t₁, h₁, .inl ⟨hd, a₁⟩⟩
      · exact ⟨t₂, h₂, .inr (.inl ⟨hd, a₂⟩)⟩
      · exact ⟨t₃, h₃, .inr (.inr (.inl ⟨hd, a₃⟩))⟩
    · have hno : ∀ i, decodeFor .bw word = .ok i → i.isStatusRead = false := fun i hd =>
        Bool.eq_false_iff.mpr fun hs => hi ⟨i, hd, hs⟩
      obtain ⟨t, h, ha⟩ := step_writer_faulted hb hf hh hno
      exact ⟨t, h, .inr (.inr (.inr ⟨hno, ha⟩))⟩
  · by_cases hi : ∃ i, decodeFor .br word = .ok i ∧ i.isStatusRead = true
    · obtain ⟨i, hd, hi⟩ := hi
      obtain ⟨⟨t₁, h₁, a₁⟩, ⟨t₂, h₂, a₂⟩, ⟨t₃, h₃, a₃⟩⟩ := readerStatusReads { s with host := rest } hb
      rw [stepRunsDecodedCommand s _ _ _ _ hh hd]
      rcases reader_status_read (decodeFor_ok hd).2 hi with rfl | rfl | rfl
      · exact ⟨t₁, h₁, .inl ⟨hd, a₁⟩⟩
      · exact ⟨t₂, h₂, .inr (.inl ⟨hd, a₂⟩)⟩
      · exact ⟨t₃, h₃, .inr (.inr (.inl ⟨hd, a₃⟩))⟩
    · have hno : ∀ i, decodeFor .br word = .ok i → i.isStatusRead = false := fun i hd =>
        Bool.eq_false_iff.mpr fun hs => hi ⟨i, hd, hs⟩
      obtain ⟨t, h, ha⟩ := step_reader_faulted hb hf hh hno
      exact ⟨t, h, .inr (.inr (.inr ⟨hno, ha⟩))⟩

/-! #### Busy units and resets -/

/-- Settles O9: every command of a busy unit, and every illegal word, leaves the state as it is. -/
theorem busyUnitTakesNoWord : Obligations.BusyUnitTakesNoWord := by
  unfold Obligations.BusyUnitTakesNoWord
  intro s u word rest hh hb
  cases hd : decodeFor u word with
  | ok i =>
    rw [stepRunsDecodedCommand s _ _ _ _ hh hd]
    cases u with
    | bw => exact exec_writer_of_busy (decodeFor_ok hd).2 hb
    | br => exact exec_reader_of_busy (decodeFor_ok hd).2 hb
  | error e =>
    rw [step_of_illegal hh hd]
    cases u with
    | bw => simp only [rejectWord, State.onWriter, UnitState.reject, if_pos hb]
    | br => simp only [rejectWord, State.onReader, UnitState.reject, if_pos hb]

/-- Settles O11: the reset of a unit that is not busy sets what R220 names and touches nothing else. -/
theorem resetEventClearsItsUnit : Obligations.ResetEventClearsItsUnit := by
  unfold Obligations.ResetEventClearsItsUnit
  intro s rest
  refine ⟨fun hh hb => ⟨{ s with host := rest, w := s.w.resetEvent }, ?_, rfl, rfl, rfl, hb, rfl, rfl, rfl, rfl, rfl⟩,
    fun hh hb => ⟨{ s with host := rest, r := s.r.resetEvent }, ?_, rfl, rfl, rfl, hb, rfl, rfl, rfl, rfl, rfl⟩⟩
  · rw [step_of_reset hh]
    simp only [resetUnit, hb, Bool.false_eq_true, if_false]
  · rw [step_of_reset hh]
    simp only [resetUnit, hb, Bool.false_eq_true, if_false]

/-- Settles O12: State.reset names these values. -/
theorem resetRegisterValues : Obligations.ResetRegisterValues := ⟨rfl, rfl, rfl, rfl, rfl, rfl⟩

/-- Settles O13: the reset of a busy unit is refused by name. -/
theorem resetDuringCommandIsOutside : Obligations.ResetDuringCommandIsOutside := by
  unfold Obligations.ResetDuringCommandIsOutside
  intro s u rest hh hb
  rw [step_of_reset hh]
  cases u with
  | bw => exact if_pos hb
  | br => exact if_pos hb

end Sys2Proof.Machine
end

section
/-! ### The writer's procedures as the flat loop

Every procedure that writes pushes its bits one by one, but for dead cells (41_writer_primitives.md R90). This is proved
once for each procedure, by its own composition, and then for every bit-writing command with its result. -/

namespace Sys2Proof.Machine

/-! #### The flat loop over a list of bits -/

/-- `PushBit` of each bit in turn: the loop of 41_writer_primitives.md R90, whatever value the bits come from. -/
def pushBits : List Bool → Writer → Micro Writer Unit
  | [], w => .done () w
  | b :: bs, w => (pushBit b w).bind fun _ x => pushBits bs x

theorem pushDown_eq_pushBits (size : Nat) (v : Value) (w : Writer) :
    pushDown size v w = pushBits (topDown size v) w := by
  induction size generalizing w with
  | zero => rfl
  | succ k ih => simp only [pushDown, topDown_succ, pushBits, ih]

theorem pushBits_append (bs cs : List Bool) (w : Writer) :
    pushBits (bs ++ cs) w = (pushBits bs w).bind fun _ x => pushBits cs x := by
  induction bs generalizing w with
  | nil => rfl
  | cons b bs ih => simp only [List.cons_append, pushBits, Micro.bind_assoc, ih]

theorem pushBits_alike (bits : List Bool) {w x : Writer} (h : w.sameButDead x) :
    WriterAlike (pushBits bits w) (pushBits bits x) := by
  induction bits generalizing w x with
  | nil => exact ⟨rfl, h⟩
  | cons b bs ih => exact endsLike_bind (pushBit_alike b h) fun _ _ _ _ _ hs => ih hs

theorem pushBits_done {bits : List Bool} {w x : Writer} (h : pushBits bits w = .done () x) : Pushed bits w x := by
  induction bits generalizing w with
  | nil => injection h with _ h; subst h; exact pushed_nil _
  | cons b bs ih =>
    simp only [pushBits] at h
    cases hb : pushBit b w with
    | done a y => rw [hb] at h; exact pushed_append (pushBit_done hb) (ih h)
    | raised c y => rw [hb] at h; cases h
    | hung y => rw [hb] at h; cases h
    | overflow => rw [hb] at h; cases h

theorem pushBits_accepts {bits : List Bool} {w : Writer} (h : w.accepts bits.length) :
    ∃ x, pushBits bits w = .done () x := by
  induction bits generalizing w with
  | nil => exact ⟨w, rfl⟩
  | cons b bs ih =>
    rw [List.length_cons, Nat.add_comm] at h
    obtain ⟨x, hx, p⟩ := pushBit_accepts b (accepts_first h)
    obtain ⟨y, hy⟩ := ih (accepts_rest (bits := [b]) h p)
    exact ⟨y, by rw [pushBits, hx, Micro.bind_done, hy]⟩

theorem pushBit_overflow {b : Bool} {w : Writer} (h : pushBit b w = .overflow) : ¬ w.countFits 1 := by
  unfold pushBit at h
  simp only at h
  split at h
  · cases h
  · next hi =>
    rcases sinkPut_cases (assembleByte (setCell w.pendingBits w.bitIndex b))
      { w with pendingBits := setCell w.pendingBits w.bitIndex b } with ⟨-, hput⟩ | ⟨_, -, hput⟩ | ⟨_, -, hput⟩
    · rw [hput, Micro.bind_done] at h
      rcases countWritten_cases (w := { w with
        pendingBits := setCell w.pendingBits w.bitIndex b, bitIndex := 0,
        out := w.out ++ [assembleByte (setCell w.pendingBits w.bitIndex b)], sink := w.sink.drop 1 })
        with ⟨-, hcount⟩ | ⟨hfull, -⟩
      · rw [hcount] at h; cases h
      · simp only [UnitState.countFits, UnitState.completes] at hfull ⊢
        omega
    · rw [hput] at h; cases h
    · rw [hput] at h; cases h

/-- The loop leaves the spec only where its bits complete more bytes than can be counted (10_state.md R14, U6). -/
theorem pushBits_overflow {bits : List Bool} {w : Writer} (h : pushBits bits w = .overflow) :
    ¬ w.countFits bits.length := by
  induction bits generalizing w with
  | nil => cases h
  | cons b bs ih =>
    simp only [pushBits] at h
    simp only [UnitState.countFits, List.length_cons, Nat.add_comm bs.length 1]
    cases hb : pushBit b w with
    | done a x =>
      rw [hb] at h
      have p := pushBit_done hb
      have hc := pushed_completes_add p bs.length
      have hcount := p.count
      have := ih h
      simp only [UnitState.countFits, List.length_singleton] at *
      omega
    | overflow =>
      have := pushBit_overflow hb
      simp only [UnitState.countFits, UnitState.completes] at *
      omega
    | raised c y => rw [hb] at h; cases h
    | hung y => rw [hb] at h; cases h

/-! #### Flat procedures -/

/-- From `w` the procedure ends as the loop over these bits does, with this result (41_writer_primitives.md R90). -/
def Flat {α : Type} (bits : List Bool) (a : α) (w : Writer) (m : Micro Writer α) : Prop :=
  WriterAlike m ((pushBits bits w).map fun _ => a)

theorem writerAlike_trans {α : Type} {m n o : Micro Writer α} (h : WriterAlike m n) (k : WriterAlike n o) :
    WriterAlike m o :=
  endsLike_trans (L := Writer.sameButDead) (T := Writer.sameTransactions) Writer.sameButDead_trans
    Writer.sameTransactions_trans h k

theorem Flat.refl (bits : List Bool) (w : Writer) : Flat bits () w (pushBits bits w) := by
  rw [Flat, Micro.map, Micro.bind_unit]
  exact endsLike_refl Writer.sameButDead_refl Writer.sameTransactions_refl _

theorem Flat.done {α : Type} (a : α) (w : Writer) : Flat [] a w (.done a w) := ⟨rfl, w.sameButDead_refl⟩

/-- A procedure that ends as the loop has pushed the bits where it ran to its end, with its result. -/
theorem Flat.pushed {α : Type} {bits : List Bool} {a b : α} {w x : Writer} (h : Flat bits a w (.done b x)) :
    b = a ∧ Pushed bits w x := by
  rw [Flat] at h
  cases hm : pushBits bits w with
  | done _ y => rw [hm] at h; exact ⟨h.1, pushed_sameButDead (pushBits_done hm) h.2⟩
  | raised c y => rw [hm] at h; exact h.elim
  | hung y => rw [hm] at h; exact h.elim
  | overflow => rw [hm] at h; exact h.elim

/-- In sequence, two procedures push the bits of the first and then those of the second. -/
theorem Flat.bind {α β : Type} {bs cs : List Bool} {a : α} {b : β} {w : Writer} {m : Micro Writer α}
    {f : α → Writer → Micro Writer β} (hm : Flat bs a w m) (hf : ∀ x, Pushed bs w x → Flat cs b x (f a x)) :
    Flat (bs ++ cs) b w (m.bind f) := by
  have hloop : (pushBits (bs ++ cs) w).map (fun _ => b)
      = ((pushBits bs w).map fun _ => a).bind fun _ x => (pushBits cs x).map fun _ => b := by
    simp only [pushBits_append, Micro.map, Micro.bind_assoc, Micro.bind_done]
  rw [Flat, hloop]
  refine endsLike_bind hm fun c x y hx _ hxy => ?_
  subst hx
  obtain ⟨rfl, p⟩ := hm.pushed
  exact writerAlike_trans (hf x p) (endsLike_map _ (pushBits_alike cs hxy))

theorem Flat.map {α β : Type} {bits : List Bool} {a : α} {w : Writer} {m : Micro Writer α} (f : α → β)
    (h : Flat bits a w m) : Flat bits (f a) w (m.map f) := by
  have := h.bind (cs := []) (f := fun c x => .done (f c) x) fun x _ => Flat.done (f a) x
  rwa [List.append_nil] at this

/-- With a sink that accepts the bytes of the bits, a flat procedure runs to its end. -/
theorem Flat.accepts {α : Type} {bits : List Bool} {a : α} {w : Writer} {m : Micro Writer α} (h : Flat bits a w m)
    (ha : w.accepts bits.length) : ∃ x, m = .done a x ∧ Pushed bits w x := by
  obtain ⟨y, hy⟩ := pushBits_accepts ha
  cases m with
  | done b x => obtain ⟨rfl, p⟩ := h.pushed; exact ⟨x, rfl, p⟩
  | raised c x => rw [Flat, hy] at h; exact h.elim
  | hung x => rw [Flat, hy] at h; exact h.elim
  | overflow => rw [Flat, hy] at h; exact h.elim

theorem Flat.overflow {α : Type} {bits : List Bool} {a : α} {w : Writer} (h : Flat bits a w .overflow) :
    ¬ w.countFits bits.length := by
  apply pushBits_overflow
  rw [Flat] at h
  cases hm : pushBits bits w with
  | overflow => rfl
  | done _ y => rw [hm] at h; exact h.elim
  | raised c y => rw [hm] at h; exact h.elim
  | hung y => rw [hm] at h; exact h.elim

/-! #### The procedures -/

theorem flat_pushDown (size : Nat) (v : Value) (w : Writer) : Flat (topDown size v) () w (pushDown size v w) := by
  rw [pushDown_eq_pushBits]
  exact .refl _ w

/-- Handing a byte over reads the sink and the count, and no cell. -/
theorem handOver_alike (b : Byte) {w x : Writer} (h : w.sameTransactions x) (hc : w.byteCount = x.byteCount) :
    WriterAlike ((sinkPut b w).bind fun _ y => countWritten { y with bitIndex := 0 })
      ((sinkPut b x).bind fun _ y => countWritten { y with bitIndex := 0 }) := by
  obtain ⟨⟨cells, index, count, fault, busy, draws, responses⟩, out, sink⟩ := w
  obtain ⟨⟨cells', index', count', fault', busy', draws', responses'⟩, out', sink'⟩ := x
  obtain ⟨rfl, rfl, rfl, rfl, rfl, rfl⟩ : out = out' ∧ sink = sink' ∧ fault = fault' ∧ busy = busy' ∧ draws = draws'
    ∧ responses = responses' := ⟨h.out, h.sink, h.fault, h.busy, h.draws, h.responses⟩
  obtain rfl : count = count' := hc
  match sink with
  | [] | .ok :: _ =>
    simp only [sinkPut, Micro.bind_done, countWritten]
    split
    · trivial
    · exact ⟨rfl, by constructor <;> rfl⟩
  | .ioFail :: _ => exact ⟨rfl, by constructor <;> rfl⟩
  | .noReply :: _ => constructor <;> rfl

/-- On a byte boundary, seven bits only fill cells, and the eighth hands over the byte the fast path hands over
(41_writer_primitives.md R81, R84). -/
theorem flat_emitWhole (v : Value) {w : Writer} (h : w.bitIndex = 0) : Flat (topDown 8 v) () w (emitWhole v w) := by
  obtain ⟨x, hx, p⟩ := pushDown_accepts 7 (v >>> 1) (accepts_within (w := w) (n := 7) (by simp [h]))
  have hc : w.completes 7 = 0 := by simp [UnitState.completes, h]
  have hi : x.bitIndex.toNat = 7 := by rw [p.index, topDown_length, h]; rfl
  have hcount : x.byteCount = w.byteCount := by
    apply BitVec.eq_of_toNat_eq
    rw [p.count, topDown_length, hc, Nat.add_zero]
  have hout : x.out = w.out := by
    obtain ⟨added, hadded, hlen⟩ := p.stored
    rw [topDown_length, hc] at hlen
    rw [hadded, List.eq_nil_of_length_eq_zero hlen, List.append_nil]
  have hsink : x.sink = w.sink := by rw [p.replies, topDown_length, hc, List.drop_zero]
  have hlive : x.live = topDown 7 (v >>> 1) := by
    have hstream := p.stream
    rw [Writer.stream, Writer.stream, hout, List.append_assoc, List.append_cancel_left_eq] at hstream
    simpa [Writer.live, h] using hstream
  have hbyte : assembleByte (setCell x.pendingBits x.bitIndex (v.getLsbD 0)) = v.setWidth 8 := by
    apply bitsOfByte_inj
    rw [bitsOfByte_assembleByte, eighth_setCell (by omega), hlive, ← topDown_eight]
    exact (topDown_add 7 1 v).symm
  have hflat : pushBits (topDown 8 v) w = pushBit (v.getLsbD 0) x := by
    rw [← pushDown_eq_pushBits, pushDown_add 7 1, hx, Micro.bind_done]
    exact Micro.bind_unit _
  rw [Flat, Micro.map, Micro.bind_unit, hflat, emitWhole_eq v h, pushBit]
  simp only [hi, Nat.lt_irrefl, if_false, hbyte]
  exact handOver_alike _ ⟨hout.symm, hsink.symm, p.fault.symm, p.busy.symm, p.draws.symm, p.responses.symm⟩ hcount.symm

theorem flat_write8Fits (size : Nat) (v : Value) (w : Writer) : Flat (topDown size v) () w (write8Fits size v w) := by
  unfold write8Fits
  split
  · next h => rw [h.1]; exact flat_emitWhole v h.2
  · exact flat_pushDown size v w

theorem flat_write8 (size : Nat) (v : Value) (w : Writer) : Flat (topDown size v) () w (write8 size v w) := by
  unfold write8
  simp only
  split
  · next h =>
    have hsplit := topDown_add (8 - w.bitIndex.toNat) (size - (8 - w.bitIndex.toNat)) v
    rw [Nat.add_sub_cancel' h.le] at hsplit
    rw [hsplit]
    exact (flat_write8Fits _ _ w).bind fun x _ => flat_write8Fits _ v x
  · exact flat_write8Fits size v w

/-- A decomposition pushes the bits of the value where its chunks push theirs (41_writer_primitives.md R88, R90). -/
theorem flat_decompose {width : Nat} {prim : Nat → Value → Writer → Micro Writer Unit} (hw : 0 < width)
    (hp : ∀ n v w, n ≤ width → Flat (topDown n v) () w (prim n v w)) (size : Nat) (v : Value) (w : Writer) :
    Flat (topDown size v) () w (decompose width prim size v w) := by
  have chunks : ∀ q w, Flat (topDown (width * q) v) () w (fullChunks width prim q v w) := by
    intro q
    induction q with
    | zero => exact Flat.done ()
    | succ j ih =>
      intro w
      rw [Nat.mul_succ, Nat.add_comm, topDown_add]
      exact (hp width _ w le_rfl).bind fun x _ => ih x
  have hsize : size = size % width + width * (size / width) := (Nat.mod_add_div size width).symm
  unfold decompose
  simp only
  split
  · conv => arg 1; rw [hsize, topDown_add]
    exact (hp _ _ w (Nat.mod_lt _ hw).le).bind fun x _ => chunks _ x
  · conv => arg 1; rw [hsize, show size % width = 0 by omega, Nat.zero_add]
    exact chunks _ w

theorem flat_write16 (size : Nat) (v : Value) (w : Writer) : Flat (topDown size v) () w (write16 size v w) :=
  flat_decompose (by decide) (fun n v w _ => flat_write8 n v w) size v w

theorem flat_writeIntUnsigned (size : Nat) (v : Value) (w : Writer) :
    Flat (topDown size v) () w (writeIntUnsigned size v w) :=
  flat_decompose (by decide) (fun n v w _ => flat_write16 n v w) size v w

theorem flat_writeLongUnsigned (size : Nat) (v : Value) (w : Writer) :
    Flat (topDown size v) () w (writeLongUnsigned size v w) := by
  refine flat_decompose (by decide) (fun n v w hn => ?_) size v w
  rw [← topDown_lowField hn]
  exact flat_writeIntUnsigned n _ w

/-- The sign bit, then the magnitude (42_writer_values.md R101, R104). -/
theorem flat_writeSigned {magnitude : Nat → Value → Writer → Micro Writer Unit}
    (hm : ∀ n v w, Flat (topDown n v) () w (magnitude n v w)) {size : Nat} (hs : 1 ≤ size) (v : Value) (w : Writer) :
    Flat (topDown size v) () w (writeSigned magnitude size v w) := by
  have hsplit := topDown_add 1 (size - 1) v
  rw [Nat.add_sub_cancel' hs] at hsplit
  rw [hsplit]
  refine (flat_write8 1 _ w).bind fun x _ => ?_
  split
  · exact hm _ v x
  · next h => rw [show size - 1 = 0 by omega]; exact Flat.done () x

theorem flat_writeInt (unsigned : Bool) {size : Nat} (hs : 1 ≤ size) (v : Value) (w : Writer) :
    Flat (topDown size v) () w (writeInt unsigned size v w) := by
  cases unsigned with
  | false => exact flat_writeSigned flat_writeIntUnsigned hs v w
  | true => exact flat_writeIntUnsigned size v w

theorem flat_writeLong (unsigned : Bool) {size : Nat} (hs : 1 ≤ size) (v : Value) (w : Writer) :
    Flat (topDown size v) () w (writeLong unsigned size v w) := by
  cases unsigned with
  | false => exact flat_writeSigned flat_writeLongUnsigned hs v w
  | true => exact flat_writeLongUnsigned size v w

theorem flat_iff_alike_pushDown {size : Nat} {v : Value} {w : Writer} {m : Micro Writer Unit} :
    Flat (topDown size v) () w m ↔ WriterAlike m (pushDown size v w) := by
  rw [Flat, Micro.map, Micro.bind_unit, pushDown_eq_pushBits]

/-- Settles O25: each procedure is flat by its own composition of flat parts. -/
theorem writeProceduresAreFlat : Obligations.WriteProceduresAreFlat := by
  unfold Obligations.WriteProceduresAreFlat
  intro size v w hs
  exact ⟨fun _ => flat_iff_alike_pushDown.mp (flat_write8 size v w),
    fun _ => flat_iff_alike_pushDown.mp (flat_write16 size v w),
    fun _ => ⟨flat_iff_alike_pushDown.mp (flat_writeInt true hs v w),
      flat_iff_alike_pushDown.mp (flat_writeInt false hs v w)⟩,
    fun _ => ⟨flat_iff_alike_pushDown.mp (flat_writeLong true hs v w),
      flat_iff_alike_pushDown.mp (flat_writeLong false hs v w)⟩⟩

/-! #### Alignment -/

theorem flat_zeros (size : Nat) (w : Writer) : Flat (List.replicate size false) () w (write8 size 0 w) :=
  topDown_zeros size ▸ flat_write8 size 0 w

/-- The whole zero bytes add eight bits each to the number answered (43_writer_align_status.md R120). -/
theorem flat_padBytes {n : Nat} (hn : 0 < n) {rounds : Nat} {w : Writer} (h : padsFor n w.byteCount.toNat ≤ rounds)
    (v : Value) :
    Flat (List.replicate (8 * padsFor n w.byteCount.toNat) false)
      (v + BitVec.ofNat 64 (8 * padsFor n w.byteCount.toNat)) w (padBytes n rounds v w) := by
  induction rounds generalizing w v with
  | zero =>
    rw [Nat.le_zero.mp h]
    simpa [padBytes] using Flat.done v w
  | succ r ih =>
    unfold padBytes
    split
    · next hm =>
      rw [padsFor_aligned hm]
      simpa using Flat.done v w
    · next hm =>
      rw [padsFor_unaligned hn hm, Nat.mul_succ, Nat.add_comm, List.replicate_add, BitVec.ofNat_add, ← BitVec.add_assoc]
      refine (flat_zeros 8 w).bind fun x p => ?_
      have hcount := zeros_count_succ p (by omega) (by omega)
      rw [← hcount]
      exact ih (by have := padsFor_unaligned hn hm; rw [hcount]; omega) _

theorem flat_alignWriter {n : Nat} (hn : 0 < n) (w : Writer) :
    Flat (List.replicate (w.alignBits n) false) (BitVec.ofNat 64 (w.alignBits n)) w (alignWriter n w) := by
  rw [alignBits_eq, UnitState.loaded]
  unfold alignWriter
  split
  · next hi =>
    rw [List.replicate_add, BitVec.ofNat_add]
    refine (flat_zeros _ w).bind fun x p => ?_
    have hcount := zeros_count_succ p (by omega) (by omega)
    rw [← hcount]
    exact flat_padBytes hn (padsFor_le hn _) _
  · next hi =>
    simpa using flat_padBytes hn (padsFor_le hn _) 0

/-! #### The commands -/

/-- What a bit-writing command answers: 0, or the number of bits an alignment pads (43_writer_align_status.md R120). -/
def writtenResult (u : UnitState) : Instr → Value
  | .walign n => BitVec.ofNat 64 (u.alignBits n.toNat)
  | _ => 0

/-- The slice of `VALUE` a command takes has the bits the command writes (30_encoding.md R53). -/
theorem Flat.of_operand {α : Type} {k n : Nat} {v : Value} {a : α} {w : Writer} {m : Micro Writer α} (h : k ≤ n)
    (hm : Flat (topDown k (lowField n v)) a w m) : Flat (topDown k v) a w m :=
  topDown_lowField h v ▸ hm

/-- A sized write of a ready unit whose size is legal runs its procedure. -/
theorem serveWriter_sized_flat {s : State} {unsigned : Bool} {e : Nat} {max n : Int} {v a : Value} {bits : List Bool}
    {body : Int → Writer → Micro Writer Value} (hr : s.w.ready) (hmax : maxSize unsigned e = max)
    (hb : (if 1 ≤ n ∧ n ≤ max then some (topDown n.toNat v) else none) = some bits)
    (hbody : 1 ≤ n → n ≤ max → Flat (topDown n.toNat v) a s.w (body n s.w)) :
    ∃ m, serveWriter (requireValidSize unsigned e n) body s = finishWriter s m ∧ Flat bits a s.w m := by
  obtain ⟨⟨hlow, hhigh⟩, hbits⟩ := Option.ite_none_right_eq_some.mp hb
  obtain rfl := Option.some.inj hbits
  exact ⟨_, serveWriter_ready hr (requireValidSize_ok ⟨hlow, hmax ▸ hhigh⟩) body, hbody hlow hhigh⟩

/-- Every bit-writing command of a ready unit ends as the loop over its bits, with its result. -/
theorem exec_flat {i : Instr} {s : State} {bits : List Bool} (hr : s.w.ready)
    (hb : writtenBits s.w.toUnitState i = some bits) :
    ∃ m : Micro Writer Value, exec i s = finishWriter s m ∧ Flat bits (writtenResult s.w.toUnitState i) s.w m := by
  obtain ⟨max8, max16, -⟩ := maxSize_values
  cases i with
  | w8 n v =>
    simp only [exec, execW8]
    exact serveWriter_sized_flat hr max8 hb fun _ hn =>
      (Flat.of_operand (n := 8) (by omega) (flat_write8 _ _ _)).map _
  | w16 n v =>
    simp only [exec, execW16]
    exact serveWriter_sized_flat hr max16 hb fun _ hn =>
      (Flat.of_operand (n := 16) (by omega) (flat_write16 _ _ _)).map _
  | wchar n v =>
    simp only [exec, execWchar]
    exact serveWriter_sized_flat hr max16 hb fun _ hn =>
      (Flat.of_operand (n := 16) (by omega) (flat_write16 _ _ _)).map _
  | wint unsigned n v =>
    simp only [exec, execWint]
    exact serveWriter_sized_flat hr (maxSize_int unsigned) hb fun hlow hn =>
      (Flat.of_operand (n := 32) (by split at hn <;> omega) (flat_writeInt unsigned (by omega) _ _)).map _
  | wlong unsigned n v =>
    simp only [exec, execWlong]
    exact serveWriter_sized_flat hr (maxSize_long unsigned) hb fun hlow _ =>
      (flat_writeLong unsigned (size := n.toNat) (by omega) v _).map _
  | wbool v =>
    simp only [exec, execWbool]
    obtain rfl := Option.some.inj hb
    exact ⟨_, serveWriter_ready (g := noGate) hr rfl _, (Flat.of_operand le_rfl (flat_write8 1 _ _)).map _⟩
  | wfloat v =>
    simp only [exec, execWfloat]
    obtain rfl := Option.some.inj hb
    exact ⟨_, serveWriter_ready (g := noGate) hr rfl _,
      (Flat.of_operand le_rfl (flat_writeInt false (by decide) _ _)).map _⟩
  | wdouble v =>
    simp only [exec, execWdouble]
    obtain rfl := Option.some.inj hb
    exact ⟨_, serveWriter_ready (g := noGate) hr rfl _, (flat_writeLong false (by decide) v _).map _⟩
  | walign n =>
    simp only [exec, execWalign]
    obtain ⟨hn, hbits⟩ := Option.ite_none_right_eq_some.mp hb
    obtain rfl := Option.some.inj hbits
    exact ⟨_, serveWriter_ready hr (requirePositive_ok hn) _, flat_alignWriter (by omega) _⟩
  | _ => cases hb

end Sys2Proof.Machine
end

section
/-! ### What the writing commands do

With a sink that accepts the bytes completed, a bit-writing command appends its bits and answers
(41_writer_primitives.md R90); no bit of the value at position size or above is read; a sink that never answers leaves
the unit waiting. -/

namespace Sys2Proof.Machine

/-! #### With an accepting sink -/

/-- The state in which a procedure of `BW` that ran to its end with `x` leaves the machine. -/
abbrev State.respondedWriter (s : State) (x : Writer) (v : Value) : State :=
  State.onWriter (UnitState.respond v) { s with w := x }

/-- A procedure that pushed bits and answers a value ends its command in the state `Appended` describes. -/
theorem appended_of_pushed {bits : List Bool} {s : State} {x : Writer} (p : Pushed bits s.w x) (v : Value) :
    Appended bits v s (s.respondedWriter x v) := by
  obtain ⟨added, hout, hlen⟩ := p.stored
  exact {
    stream := p.stream
    index := p.index
    count := p.count
    stored := by rw [← hlen, ← List.length_append, ← hout]; rfl
    kept := fun k hk => (congrArg (·[k]?) hout).trans (List.getElem?_append_left hk)
    replies := p.replies
    answered := congrArg (· ++ _) p.responses
    fault := p.fault
    busy := p.busy
    draws := p.draws
    reader := rfl
    host := rfl }

/-- A bit-writing command of a ready unit with an accepting sink appends its bits and answers its result. -/
theorem exec_appends {i : Instr} {s : State} {bits : List Bool} (hr : s.w.ready)
    (hb : writtenBits s.w.toUnitState i = some bits) (ha : s.w.accepts bits.length) :
    ∃ t, exec i s = .next t ∧ Appended bits (writtenResult s.w.toUnitState i) s t := by
  obtain ⟨m, hexec, hm⟩ := exec_flat hr hb
  obtain ⟨x, rfl, p⟩ := hm.accepts ha
  exact ⟨_, hexec, appended_of_pushed p _⟩

/-- A write of the low `size` bits of a value appends these and answers 0. -/
theorem exec_appends_value {i : Instr} {s : State} {size : Nat} {v : Value} (hr : s.w.ready) (ha : s.w.accepts size)
    (hb : writtenBits s.w.toUnitState i = some (topDown size v)) (hres : writtenResult s.w.toUnitState i = 0) :
    ∃ t, exec i s = .next t ∧ Appended (topDown size v) 0 s t :=
  hres ▸ exec_appends hr hb (by rwa [topDown_length])

/-- Settles O26: the three commands write the low `size` bits where the size passes their gate. -/
theorem primitiveWritesAppend : Obligations.PrimitiveWritesAppend := by
  unfold Obligations.PrimitiveWritesAppend
  intro s size value hr hlow ha
  refine ⟨fun hhigh => ?_, fun hhigh => ?_, fun hhigh => ?_⟩
  · exact exec_appends_value hr ha (by simp only [writtenBits]; rw [if_pos (by omega), Int.toNat_natCast]) rfl
  · exact exec_appends_value hr ha (by simp only [writtenBits]; rw [if_pos (by omega), Int.toNat_natCast]) rfl
  · exact exec_appends_value hr ha (by simp only [writtenBits]; rw [if_pos (by omega), Int.toNat_natCast]) rfl

/-- Settles O27: whatever `U` is, the commands write the low `size` bits where the size passes their gate. -/
theorem integerWritesAppend : Obligations.IntegerWritesAppend := by
  unfold Obligations.IntegerWritesAppend
  intro s unsigned size value hr hlow ha
  refine ⟨fun hhigh => exec_appends_value hr ha ?_ rfl, fun hhigh => exec_appends_value hr ha ?_ rfl⟩
  · simp only [writtenBits]
    rw [if_pos (by cases unsigned <;> simp at hhigh ⊢ <;> omega), Int.toNat_natCast]
  · simp only [writtenBits]
    rw [if_pos (by cases unsigned <;> simp at hhigh ⊢ <;> omega), Int.toNat_natCast]

/-- Settles O28: the three commands have no gate and write 1, 32 and 64 bits. -/
theorem typedWritesAppend : Obligations.TypedWritesAppend := by
  unfold Obligations.TypedWritesAppend
  intro s value hr
  exact ⟨fun ha => exec_appends_value hr ha rfl rfl, fun ha => exec_appends_value hr ha rfl rfl,
    fun ha => exec_appends_value hr ha rfl rfl⟩

/-! #### Alignment -/

theorem writtenBits_walign {n : Nat} (hn : 0 < n) (u : UnitState) :
    writtenBits u (.walign n) = some (List.replicate (u.alignBits n) false) := by
  simp only [writtenBits]
  rw [if_pos (by omega), Int.toNat_natCast]

/-- Settles O29: the alignment writes `p + 8z` zeros, which end on a byte boundary whose count is the loaded bytes with
their padding. -/
theorem alignWriterPads : Obligations.AlignWriterPads := by
  unfold Obligations.AlignWriterPads
  intro s n hn hr ha
  obtain ⟨t, hexec, happ⟩ := exec_appends hr (writtenBits_walign hn _) (by rwa [List.length_replicate])
  have hindex := happ.index
  have hcount := happ.count
  rw [List.length_replicate] at hindex hcount
  rw [completes_alignBits] at hcount
  refine ⟨t, hexec, happ, ?_, ?_, hcount⟩
  · exact BitVec.eq_of_toNat_eq (hindex.trans (alignBits_ends_on_boundary n _))
  · rw [hcount, add_padsFor_mod hn]

theorem Cause.code_ne_zero (c : Cause) : c.code ≠ 0 := by cases c <;> decide

/-- A bit-writing command that leaves a ready unit ready ran to its end. -/
theorem pushed_of_ready {i : Instr} {s t : State} {bits : List Bool} (hr : s.w.ready)
    (hb : writtenBits s.w.toUnitState i = some bits) (h : exec i s = .next t) (ht : t.w.ready) :
    ∃ x v, Pushed bits s.w x ∧ t = s.respondedWriter x v := by
  obtain ⟨m, hexec, hm⟩ := exec_flat hr hb
  have hend := hexec.symm.trans h
  obtain ⟨hbusy, hfault⟩ := ht
  cases m with
  | done v x => cases hend; exact ⟨x, v, hm.pushed.2, rfl⟩
  | raised c x => cases hend; exact absurd hfault c.code_ne_zero
  | hung x => cases hend; cases hbusy
  | overflow => cases hend

/-- A writer on a byte boundary whose count is a multiple of `n` needs no padding (43_writer_align_status.md R120). -/
theorem alignWriter_aligned {n : Nat} {w : Writer} (hi : w.bitIndex = 0) (hc : w.byteCount.toNat % n = 0) :
    alignWriter n w = .done 0 w := by
  rw [alignWriter, hi, if_neg (by decide)]
  cases n with
  | zero => rfl
  | succ k => rw [padBytes, if_pos hc]

/-- Settles O30: the first alignment leaves the writer where the second finds nothing to pad. -/
theorem alignWriterTwicePadsNothing : Obligations.AlignWriterTwicePadsNothing := by
  unfold Obligations.AlignWriterTwicePadsNothing
  intro s t n hn hr h ht
  obtain ⟨x, v, p, rfl⟩ := pushed_of_ready hr (writtenBits_walign hn _) h ht
  have hindex : x.bitIndex = 0 := by
    apply BitVec.eq_of_toNat_eq
    rw [p.index, List.length_replicate, alignBits_ends_on_boundary]
    rfl
  have hcount : x.byteCount.toNat % n = 0 := by
    rw [p.count, List.length_replicate, completes_alignBits, add_padsFor_mod hn]
  have halign : alignWriter n (s.respondedWriter x v).w = .done 0 (s.respondedWriter x v).w :=
    alignWriter_aligned hindex hcount
  refine ⟨_, ?_, appended_of_pushed (pushed_nil _) 0, rfl⟩
  show serveWriter (requirePositive n) (fun k w => alignWriter k.toNat w) (s.respondedWriter x v) = _
  rw [serveWriter_ready ht (requirePositive_ok (by omega)), Int.toNat_natCast, halign]
  rfl

/-! #### With a silent sink -/

/-- Settles O34: a bit-writing command ends as a procedure that writes its bits, and such a procedure waits at the first
byte the sink never answers for. -/
theorem silentSinkKeepsUnitBusy : Obligations.SilentSinkKeepsUnitBusy := by
  unfold Obligations.SilentSinkKeepsUnitBusy
  intro s i bits j later hr hbits hsink hj hfits
  obtain ⟨m, hexec, hm⟩ := exec_emits hr hbits
  obtain ⟨x, hstop, ⟨hcontra, -⟩ | ⟨-, rfl⟩⟩ := hm.stops_at (by decide) hsink hj hfits
  · cases hcontra
  · exact ⟨_, hexec, rfl, hstop.fault.trans hr.2, hstop.responses, hstop.stored, hstop.kept, rfl, rfl⟩

/-! #### The bits of the value that are read -/

/-- A procedure of this width reads no bit of its value at position `n` or above (41_writer_primitives.md R86). -/
def ReadsLow (p : Nat → Value → Writer → Micro Writer Unit) (n : Nat) : Prop :=
  ∀ v v', topDown n v = topDown n v' → p n v = p n v'

/-- Values with the same low bits have the same bits in both parts of a split. -/
theorem topDown_add_inj {m n : Nat} {v v' : Value} (h : topDown (m + n) v = topDown (m + n) v') :
    topDown m (v >>> n) = topDown m (v' >>> n) ∧ topDown n v = topDown n v' := by
  rw [topDown_add, topDown_add] at h
  exact List.append_inj h (by simp)

theorem topDown_mono {m n : Nat} (hmn : m ≤ n) {v v' : Value} (h : topDown n v = topDown n v') :
    topDown m v = topDown m v' :=
  (topDown_add_inj (m := n - m) (by rwa [Nat.sub_add_cancel hmn])).2

theorem readsLow_write8Fits (n : Nat) : ReadsLow write8Fits n := by
  intro v v' h
  funext w
  unfold write8Fits
  split
  · next h8 =>
    obtain ⟨rfl, -⟩ := h8
    rw [topDown_eight, topDown_eight] at h
    rw [emitWhole, emitWhole, bitsOfByte_inj h]
  · rw [pushDown_eq_pushBits, pushDown_eq_pushBits, h]

theorem readsLow_write8 (n : Nat) : ReadsLow write8 n := by
  intro v v' h
  funext w
  unfold write8
  simp only
  split
  · next hlt =>
    rw [← Nat.add_sub_cancel' hlt.le] at h
    obtain ⟨hhigh, hlow⟩ := topDown_add_inj h
    rw [readsLow_write8Fits _ _ _ hhigh, readsLow_write8Fits _ _ _ hlow]
  · rw [readsLow_write8Fits _ _ _ h]

theorem readsLow_decompose {width : Nat} {prim : Nat → Value → Writer → Micro Writer Unit} (hw : 0 < width)
    (hp : ∀ n ≤ width, ReadsLow prim n) (n : Nat) : ReadsLow (decompose width prim) n := by
  intro v v' h
  have chunks : ∀ q, topDown (width * q) v = topDown (width * q) v' →
      fullChunks width prim q v = fullChunks width prim q v' := by
    intro q
    induction q with
    | zero => exact fun _ => rfl
    | succ j ih =>
      intro hq
      rw [Nat.mul_succ, Nat.add_comm] at hq
      obtain ⟨hhigh, hlow⟩ := topDown_add_inj hq
      funext w
      rw [fullChunks, fullChunks, hp _ le_rfl _ _ hhigh, ih hlow]
  rw [← Nat.mod_add_div n width] at h
  obtain ⟨hhigh, hlow⟩ := topDown_add_inj h
  funext w
  simp only [decompose, hp _ (Nat.mod_lt _ hw).le _ _ hhigh, chunks _ hlow]

theorem readsLow_write16 (n : Nat) : ReadsLow write16 n :=
  readsLow_decompose (by decide) (fun n _ => readsLow_write8 n) n

theorem readsLow_writeIntUnsigned (n : Nat) : ReadsLow writeIntUnsigned n :=
  readsLow_decompose (by decide) (fun n _ => readsLow_write16 n) n

theorem readsLow_writeLongUnsigned (n : Nat) : ReadsLow writeLongUnsigned n :=
  readsLow_decompose (by decide) (fun n hn v v' h =>
    readsLow_writeIntUnsigned n _ _ (by rwa [topDown_lowField hn, topDown_lowField hn])) n

theorem readsLow_writeSigned {magnitude : Nat → Value → Writer → Micro Writer Unit} (hm : ∀ n, ReadsLow magnitude n)
    {n : Nat} (hn : 1 ≤ n) : ReadsLow (writeSigned magnitude) n := by
  intro v v' h
  rw [← Nat.add_sub_cancel' hn] at h
  obtain ⟨hsign, hlow⟩ := topDown_add_inj h
  funext w
  rw [writeSigned, writeSigned, readsLow_write8 1 _ _ hsign, hm _ _ _ hlow]

theorem readsLow_writeInt (unsigned : Bool) {n : Nat} (hn : 1 ≤ n) : ReadsLow (writeInt unsigned) n := by
  cases unsigned with
  | false => exact readsLow_writeSigned readsLow_writeIntUnsigned hn
  | true => exact readsLow_writeIntUnsigned n

theorem readsLow_writeLong (unsigned : Bool) {n : Nat} (hn : 1 ≤ n) : ReadsLow (writeLong unsigned) n := by
  cases unsigned with
  | false => exact readsLow_writeSigned readsLow_writeLongUnsigned hn
  | true => exact readsLow_writeLongUnsigned n

/-- The slice of `VALUE` a command takes has the low bits of the value (30_encoding.md R53). -/
theorem ReadsLow.of_operand {p : Nat → Value → Writer → Micro Writer Unit} {n k : Nat} (h : ReadsLow p n) (hk : n ≤ k)
    {v v' : Value} (hv : topDown n v = topDown n v') : p n (lowField k v) = p n (lowField k v') :=
  h _ _ (by rwa [topDown_lowField hk, topDown_lowField hk])

/-- A sized command does the same where its procedure does, for the sizes its gate passes. -/
theorem serveWriter_sized_congr {unsigned : Bool} {e size : Nat} {max : Int} {f g : Nat → Writer → Micro Writer Unit}
    (hmax : maxSize unsigned e = max) (h : 1 ≤ size → (size : Int) ≤ max → f size = g size) (s : State) :
    serveWriter (requireValidSize unsigned e size) (fun n w => (f n.toNat w).map fun _ => (0 : Value)) s
      = serveWriter (requireValidSize unsigned e size) (fun n w => (g n.toNat w).map fun _ => 0) s := by
  unfold serveWriter
  rcases requireValidSize_cases unsigned e size with ⟨hg, hlow, hhigh⟩ | ⟨hg, -⟩
  · simp only [hg, Int.toNat_natCast, h (by omega) (hmax ▸ hhigh)]
  · simp only [hg]

/-- Settles O32: each procedure reads only the low bits of its value, which the slice taken of `VALUE` keeps. -/
theorem writesReadOnlyLowBits : Obligations.WritesReadOnlyLowBits := by
  unfold Obligations.WritesReadOnlyLowBits
  intro s size unsigned v v' h
  obtain ⟨max8, max16, -⟩ := maxSize_values
  refine ⟨?_, ?_, ?_, ?_, ?_, fun hsize => ?_, fun hsize => ?_⟩
  · exact serveWriter_sized_congr (f := fun n => write8 n (operand8 v)) (g := fun n => write8 n (operand8 v')) max8
      (fun _ hn => (readsLow_write8 size).of_operand (by omega) h) s
  · exact serveWriter_sized_congr (f := fun n => write16 n (operand16 v)) (g := fun n => write16 n (operand16 v')) max16
      (fun _ hn => (readsLow_write16 size).of_operand (by omega) h) s
  · exact serveWriter_sized_congr (f := fun n => write16 n (operand16 v)) (g := fun n => write16 n (operand16 v')) max16
      (fun _ hn => (readsLow_write16 size).of_operand (by omega) h) s
  · exact serveWriter_sized_congr (f := fun n => writeInt unsigned n (operand32 v))
      (g := fun n => writeInt unsigned n (operand32 v')) (maxSize_int unsigned)
      (fun hlow hn => (readsLow_writeInt unsigned hlow).of_operand (by split at hn <;> omega) h) s
  · exact serveWriter_sized_congr (f := fun n => writeLong unsigned n v) (g := fun n => writeLong unsigned n v')
      (maxSize_long unsigned) (fun hlow _ => readsLow_writeLong unsigned hlow v v' h) s
  · simp only [exec, execWbool, operandBit, (readsLow_write8 1).of_operand le_rfl (topDown_mono hsize h)]
  · have hfloat : ReadsLow writeIntSigned 32 := readsLow_writeSigned readsLow_writeIntUnsigned (by decide)
    simp only [exec, execWfloat, operand32, hfloat.of_operand le_rfl (topDown_mono hsize h)]

end Sys2Proof.Machine
end

section
/-! ### The reader's procedures as the flat loop

Every procedure that reads pulls its bits one by one, the first most significant, but for dead cells
(44_reader_primitives.md R138). This is proved once for each procedure, by its own composition, and then for every
bit-consuming command with its result. -/

namespace Sys2Proof.Machine

/-! #### Flat procedures -/

/-- From `r` the procedure ends as the loop of `n` bits does, with this result of the value read
(44_reader_primitives.md R138). -/
def FlatRead {α : Type} (n : Nat) (f : Value → α) (r : Reader) (m : Micro Reader α) : Prop :=
  ReaderAlike m ((pullBits n 0 r).map f)

theorem readerAlike_refl {α : Type} (m : Micro Reader α) : ReaderAlike m m :=
  endsLike_refl Reader.sameButDead_refl Reader.sameTransactions_refl m

theorem readerAlike_trans {α : Type} {m n o : Micro Reader α} (h : ReaderAlike m n) (k : ReaderAlike n o) :
    ReaderAlike m o :=
  endsLike_trans (L := Reader.sameButDead) (T := Reader.sameTransactions) Reader.sameButDead_trans
    Reader.sameTransactions_trans h k

theorem flatRead_pullBits (n : Nat) (r : Reader) : FlatRead n id r (pullBits n 0 r) := by
  rw [FlatRead, Micro.map_id]
  exact readerAlike_refl _

theorem FlatRead.done {α : Type} {f : Value → α} {a : α} (h : f 0 = a) (r : Reader) : FlatRead 0 f r (.done a r) :=
  ⟨h.symm, r.sameButDead_refl⟩

theorem FlatRead.map {α β : Type} {n : Nat} {f : Value → α} {r : Reader} {m : Micro Reader α} (g : α → β)
    (h : FlatRead n f r m) : FlatRead n (g ∘ f) r (m.map g) := by
  have hmap : (pullBits n 0 r).map (g ∘ f) = ((pullBits n 0 r).map f).map g := by
    cases pullBits n 0 r <;> rfl
  rw [FlatRead, hmap]
  exact endsLike_map g h

/-- In sequence, two procedures pull the bits of the first and then those of the second, below them. -/
theorem FlatRead.bind {α β : Type} {k l : Nat} {f : Value → α} {F : Value → β} {r : Reader} {m : Micro Reader α}
    {h : α → Reader → Micro Reader β} (hm : FlatRead k f r m)
    (hf : ∀ (c : Value) x bits, bits.length = k → Pulled bits r x →
      FlatRead l (fun d => F ((c <<< l) ||| d)) x (h (f c) x)) :
    FlatRead (k + l) F r (m.bind h) := by
  rw [FlatRead] at hm
  rw [FlatRead, pullBits_add]
  cases hloop : pullBits k 0 r with
  | done c y =>
    rw [hloop] at hm
    match m, hm with
    | .done a x, ⟨ha, hxy⟩ =>
      subst ha
      obtain ⟨bits, hlen, -, p⟩ := pullBits_done hloop
      have hrest : (pullBits l c y).map F = (pullBits l 0 y).map fun d => F ((c <<< l) ||| d) := by
        rw [pullBits_shift]
        cases pullBits l 0 y <;> rfl
      rw [Micro.bind_done, Micro.bind_done, hrest]
      exact readerAlike_trans (hf c x bits hlen (pulled_sameButDead p hxy)) (endsLike_map _ (pullBits_alike l 0 hxy))
  | raised c y =>
    rw [hloop] at hm
    match m, hm with
    | .raised _ _, hm => exact hm
  | hung y =>
    rw [hloop] at hm
    match m, hm with
    | .hung _, hm => exact hm
  | overflow =>
    rw [hloop] at hm
    match m, hm with
    | .overflow, _ => trivial

/-- With a source that yields the bytes of the bits, a flat procedure runs to its end. -/
theorem FlatRead.yields {α : Type} {n : Nat} {f : Value → α} {r : Reader} {m : Micro Reader α} (h : FlatRead n f r m)
    (hy : r.yields n) : ∃ x, m = .done (f (accum 0 (r.upcoming.take n))) x ∧ Pulled (r.upcoming.take n) r x := by
  obtain ⟨y, hloop, p⟩ := pullBits_yields n 0 hy
  rw [FlatRead, hloop] at h
  match m, h with
  | .done a x, ⟨ha, hxy⟩ => exact ⟨x, congrArg (Micro.done · x) ha, pulled_sameButDead p hxy⟩

/-- `PullBit` leaves the spec only at the last bit of the last byte that can be counted, as `pullBit_overflow` says. -/
theorem not_countFits_of_pullBit_overflow {r : Reader} (h : pullBit r = .overflow) : ¬ r.countFits 1 := by
  rw [pullBit_eq, fetchByte] at h
  split at h
  · next h0 =>
    rcases srcNext_cases r with ⟨b, rest, -, hnext⟩ | ⟨-, ⟨c, rest, -, hnext⟩ | ⟨-, hnext⟩⟩
    · simp [hnext, consumeBit, h0] at h
    · simp [hnext] at h
    · simp [hnext] at h
  · rw [Micro.bind_done, consumeBit] at h
    split at h
    · cases h
    · rcases countRead_cases { r with bitIndex := 0 } with ⟨-, hcount⟩ | ⟨hfull, -⟩
      · rw [hcount] at h; cases h
      · simp only [UnitState.countFits, UnitState.completes] at hfull ⊢
        omega

/-- The loop leaves the spec only where its bits complete more bytes than can be counted (10_state.md R14, R17, U6). -/
theorem pullBits_overflow {n : Nat} {v : Value} {r : Reader} (h : pullBits n v r = .overflow) : ¬ r.countFits n := by
  induction n generalizing v r with
  | zero => cases h
  | succ k ih =>
    simp only [pullBits] at h
    simp only [UnitState.countFits, Nat.add_comm k 1]
    cases hb : pullBit r with
    | done a x =>
      rw [hb] at h
      have p := pullBit_done hb
      have hc := pulled_completes_add p k
      have hcount := p.count
      have := ih h
      simp only [UnitState.countFits, List.length_singleton] at *
      omega
    | overflow =>
      have := not_countFits_of_pullBit_overflow hb
      simp only [UnitState.countFits, UnitState.completes] at *
      omega
    | raised c y => rw [hb] at h; cases h
    | hung y => rw [hb] at h; cases h

theorem FlatRead.overflow {α : Type} {n : Nat} {f : Value → α} {r : Reader} (h : FlatRead n f r .overflow) :
    ¬ r.countFits n := by
  apply pullBits_overflow (v := 0)
  rw [FlatRead] at h
  cases hm : pullBits n 0 r with
  | overflow => rfl
  | done _ y => rw [hm] at h; exact h.elim
  | raised c y => rw [hm] at h; exact h.elim
  | hung y => rw [hm] at h; exact h.elim

/-! #### The procedures -/

/-- The bits consumed determine the reader but for dead cells. -/
theorem pulled_unique {bits : List Bool} {r x y : Reader} (p : Pulled bits r x) (q : Pulled bits r y) :
    x.sameButDead y := by
  have hsource := p.source.trans q.source.symm
  have hup := List.append_cancel_left (p.upcoming.symm.trans q.upcoming)
  rw [Reader.upcoming, Reader.upcoming, hsource] at hup
  exact {
    unconsumed := List.append_cancel_right hup
    index := BitVec.eq_of_toNat_eq (p.index.trans q.index.symm)
    count := BitVec.eq_of_toNat_eq (p.count.trans q.count.symm)
    taken := p.taken.trans q.taken.symm
    source := hsource
    fault := p.fault.trans q.fault.symm
    busy := p.busy.trans q.busy.symm
    draws := p.draws.trans q.draws.symm
    responses := p.responses.trans q.responses.symm }

/-- On a byte boundary, eight bits pulled are the byte the fast path takes (44_reader_primitives.md R131, R133). -/
theorem flatRead_takeWhole {r : Reader} (h0 : r.bitIndex = 0) : FlatRead 8 id r (takeWhole r) := by
  rw [FlatRead, Micro.map_id]
  have hfetch : pullBits 8 0 r = ((srcNext r).bind fun b x => .done () { x with pendingBits := cellsOfByte b }).bind
      fun _ x => (consumeBit x).bind fun b y => pullBits 7 (((0 : Value) <<< 1) ||| bitValue b) y := by
    rw [pullBits, pullBit_eq, fetchByte, if_pos h0, Micro.bind_assoc]
  unfold takeWhole
  rcases srcNext_cases r with ⟨b, rest, hs, hnext⟩ | ⟨-, ⟨c, rest, -, hnext⟩ | ⟨-, hnext⟩⟩
  · have hup : r.upcoming = bitsOfByte b ++ bitsOfBytes (sourceBytes rest) := by
      simp [Reader.upcoming, Reader.unconsumed, h0, hs, sourceBytes]
    have hlen : ∀ n ≤ 8, n ≤ r.upcoming.length := fun n hn => by simp [hup]; omega
    have hc : r.completes 7 = 0 ∧ r.completes 8 = 1 := by simp [UnitState.completes, h0]
    rw [hnext, Micro.bind_done]
    rcases countRead_cases { r with taken := r.taken ++ [b], source := rest } with ⟨hfits, hcount⟩ | ⟨hfull, hcount⟩
    · have hy : r.yields 8 := ⟨hlen 8 le_rfl, by simpa only [UnitState.countFits, hc] using hfits⟩
      obtain ⟨y, hloop, p⟩ := pullBits_yields 8 0 hy
      rw [hup, List.take_left' (bitsOfByte_length b)] at hloop p
      rw [hcount, hloop]
      exact ⟨(accum_byte b).symm, pulled_unique (pulled_takeWhole h0 hs hfits) p⟩
    · have hy : r.yields 7 := ⟨hlen 7 (by decide), by simp only [UnitState.countFits, hc]; exact r.byteCount.isLt⟩
      obtain ⟨y, hloop, p⟩ := pullBits_yields 7 0 hy
      have hlast : ¬ y.countFits 1 := by
        have hi := p.index
        have hc' := p.count
        simp only [List.length_take_of_le hy.1, h0, hc] at hi hc'
        simp only [UnitState.countFits, UnitState.completes, hi, hc']
        simp only at hfull
        simp [hfull]
      rw [hcount, pullBits_add 7 1, hloop, Micro.bind_done, pullBits, pullBit_overflow hlast]
      trivial
  · rw [hfetch, hnext]
    exact readerAlike_refl _
  · rw [hfetch, hnext]
    exact readerAlike_refl _

theorem flatRead_read8Fits (size : Nat) (r : Reader) : FlatRead size id r (read8Fits size r) := by
  unfold read8Fits
  split
  · next h => rw [h.1]; exact flatRead_takeWhole h.2
  · exact flatRead_pullBits size r

theorem flatRead_read8 (size : Nat) (r : Reader) : FlatRead size id r (read8 size r) := by
  unfold read8
  simp only
  split
  · next h =>
    conv => arg 1; rw [← Nat.add_sub_cancel' h.le]
    exact (flatRead_read8Fits _ r).bind fun c x _ _ _ => (flatRead_read8Fits _ x).map _
  · exact flatRead_read8Fits size r

/-- A recomposition pulls its bits where its chunks pull theirs (44_reader_primitives.md R136, R138). -/
theorem flatRead_recompose {width : Nat} {prim : Nat → Reader → Micro Reader Value}
    (hp : ∀ n r, FlatRead n id r (prim n r)) (size : Nat) (r : Reader) :
    FlatRead size id r (recompose width prim size r) := by
  have chunks : ∀ q (v : Value) r,
      FlatRead (width * q) (fun d => (v <<< (width * q)) ||| d) r (joinChunks width prim q v r) := by
    intro q
    induction q with
    | zero => exact fun v r => FlatRead.done (by simp) r
    | succ j ih =>
      intro v r
      rw [Nat.mul_succ, Nat.add_comm]
      refine (hp width r).bind fun c x _ _ _ => ?_
      have hjoin : ∀ d, (v <<< (width + width * j)) ||| ((c <<< (width * j)) ||| d)
          = (((v <<< width) ||| c) <<< (width * j)) ||| d := fun d => by
        rw [BitVec.shiftLeft_or_distrib, ← BitVec.shiftLeft_add, BitVec.or_assoc]
      simp only [hjoin]
      exact ih _ x
  have hsize : size = size % width + width * (size / width) := (Nat.mod_add_div size width).symm
  unfold recompose
  simp only
  split
  · conv => arg 1; rw [hsize]
    exact (hp _ r).bind fun c x _ _ _ => chunks _ c x
  · conv => arg 1; rw [hsize, show size % width = 0 by omega, Nat.zero_add]
    have hzero : (fun d : Value => ((0 : Value) <<< (width * (size / width))) ||| d) = id := by
      funext d
      simp
    exact hzero ▸ chunks _ 0 r

theorem flatRead_read16 (size : Nat) (r : Reader) : FlatRead size id r (read16 size r) :=
  flatRead_recompose flatRead_read8 size r

theorem flatRead_readIntUnsigned (size : Nat) (r : Reader) : FlatRead size id r (readIntUnsigned size r) :=
  flatRead_recompose flatRead_read16 size r

theorem flatRead_readLongUnsigned (size : Nat) (r : Reader) : FlatRead size id r (readLongUnsigned size r) :=
  flatRead_recompose flatRead_readIntUnsigned size r

/-- The sign bit, then the magnitude below it (45_reader_values.md R151, R154). -/
theorem flatRead_readSigned {magnitude : Nat → Reader → Micro Reader Value}
    (hm : ∀ n r, FlatRead n id r (magnitude n r)) {size : Nat} (hs : 1 ≤ size) (r : Reader) :
    FlatRead size id r (readSigned magnitude size r) := by
  conv => arg 1; rw [← Nat.add_sub_cancel' hs]
  refine (flatRead_read8 1 r).bind fun c x _ _ _ => ?_
  split
  · exact (hm _ x).map _
  · next h =>
    rw [show size - 1 = 0 by omega]
    exact FlatRead.done (by simp) x

theorem flatRead_readIntSigned {size : Nat} (hs : 1 ≤ size) (r : Reader) :
    FlatRead size id r (readIntSigned size r) :=
  flatRead_readSigned flatRead_readIntUnsigned hs r

theorem flatRead_readLongSigned {size : Nat} (hs : 1 ≤ size) (r : Reader) :
    FlatRead size id r (readLongSigned size r) :=
  flatRead_readSigned flatRead_readLongUnsigned hs r

theorem flatRead_iff_alike_pullBits {n : Nat} {r : Reader} {m : Micro Reader Value} :
    FlatRead n id r m ↔ ReaderAlike m (pullBits n 0 r) := by
  rw [FlatRead, Micro.map_id]

/-- Settles O36: each procedure is flat by its own composition of flat parts. -/
theorem readProceduresAreFlat : Obligations.ReadProceduresAreFlat := by
  unfold Obligations.ReadProceduresAreFlat
  intro size r hs
  exact ⟨fun _ => flatRead_iff_alike_pullBits.mp (flatRead_read8 size r),
    fun _ => flatRead_iff_alike_pullBits.mp (flatRead_read16 size r),
    fun _ => ⟨flatRead_iff_alike_pullBits.mp (flatRead_readIntUnsigned size r),
      flatRead_iff_alike_pullBits.mp (flatRead_readIntSigned hs r)⟩,
    fun _ => ⟨flatRead_iff_alike_pullBits.mp (flatRead_readLongUnsigned size r),
      flatRead_iff_alike_pullBits.mp (flatRead_readLongSigned hs r)⟩⟩

/-! #### The sign of a read, and alignment -/

/-- What `RINT` and `RLONG` make of the bits read: an unsigned read keeps them (45_reader_values.md R160). -/
def extended (unsigned : Bool) (n : Nat) (v : Value) : Value := if unsigned then v else signExtendFrom n v

theorem flatRead_readInt (unsigned : Bool) {size : Nat} (hs : 1 ≤ size) (r : Reader) :
    FlatRead size (extended unsigned size) r (readInt unsigned size r) := by
  cases unsigned with
  | false => exact (flatRead_readIntSigned hs r).map _
  | true => exact flatRead_readIntUnsigned size r

theorem flatRead_readLong (unsigned : Bool) {size : Nat} (hs : 1 ≤ size) (r : Reader) :
    FlatRead size (extended unsigned size) r (readLong unsigned size r) := by
  cases unsigned with
  | false => exact (flatRead_readLongSigned hs r).map _
  | true => exact flatRead_readLongUnsigned size r

theorem flatRead_skipBytes {n : Nat} (hn : 0 < n) {rounds : Nat} {r : Reader}
    (h : padsFor n r.byteCount.toNat ≤ rounds) (v : Value) :
    FlatRead (8 * padsFor n r.byteCount.toNat) (fun _ => v + BitVec.ofNat 64 (8 * padsFor n r.byteCount.toNat)) r
      (skipBytes n rounds v r) := by
  induction rounds generalizing r v with
  | zero =>
    rw [Nat.le_zero.mp h]
    exact FlatRead.done (by simp) r
  | succ k ih =>
    unfold skipBytes
    split
    · next hm =>
      rw [padsFor_aligned hm]
      exact FlatRead.done (by simp) r
    · next hm =>
      have hpads := padsFor_unaligned hn hm
      rw [hpads, Nat.mul_succ, Nat.add_comm, BitVec.ofNat_add, ← BitVec.add_assoc]
      refine (flatRead_read8 8 r).bind fun c x bits hlen p => ?_
      have hcount := pulled_count_succ p (by omega) (by omega)
      rw [← hcount]
      exact ih (by rw [hcount]; omega) _

theorem flatRead_alignReader {n : Nat} (hn : 0 < n) (r : Reader) :
    FlatRead (r.alignBits n) (fun _ => BitVec.ofNat 64 (r.alignBits n)) r (alignReader n r) := by
  rw [alignBits_eq, UnitState.loaded]
  unfold alignReader
  split
  · next hi =>
    rw [BitVec.ofNat_add]
    refine (flatRead_read8 _ r).bind fun c x bits hlen p => ?_
    have hcount := pulled_count_succ p (by omega) (by omega)
    rw [← hcount]
    exact flatRead_skipBytes hn (padsFor_le hn _) _
  · next hi =>
    simpa using flatRead_skipBytes hn (padsFor_le hn _) 0

/-! #### The commands -/

/-- What a bit-consuming command answers of the value read: its sign extension, or, for an alignment, how many bits it
consumed (45_reader_values.md R160, 46_reader_align_status.md R170). -/
def readResult (u : UnitState) : Instr → Value → Value
  | .rint unsigned n, v => extended unsigned n.toNat v
  | .rlong unsigned n, v => extended unsigned n.toNat v
  | .ralign n, _ => BitVec.ofNat 64 (u.alignBits n.toNat)
  | _, v => v

/-- A sized read of a ready unit whose size is legal runs its procedure. -/
theorem serveReader_sized_flat {s : State} {unsigned : Bool} {e k : Nat} {max n : Int} {f : Value → Value}
    {body : Int → Reader → Micro Reader Value} (hr : s.r.ready) (hmax : maxSize unsigned e = max)
    (hk : (if 1 ≤ n ∧ n ≤ max then some n.toNat else none) = some k)
    (hbody : 1 ≤ n → FlatRead n.toNat f s.r (body n s.r)) :
    ∃ m, serveReader (requireValidSize unsigned e n) body s = finishReader s m ∧ FlatRead k f s.r m := by
  obtain ⟨⟨hlow, hhigh⟩, hsize⟩ := Option.ite_none_right_eq_some.mp hk
  obtain rfl := Option.some.inj hsize
  exact ⟨_, serveReader_ready hr (requireValidSize_ok ⟨hlow, hmax ▸ hhigh⟩) body, hbody hlow⟩

/-- Every bit-consuming command of a ready unit ends as the loop over its bits, with its result. -/
theorem exec_flatRead {i : Instr} {s : State} {k : Nat} (hr : s.r.ready)
    (hk : consumedSize s.r.toUnitState i = some k) :
    ∃ m : Micro Reader Value, exec i s = finishReader s m ∧ FlatRead k (readResult s.r.toUnitState i) s.r m := by
  obtain ⟨max8, max16, -⟩ := maxSize_values
  cases i with
  | r8 n =>
    simp only [exec, execR8]
    exact serveReader_sized_flat hr max8 hk fun _ => flatRead_read8 _ _
  | r16 n =>
    simp only [exec, execR16]
    exact serveReader_sized_flat hr max16 hk fun _ => flatRead_read16 _ _
  | rchar n =>
    simp only [exec, execRchar]
    exact serveReader_sized_flat hr max16 hk fun _ => flatRead_read16 _ _
  | rint unsigned n =>
    simp only [exec, execRint]
    exact serveReader_sized_flat hr (maxSize_int unsigned) hk fun hlow => flatRead_readInt unsigned (by omega) _
  | rlong unsigned n =>
    simp only [exec, execRlong]
    exact serveReader_sized_flat hr (maxSize_long unsigned) hk fun hlow => flatRead_readLong unsigned (by omega) _
  | rbool =>
    simp only [exec, execRbool]
    obtain rfl := Option.some.inj hk
    exact ⟨_, serveReader_ready (g := noGate) hr rfl _, flatRead_read8 1 _⟩
  | rfloat =>
    simp only [exec, execRfloat]
    obtain rfl := Option.some.inj hk
    exact ⟨_, serveReader_ready (g := noGate) hr rfl _, flatRead_readIntSigned (by decide) _⟩
  | rdouble =>
    simp only [exec, execRdouble]
    obtain rfl := Option.some.inj hk
    exact ⟨_, serveReader_ready (g := noGate) hr rfl _, flatRead_readLongSigned (by decide) _⟩
  | ralign n =>
    simp only [exec, execRalign]
    obtain ⟨hn, hbits⟩ := Option.ite_none_right_eq_some.mp hk
    obtain rfl := Option.some.inj hbits
    exact ⟨_, serveReader_ready hr (requirePositive_ok hn) _, flatRead_alignReader (by omega) _⟩
  | _ => cases hk

end Sys2Proof.Machine
end

section
/-! ### What the reading commands do

With a source that yields the bytes needed, a bit-consuming command consumes its bits and answers them
(44_reader_primitives.md R138); where the source has too few bytes it raises, or waits. -/

namespace Sys2Proof.Machine

/-! #### With a yielding source -/

/-- A bit-consuming command of a ready unit with a yielding source consumes its bits and answers its result of them. -/
theorem exec_consumes_value {i : Instr} {s : State} {n : Nat} (hr : s.r.ready)
    (hn : consumedSize s.r.toUnitState i = some n) (hy : s.r.yields n) :
    ∃ t, exec i s = .next t
      ∧ Consumed n (readResult s.r.toUnitState i (accum 0 (s.r.upcoming.take n))) s t := by
  obtain ⟨m, hexec, hm⟩ := exec_flatRead hr hn
  obtain ⟨x, rfl, p⟩ := hm.yields hy
  obtain ⟨t, ht, hc⟩ := finishReader_consumed p (readResult s.r.toUnitState i (accum 0 (s.r.upcoming.take n)))
  rw [List.length_take_of_le hy.1] at hc
  exact ⟨t, hexec.trans ht, hc⟩

/-- A command that answers the bits it reads answers the number they spell. -/
theorem exec_consumes_number {i : Instr} {s : State} {n : Nat} (hr : s.r.ready) (hy : s.r.yields n)
    (hn : consumedSize s.r.toUnitState i = some n) (hres : ∀ v, readResult s.r.toUnitState i v = v) :
    ∃ t, exec i s = .next t ∧ Consumed n (BitVec.ofNat 64 (bitsToNat (s.r.upcoming.take n))) s t := by
  obtain ⟨t, ht, hc⟩ := exec_consumes_value hr hn hy
  rw [hres, accum_toNat] at hc
  exact ⟨t, ht, hc⟩

/-- Settles O37: the three commands read `size` bits where the size passes their gate. -/
theorem primitiveReadsConsume : Obligations.PrimitiveReadsConsume := by
  unfold Obligations.PrimitiveReadsConsume
  intro s size hr hlow hy
  refine ⟨fun hhigh => ?_, fun hhigh => ?_, fun hhigh => ?_⟩
  · exact exec_consumes_number hr hy (by simp only [consumedSize]; rw [if_pos (by omega), Int.toNat_natCast])
      fun _ => rfl
  · exact exec_consumes_number hr hy (by simp only [consumedSize]; rw [if_pos (by omega), Int.toNat_natCast])
      fun _ => rfl
  · exact exec_consumes_number hr hy (by simp only [consumedSize]; rw [if_pos (by omega), Int.toNat_natCast])
      fun _ => rfl

/-- Extending keeps the bits read and fills the ones above with 0 or with the first bit read (45_reader_values.md
R160). -/
theorem extended_getLsbD (unsigned : Bool) {n k : Nat} (hn : 1 ≤ n) (hn' : n ≤ 64) (hk : k < 64) {v : Value}
    (hv : ∀ j, n ≤ j → v.getLsbD j = false) :
    (extended unsigned n v).getLsbD k = if k < n then v.getLsbD k else (!unsigned && v.getLsbD (n - 1)) := by
  cases unsigned with
  | false => simpa [extended] using signExtendFrom_getLsbD n k v hn hn' hk
  | true =>
    simp only [extended, if_true, Bool.not_true, Bool.false_and]
    split
    · rfl
    · next h => exact hv k (by omega)

/-- The value read, extended, has the bits read below and its sign above. -/
theorem extended_accum (unsigned : Bool) {bits : List Bool} (hn : 1 ≤ bits.length) (hn' : bits.length ≤ 64) :
    topDown bits.length (extended unsigned bits.length (accum 0 bits)) = bits
      ∧ ∀ k, bits.length ≤ k → k < 64 → (extended unsigned bits.length (accum 0 bits)).getLsbD k
        = (!unsigned && (extended unsigned bits.length (accum 0 bits)).getLsbD (bits.length - 1)) := by
  have hbit : ∀ k < 64, (extended unsigned bits.length (accum 0 bits)).getLsbD k
      = if k < bits.length then (accum 0 bits).getLsbD k else (!unsigned && (accum 0 bits).getLsbD (bits.length - 1)) :=
    fun k hk => extended_getLsbD unsigned hn hn' hk (accum_high bits)
  constructor
  · refine (topDown_congr fun k hk => ?_).trans (topDown_accum 0 bits hn')
    rw [hbit k (by omega), if_pos hk]
  · intro k hk hk'
    rw [hbit k hk', if_neg (by omega), hbit (bits.length - 1) (by omega), if_pos (by omega)]

/-- A sized integer read answers its bits, extended. -/
theorem exec_consumes_extended {i : Instr} {s : State} {unsigned : Bool} {size : Nat} (hr : s.r.ready)
    (hlow : 1 ≤ size) (hhigh : size ≤ 64) (hy : s.r.yields size) (hn : consumedSize s.r.toUnitState i = some size)
    (hres : ∀ v, readResult s.r.toUnitState i v = extended unsigned size v) :
    ∃ t v, exec i s = .next t ∧ Consumed size v s t ∧ topDown size v = s.r.upcoming.take size
      ∧ ∀ k, size ≤ k → k < 64 → v.getLsbD k = (!unsigned && v.getLsbD (size - 1)) := by
  obtain ⟨t, ht, hc⟩ := exec_consumes_value hr hn hy
  have hlen : (s.r.upcoming.take size).length = size := List.length_take_of_le hy.1
  have hext := extended_accum unsigned (bits := s.r.upcoming.take size) (by omega) (by omega)
  rw [hlen] at hext
  rw [hres] at hc
  exact ⟨t, _, ht, hc, hext⟩

/-- Settles O38: both commands read `size` bits where the size passes their gate, and extend them by `U`. -/
theorem integerReadsConsume : Obligations.IntegerReadsConsume := by
  unfold Obligations.IntegerReadsConsume
  intro s unsigned size hr hlow hy
  have hint : (if unsigned then 32 else 31) ≤ 64 := by cases unsigned <;> decide
  have hlong : (if unsigned then 64 else 63) ≤ 64 := by cases unsigned <;> decide
  refine ⟨fun hhigh => ?_, fun hhigh => ?_⟩
  · refine exec_consumes_extended hr hlow (hhigh.trans hint) hy ?_ fun v => ?_
    · simp only [consumedSize]
      rw [if_pos (by cases unsigned <;> simp at hhigh ⊢ <;> omega), Int.toNat_natCast]
    · simp only [readResult, Int.toNat_natCast]
  · refine exec_consumes_extended hr hlow (hhigh.trans hlong) hy ?_ fun v => ?_
    · simp only [consumedSize]
      rw [if_pos (by cases unsigned <;> simp at hhigh ⊢ <;> omega), Int.toNat_natCast]
    · simp only [readResult, Int.toNat_natCast]

/-- `RBOOL` answers the next bit as 0 or 1. -/
theorem exec_rbool {s : State} {b : Bool} {rest : List Bool} (hr : s.r.ready) (hup : s.r.upcoming = b :: rest)
    (hfits : s.r.countFits 1) : ∃ t, exec .rbool s = .next t ∧ Consumed 1 (if b then 1 else 0) s t := by
  obtain ⟨t, ht, hc⟩ := exec_consumes_value (i := .rbool) hr rfl ⟨by simp [hup], hfits⟩
  rw [hup] at hc
  exact ⟨t, ht, by cases b <;> exact hc⟩

/-- Settles O39: the three commands have no gate and read 1, 32 and 64 bits. -/
theorem typedReadsConsume : Obligations.TypedReadsConsume := by
  unfold Obligations.TypedReadsConsume
  intro s hr
  refine ⟨fun hy => ?_, fun hy => exec_consumes_number hr hy rfl fun _ => rfl,
    fun hy => exec_consumes_number hr hy rfl fun _ => rfl⟩
  obtain ⟨b, rest, hup⟩ := List.exists_cons_of_length_pos hy.1
  obtain ⟨t, ht, hc⟩ := exec_rbool hr hup hy.2
  exact ⟨t, b, rest, ht, hup, hc⟩

/-! #### With too few bytes -/

/-- Settles O43: a source without listed replies ends the command as an end of data does. -/
theorem unlistedReplyEndsRead : Obligations.UnlistedReplyEndsRead := by
  unfold Obligations.UnlistedReplyEndsRead
  intro s i n bs hr hn hshort hfits hsource
  exact exec_starved (tail := []) hr hn hshort hfits (by rw [hsource, List.append_nil]) rfl rfl

/-- Settles O44: a bit-consuming command ends as a procedure that consumes its bits, and such a procedure waits at the
first fetch the source never answers. -/
theorem silentSourceKeepsUnitBusy : Obligations.SilentSourceKeepsUnitBusy := by
  unfold Obligations.SilentSourceKeepsUnitBusy
  intro s i n bs later hr hn hshort hfits hsource
  have hbs : sourceBytes s.r.source = bs := hsource ▸ sourceBytes_map bs _ rfl
  have hend : sourceEnd s.r.source = none := by rw [hsource, sourceEnd_map]; rfl
  obtain ⟨m, hexec, hm⟩ := exec_consumes hr hn
  obtain ⟨x, hx, ⟨c, -, hc⟩ | ⟨rfl, -⟩⟩ := hm.starves (hbs ▸ hshort) (hbs ▸ hfits)
  · rw [hend] at hc
    cases hc
  · exact ⟨_, hexec, rfl, hx.fault.trans hr.2, hx.responses, hx.taken.trans (by rw [hbs]), rfl, rfl⟩

end Sys2Proof.Machine
end

section
/-! ### Where a step is refused, and what one unit writes and the other reads

A procedure leaves the spec only where its bits complete a byte that cannot be counted (10_state.md R14, U6). What `BW`
wrote, `BR` reads back (45_reader_values.md R160, 47_object_boundary.md R182, R184). -/

namespace Sys2Proof.Machine

/-! #### Refused steps -/

theorem not_of_ite_none {p : Prop} [Decidable p] {α : Type} {a : α} (h : (if p then some a else none) = none) : ¬p := by
  intro hp
  rw [if_pos hp] at h
  cases h

theorem exec_writer_of_not_ready {i : Instr} {s : State} (hu : i.unit = .bw) (h : ¬ s.w.ready) :
    ∃ t, exec i s = .next t := by
  cases exec_writer_form hu with
  | reads hi register hexec =>
    rw [hexec, readWriter]
    split <;> exact ⟨_, rfl⟩
  | serves hi gate body hexec =>
    rw [hexec]
    rcases serveWriter_cases gate body s with ⟨-, hx⟩ | ⟨-, -, hx⟩ | ⟨hr, -⟩
    · exact ⟨_, hx⟩
    · exact ⟨_, hx⟩
    · exact absurd hr h

theorem exec_reader_of_not_ready {i : Instr} {s : State} (hu : i.unit = .br) (h : ¬ s.r.ready) :
    ∃ t, exec i s = .next t := by
  cases exec_reader_form hu with
  | reads hi register hexec =>
    rw [hexec, readReader]
    split <;> exact ⟨_, rfl⟩
  | serves hi gate body hexec =>
    rw [hexec]
    rcases serveReader_cases gate body s with ⟨-, hx⟩ | ⟨-, -, hx⟩ | ⟨hr, -⟩
    · exact ⟨_, hx⟩
    · exact ⟨_, hx⟩
    · exact absurd hr h

/-- A command of `BW` that writes no bit, or whose operand its gate refuses, answers (30_encoding.md R61). -/
theorem exec_writer_of_no_bits {i : Instr} {s : State} (hu : i.unit = .bw) (hr : s.w.ready)
    (hb : writtenBits s.w.toUnitState i = none) : ∃ t, exec i s = .next t := by
  obtain ⟨max8, max16, -⟩ := maxSize_values
  have invalid {unsigned : Bool} {e : Nat} {max n : Int} {bits : List Bool} (hmax : maxSize unsigned e = max)
      (h : (if 1 ≤ n ∧ n ≤ max then some bits else none) = none) (body : Int → Writer → Micro Writer Value) :
      ∃ t, serveWriter (requireValidSize unsigned e n) body s = .next t :=
    (serveWriter_invalid hr (requireValidSize_invalid hmax (not_of_ite_none h)) rfl body).imp fun _ ht => ht.1
  cases i with
  | w8 n v => simp only [exec, execW8]; exact invalid max8 hb _
  | w16 n v => simp only [exec, execW16]; exact invalid max16 hb _
  | wchar n v => simp only [exec, execWchar]; exact invalid max16 hb _
  | wint unsigned n v => simp only [exec, execWint]; exact invalid (maxSize_int unsigned) hb _
  | wlong unsigned n v => simp only [exec, execWlong]; exact invalid (maxSize_long unsigned) hb _
  | walign n =>
    have hn : n ≤ 0 := by have := not_of_ite_none hb; omega
    exact (serveWriter_invalid hr (requirePositive_invalid hn) rfl _).imp fun _ ht => ht.1
  | wcount => exact (writerStatusReads s hr.1).1.imp fun _ ht => ht.1
  | windex => exact (writerStatusReads s hr.1).2.1.imp fun _ ht => ht.1
  | wstatus => exact (writerStatusReads s hr.1).2.2.imp fun _ ht => ht.1
  | wbool | wfloat | wdouble => cases hb
  | _ => simp only [Instr.unit, Instr.opcode] at hu; exact absurd hu (by decide)

/-- A command of `BR` that consumes no bit, or whose operand its gate refuses, answers (30_encoding.md R61). -/
theorem exec_reader_of_no_bits {i : Instr} {s : State} (hu : i.unit = .br) (hr : s.r.ready)
    (hb : consumedSize s.r.toUnitState i = none) : ∃ t, exec i s = .next t := by
  obtain ⟨max8, max16, -⟩ := maxSize_values
  have invalid {unsigned : Bool} {e k : Nat} {max n : Int} (hmax : maxSize unsigned e = max)
      (h : (if 1 ≤ n ∧ n ≤ max then some k else none) = none) (body : Int → Reader → Micro Reader Value) :
      ∃ t, serveReader (requireValidSize unsigned e n) body s = .next t :=
    (serveReader_invalid hr (requireValidSize_invalid hmax (not_of_ite_none h)) rfl body).imp fun _ ht => ht.1
  cases i with
  | r8 n => exact invalid max8 hb _
  | r16 n => exact invalid max16 hb _
  | rchar n => exact invalid max16 hb _
  | rint unsigned n => exact invalid (maxSize_int unsigned) hb _
  | rlong unsigned n => exact invalid (maxSize_long unsigned) hb _
  | ralign n =>
    have hn : n ≤ 0 := by have := not_of_ite_none hb; omega
    exact (serveReader_invalid hr (requirePositive_invalid hn) rfl _).imp fun _ ht => ht.1
  | rcount => exact (readerStatusReads s hr.1).1.imp fun _ ht => ht.1
  | rindex => exact (readerStatusReads s hr.1).2.1.imp fun _ ht => ht.1
  | rstatus => exact (readerStatusReads s hr.1).2.2.imp fun _ ht => ht.1
  | rbool | rfloat | rdouble => cases hb
  | _ => simp only [Instr.unit, Instr.opcode] at hu; exact absurd hu (by decide)

/-- A command of `BW` answers, or its bits complete a byte that cannot be counted (10_state.md R14, U6). -/
theorem exec_writer_next_or_overflow {i : Instr} (s : State) (hu : i.unit = .bw) :
    (∃ t, exec i s = .next t)
    ∨ exec i s = .refused .byteCountOverflow ∧ s.w.ready
      ∧ ∃ bits, writtenBits s.w.toUnitState i = some bits ∧ ¬ s.w.countFits bits.length := by
  by_cases hr : s.w.ready
  · cases hb : writtenBits s.w.toUnitState i with
    | none => exact .inl (exec_writer_of_no_bits hu hr hb)
    | some bits =>
      obtain ⟨m, hexec, hm⟩ := exec_flat hr hb
      rw [hexec]
      cases m with
      | done v x => exact .inl ⟨_, rfl⟩
      | raised c x => exact .inl ⟨_, rfl⟩
      | hung x => exact .inl ⟨_, rfl⟩
      | overflow => exact .inr ⟨rfl, hr, bits, rfl, hm.overflow⟩
  · exact .inl (exec_writer_of_not_ready hu hr)

/-- A command of `BR` answers, or its bits complete a byte that cannot be counted (10_state.md R14, R17, U6). -/
theorem exec_reader_next_or_overflow {i : Instr} (s : State) (hu : i.unit = .br) :
    (∃ t, exec i s = .next t)
    ∨ exec i s = .refused .byteCountOverflow ∧ s.r.ready
      ∧ ∃ n, consumedSize s.r.toUnitState i = some n ∧ ¬ s.r.countFits n := by
  by_cases hr : s.r.ready
  · cases hb : consumedSize s.r.toUnitState i with
    | none => exact .inl (exec_reader_of_no_bits hu hr hb)
    | some n =>
      obtain ⟨m, hexec, hm⟩ := exec_flatRead hr hb
      rw [hexec]
      cases m with
      | done v x => exact .inl ⟨_, rfl⟩
      | raised c x => exact .inl ⟨_, rfl⟩
      | hung x => exact .inl ⟨_, rfl⟩
      | overflow => exact .inr ⟨rfl, hr, n, rfl, hm.overflow⟩
  · exact .inl (exec_reader_of_not_ready hu hr)

/-- Settles O20: a reset is refused inside a command only, a command where its bits overrun the count only. -/
theorem stepStopsOnlyOutsideTheSpec : Obligations.StepStopsOnlyOutsideTheSpec := by
  unfold Obligations.StepStopsOnlyOutsideTheSpec
  intro s
  rcases step_cases s with ⟨-, hstep⟩ | ⟨i, u, word, rest, hh, hd, hu, hstep⟩ | ⟨u, word, rest, e, -, -, hstep⟩
    | ⟨u, rest, hh, hstep⟩
  · exact .inl ⟨s, hstep⟩
  · rw [hstep]
    cases u with
    | bw =>
      refine (exec_writer_next_or_overflow { s with host := rest } hu).imp_right fun ⟨hexec, hr, bits, hb, hfull⟩ =>
        .inr ⟨hexec, .inl ⟨word, rest, i, bits, hh, hd, hr, hb, Nat.not_lt.mp hfull⟩⟩
    | br =>
      refine (exec_reader_next_or_overflow { s with host := rest } hu).imp_right fun ⟨hexec, hr, n, hn, hfull⟩ =>
        .inr ⟨hexec, .inr ⟨word, rest, i, n, hh, hd, hr, hn, Nat.not_lt.mp hfull⟩⟩
  · rw [hstep]
    cases u <;> exact .inl ⟨_, rfl⟩
  · rw [hstep]
    cases u with
    | bw =>
      rcases (resetUnit_cases { s with host := rest }).1 with ⟨hb, hx⟩ | ⟨-, hx⟩
      · exact .inr (.inl ⟨hx, .inl ⟨hb, rest, hh⟩⟩)
      · exact .inl ⟨_, hx⟩
    | br =>
      rcases (resetUnit_cases { s with host := rest }).2 with ⟨hb, hx⟩ | ⟨-, hx⟩
      · exact .inr (.inl ⟨hx, .inr ⟨hb, rest, hh⟩⟩)
      · exact .inl ⟨_, hx⟩

/-! #### Written and read back -/

/-- A command that leaves the writer ready found it ready: neither a busy nor a faulted unit becomes ready by a
command (30_encoding.md R51, 60_exceptions.md R201). -/
theorem ready_of_exec_ready {i : Instr} {s t : State} (hu : i.unit = .bw) (h : exec i s = .next t) (ht : t.w.ready) :
    s.w.ready := by
  obtain ⟨hbusy, hfault⟩ := ht
  constructor
  · cases hb : s.w.busy with
    | false => rfl
    | true =>
      cases (exec_writer_of_busy hu hb).symm.trans h
      exact hb.symm.trans hbusy
  · by_contra hf
    exact hf (((exec_writer_ends hu h).1.fault_of_ne_zero hf).symm.trans hfault)

/-- A value of the range a size has is determined above its low bits: by zeros, or by its sign (45_reader_values.md
R160). -/
theorem high_bits_of_range {unsigned : Bool} {size : Nat} {value : Value} (hlow : 1 ≤ size) (hhigh : size ≤ 64)
    (hu : unsigned = true → value.toNat < 2 ^ size)
    (hs : unsigned = false → -2 ^ (size - 1) ≤ value.toInt ∧ value.toInt < 2 ^ (size - 1)) {k : Nat} (hk : size ≤ k)
    (hk' : k < 64) : value.getLsbD k = (!unsigned && value.getLsbD (size - 1)) := by
  cases unsigned with
  | true =>
    have hlt : value.toNat < 2 ^ k := (hu rfl).trans_le (Nat.pow_le_pow_right (by decide) hk)
    rw [Bool.not_true, Bool.false_and]
    exact Nat.testBit_lt_two_pow hlt
  | false =>
    obtain ⟨hmin, hmax⟩ := hs rfl
    have hpow : (2 : Int) ^ size = 2 * 2 ^ (size - 1) := by
      rw [← pow_succ', Nat.sub_add_cancel hlow]
    have hext : signExtendFrom size value = value := by
      apply BitVec.eq_of_toInt_eq
      rw [signExtendFrom, BitVec.toInt_signExtend_of_le hhigh, BitVec.toInt_setWidth,
        ← Int.bmod_bmod_of_dvd (Nat.pow_dvd_pow 2 hhigh), ← BitVec.toInt_eq_toNat_bmod]
      apply Int.bmod_eq_of_le_mul_two <;> push_cast <;> omega
    have hbit := signExtendFrom_getLsbD size k value hlow hhigh hk'
    rw [hext, if_neg (by omega)] at hbit
    simpa using hbit

/-- After an aligned write, the bytes stored are what was written before, the bits, and padding (20_memory.md R34). -/
theorem stored_after_align {s s₁ s₂ : State} {i : Instr} {bits : List Bool} (hr : s.w.ready)
    (hb : writtenBits s.w.toUnitState i = some bits) (h₁ : exec i s = .next s₁) (h₂ : exec (.walign 1) s₁ = .next s₂)
    (hr₂ : s₂.w.ready) : ∃ pad, bitsOfBytes s₂.w.out = s.w.stream ++ bits ++ pad := by
  have hr₁ := ready_of_exec_ready (by rfl) h₂ hr₂
  obtain ⟨x, v, p, rfl⟩ := pushed_of_ready hr hb h₁ hr₁
  obtain ⟨y, v', q, rfl⟩ := pushed_of_ready hr₁ (writtenBits_walign one_pos _) h₂ hr₂
  have hindex : y.bitIndex.toNat = 0 := by
    rw [q.index, List.length_replicate, alignBits_ends_on_boundary]
  have hstream : y.stream = x.stream ++ _ := q.stream
  rw [p.stream, Writer.stream, Writer.live, hindex, List.take_zero, List.append_nil] at hstream
  exact ⟨_, hstream⟩

/-- Settles O46: the reader's upcoming bits begin with those written, and the value is the one in range with these. -/
theorem longRoundTrip : Obligations.LongRoundTrip := by
  unfold Obligations.LongRoundTrip
  intro s s₁ s₂ q unsigned size value hlow hhigh hu hs hr h₁ h₂ hr₂ hq hup hfits
  have hhigh64 : size ≤ 64 := by cases unsigned <;> simp at hhigh <;> omega
  have hbits : writtenBits s.w.toUnitState (.wlong unsigned size value) = some (topDown size value) := by
    simp only [writtenBits]
    rw [if_pos (by cases unsigned <;> simp at hhigh ⊢ <;> omega), Int.toNat_natCast]
  obtain ⟨pad, hstored⟩ := stored_after_align hr hbits h₁ h₂ hr₂
  rw [hstored, List.append_assoc, List.drop_left] at hup
  have hy : q.r.yields size := ⟨by rw [hup, List.length_append, topDown_length]; omega, hfits⟩
  obtain ⟨t, v, ht, hc, hread, hext⟩ := (integerReadsConsume q unsigned size hq hlow hy).2 hhigh
  rw [hup, List.take_left' (topDown_length size value)] at hread
  suffices hv : v = value by
    subst hv
    exact ⟨t, ht, hc⟩
  have hlowbits := topDown_inj hread
  apply BitVec.eq_of_getLsbD_eq
  intro k hk
  rcases Nat.lt_or_ge k size with hlt | hge
  · exact hlowbits k hlt
  · rw [hext k hge hk, high_bits_of_range hlow hhigh64 hu hs hge hk, hlowbits (size - 1) (by omega)]

/-- `WOBJN` begins with the presence bit (47_object_boundary.md R182). -/
theorem expandWobjn_first {value : Option (List Instr)} {first : Instr} {rest : List Instr}
    (h : expandWobjn value = first :: rest) : first = .wbool (if value.isSome then 1 else 0) := by
  cases value with
  | none => cases h; rfl
  | some commands => cases h; rfl

/-- Settles O47: the bit appended is the presence of the value, and it is the bit `ROBJN`'s `RBOOL` answers. -/
theorem presenceBitDecidesRobjn : Obligations.PresenceBitDecidesRobjn := by
  unfold Obligations.PresenceBitDecidesRobjn
  intro s q value decoder first rest others hr ha hexpand hq hfits
  obtain rfl := expandWobjn_first hexpand
  obtain ⟨t, ht, happ⟩ := (typedWritesAppend s (if value.isSome then 1 else 0) hr).1 ha
  have hbit : (if value.isSome then (1 : Value) else 0).getLsbD 0 = value.isSome := by
    cases value.isSome <;> decide
  rw [hbit] at happ
  refine ⟨t, value.isSome, ht, happ.stream, fun hup => ?_⟩
  obtain ⟨u, hu, hc⟩ := exec_rbool hq hup hfits
  exact ⟨u, _, hu, hc.answered, rfl, by cases value <;> rfl⟩

end Sys2Proof.Machine
end
